-- ==== Sys2Proof/Word.lean ====
section
/-!
DEFINITION. The data of the block: vectors of three channels (00_scope.md R13, 41_accumulator.md R140).
-/

namespace Sys2Proof

/-- Three channels in the order r, g, b (00_scope.md R13). -/
structure Rgb (α : Type) where
  r : α
  g : α
  b : α
deriving DecidableEq, Repr, Inhabited

/-- An operation on a vector acts on each channel by itself (00_scope.md R13). -/
def Rgb.map {α β : Type} (f : α → β) (v : Rgb α) : Rgb β :=
  ⟨f v.r, f v.g, f v.b⟩

/-- A binary operation on two vectors, channel by channel (00_scope.md R13). -/
def Rgb.zipWith {α β γ : Type} (f : α → β → γ) (v : Rgb α) (w : Rgb β) : Rgb γ :=
  ⟨f v.r w.r, f v.g w.g, f v.b w.b⟩

/-- The same value in all three channels. -/
def Rgb.all {α : Type} (x : α) : Rgb α :=
  ⟨x, x, x⟩

/-- A property of every channel. -/
abbrev Rgb.Each {α : Type} (P : α → Prop) (v : Rgb α) : Prop :=
  P v.r ∧ P v.g ∧ P v.b

/-- A colour: three unsigned 8-bit channels (00_scope.md R7, R13). -/
abbrev Color := Rgb (BitVec 8)

/-- An accumulator: three 16-bit two's-complement channels (ACC_BITS = 16, 41_accumulator.md R140). -/
abbrev Acc := Rgb (BitVec 16)

/-- An error vector: three 9-bit two's-complement channels (00_scope.md R8). -/
abbrev Err := Rgb (BitVec 9)

/-- The exact products between ACC_SCALE and ACC_SHR (41_accumulator.md R140): never stored. -/
abbrev Wide := Rgb Int

end Sys2Proof
end

