-- ==== Sys2Proof/Syntax.lean ====
section
/-!
DEFINITION. The fifteen commands of spec/opcode_table.json (30_encoding.md R111) with their operands (R109).
-/

namespace Sys2Proof

/-- A command. Operands are the fields of 30_encoding.md R103-R108, assembled as R109 says. -/
inductive Instr where
  /-- NOP (45_control.md R280). -/
  | nop
  /-- WR_REG addr, data (45_control.md R281). -/
  | wrReg (addr : BitVec 16) (data : BitVec 32)
  /-- RD_REG addr (45_control.md R282). -/
  | rdReg (addr : BitVec 16)
  /-- ERR_CLEAR (45_control.md R283). -/
  | errClear
  /-- ABORT (45_control.md R284). -/
  | abort
  /-- BUILD (43_quantizer.md R204). -/
  | build
  /-- QUERY color (43_quantizer.md R211). -/
  | query (c : Color)
  /-- START (44_engine.md R243). -/
  | start
  /-- PIXEL color (44_engine.md R244). -/
  | pixel (x : Color)
  /-- END (44_engine.md R248). -/
  | endImage
  /-- RING_RESET (42_ring_fifo.md R177). -/
  | ringReset
  /-- RING_RD off (42_ring_fifo.md R178). -/
  | ringRd (off : BitVec 16)
  /-- RING_LD off, color (42_ring_fifo.md R179). -/
  | ringLd (off : BitVec 16) (c : Color)
  /-- RING_WRC off, ch, value (42_ring_fifo.md R180); `val` is read as two's complement. -/
  | ringWrc (off : BitVec 16) (ch : BitVec 2) (val : BitVec 16)
  /-- RING_PUSH color (42_ring_fifo.md R181). -/
  | ringPush (c : Color)
deriving DecidableEq, Repr

end Sys2Proof
end

