-- ==== Sys2Proof/WellFormed.lean ====
section
/-!
DEFINITION. Which terms of `Instr` a command word can stand for.
-/

namespace Sys2Proof

/-- The one check the operand types do not make: RING_WRC's channel 3 is reserved (30_encoding.md R102, R108). -/
def Instr.wellFormed : Instr → Bool
  | .nop => true
  | .wrReg _ _ => true
  | .rdReg _ => true
  | .errClear => true
  | .abort => true
  | .build => true
  | .query _ => true
  | .start => true
  | .pixel _ => true
  | .endImage => true
  | .ringReset => true
  | .ringRd _ => true
  | .ringLd _ _ => true
  | .ringWrc _ ch _ => ch != 3#2
  | .ringPush _ => true

end Sys2Proof
end

