-- ==== Sys2Proof/Decode.lean ====
section
/-!
DEFINITION. The decoder and the encoder of 30_encoding.md, and the colour packing of 20_memory.md R81.
-/

namespace Sys2Proof

/-- A colour as one word, red in [23:16] (20_memory.md R81). -/
def packColor (c : Color) : BitVec 24 :=
  c.r ++ c.g ++ c.b

/-- The colour a 24-bit word stands for (20_memory.md R81). -/
def colorOf (v : BitVec 24) : Color :=
  ⟨v.extractLsb' 16 8, v.extractLsb' 8 8, v.extractLsb' 0 8⟩

/-- The operand formats of 30_encoding.md R103-R108; format R has one mask per command (R104). -/
inductive Format where
  | z
  | rWrite
  | rRead
  | c
  | o
  | co
  | w
deriving DecidableEq, Repr

/-- ZeroMask, the must-be-zero bits of a format (30_encoding.md R103-R108). -/
def zeroMask : Format → BitVec 64
  | .z => 0x00FFFFFFFFFFFFFF#64
  | .rWrite => 0x00FF000000000000#64
  | .rRead => 0x00FF0000FFFFFFFF#64
  | .c => 0x00FFFFFFFF000000#64
  | .o => 0x00FFFFFFFFFF0000#64
  | .co => 0x00FF000000FF0000#64
  | .w => 0x00FC0000FFFF0000#64

/-- The commands by name, as the opcode map lists them (30_encoding.md R111). -/
inductive Opcode where
  | nop
  | wrReg
  | rdReg
  | errClear
  | abort
  | build
  | query
  | start
  | pixel
  | endImage
  | ringReset
  | ringRd
  | ringLd
  | ringWrc
  | ringPush
deriving DecidableEq, Repr

/-- A row of the opcode map. -/
structure OpcodeRow where
  code : BitVec 8
  op : Opcode
  format : Format
deriving DecidableEq, Repr

/-- The complete opcode map (30_encoding.md R111). -/
def opcodeMap : List OpcodeRow :=
  [⟨0x00#8, .nop, .z⟩, ⟨0x01#8, .wrReg, .rWrite⟩, ⟨0x02#8, .rdReg, .rRead⟩, ⟨0x03#8, .errClear, .z⟩,
   ⟨0x04#8, .abort, .z⟩, ⟨0x10#8, .build, .z⟩, ⟨0x11#8, .query, .c⟩, ⟨0x20#8, .start, .z⟩,
   ⟨0x21#8, .pixel, .c⟩, ⟨0x22#8, .endImage, .z⟩, ⟨0x30#8, .ringReset, .z⟩, ⟨0x31#8, .ringRd, .o⟩,
   ⟨0x32#8, .ringLd, .co⟩, ⟨0x33#8, .ringWrc, .w⟩, ⟨0x34#8, .ringPush, .c⟩]

/-- The row of an opcode, none where the opcode is reserved (30_encoding.md R113). -/
def opcodeRow (code : BitVec 8) : Option OpcodeRow :=
  opcodeMap.find? fun row => row.code == code

/-- The operands of a command, assembled as 30_encoding.md R109 says. -/
def assemble (op : Opcode) (w : BitVec 64) : Instr :=
  match op with
  | .nop => .nop
  | .wrReg => .wrReg (w.extractLsb' 32 16) (w.extractLsb' 0 32)
  | .rdReg => .rdReg (w.extractLsb' 32 16)
  | .errClear => .errClear
  | .abort => .abort
  | .build => .build
  | .query => .query (colorOf (w.extractLsb' 0 24))
  | .start => .start
  | .pixel => .pixel (colorOf (w.extractLsb' 0 24))
  | .endImage => .endImage
  | .ringReset => .ringReset
  | .ringRd => .ringRd (w.extractLsb' 0 16)
  | .ringLd => .ringLd (w.extractLsb' 0 16) (colorOf (w.extractLsb' 24 24))
  | .ringWrc => .ringWrc (w.extractLsb' 0 16) (w.extractLsb' 48 2) (w.extractLsb' 32 16)
  | .ringPush => .ringPush (colorOf (w.extractLsb' 0 24))

/-- What decoding a word answers: a command, or the name of the decode error (30_encoding.md R102). -/
inductive Decoded where
  | command (i : Instr)
  | badOpcode
  | badFormat
deriving DecidableEq, Repr

/-- Decoding, in the order of 30_encoding.md R102: opcode, must-be-zero bits, RING_WRC's reserved channel. It depends
on the word alone (R114). -/
def decode (w : BitVec 64) : Decoded :=
  match opcodeRow (w.extractLsb' 56 8) with
  | none => .badOpcode
  | some row =>
    if w &&& zeroMask row.format ≠ 0#64 then .badFormat
    else if row.op = .ringWrc ∧ w.extractLsb' 48 2 = 3#2 then .badFormat
    else .command (assemble row.op w)

/-- The word of a command (30_encoding.md R103-R108, R115). -/
def encode : Instr → BitVec 64
  | .nop => 0x00#8 ++ 0#56
  | .wrReg addr data => 0x01#8 ++ 0#8 ++ addr ++ data
  | .rdReg addr => 0x02#8 ++ 0#8 ++ addr ++ 0#32
  | .errClear => 0x03#8 ++ 0#56
  | .abort => 0x04#8 ++ 0#56
  | .build => 0x10#8 ++ 0#56
  | .query c => 0x11#8 ++ 0#32 ++ packColor c
  | .start => 0x20#8 ++ 0#56
  | .pixel x => 0x21#8 ++ 0#32 ++ packColor x
  | .endImage => 0x22#8 ++ 0#56
  | .ringReset => 0x30#8 ++ 0#56
  | .ringRd off => 0x31#8 ++ 0#40 ++ off
  | .ringLd off c => 0x32#8 ++ 0#8 ++ packColor c ++ 0#8 ++ off
  | .ringWrc off ch val => 0x33#8 ++ 0#6 ++ ch ++ val ++ 0#16 ++ off
  | .ringPush c => 0x34#8 ++ 0#32 ++ packColor c

/-- The command a decode result holds, if any. -/
def Decoded.toOption : Decoded → Option Instr
  | .command i => some i
  | .badOpcode => none
  | .badFormat => none

/-- What the decoder reads from a command whose low `nbits` bits are `w` and whose other bits are 0. A command is one
64-bit word, delivered whole (30_encoding.md R100, 20_memory.md R81), so the table's bit numbers are the word's. -/
def decodeTableWord (nbits w : Nat) : Option Instr :=
  (decode (BitVec.ofNat 64 (w % 2 ^ nbits))).toOption

end Sys2Proof
end

