-- ==== Sys2Proof/Config.lean ====
section
/-!
DEFINITION. What an implementation fixes (00_scope.md R9) and the values the spec leaves free.
-/

namespace Sys2Proof

/-- The sizing parameters of 00_scope.md R9. They stand in the state as data no step changes, so that a statement
about every state holds of every configuration (assumption log 1). -/
structure Params where
  /-- WMAX, the largest image width the ring RAM holds. -/
  wmax : Nat
  /-- KMAX, the number of KERNEL registers. -/
  kmax : Nat
  /-- PAL_CAP, the capacity of the palette map and of the PAL registers. -/
  palCap : Nat
  /-- LAT_LOG2_MAX, the largest lattice exponent. -/
  latLog2Max : Nat
deriving DecidableEq, Repr

/-- The reference configuration (00_scope.md R9). -/
def Params.reference : Params :=
  { wmax := 4096, kmax := 8, palCap := 16, latLog2Max := 5 }

/-- The legal ranges of 00_scope.md R9. -/
abbrev Params.Legal (p : Params) : Prop :=
  1 ≤ p.wmax ∧ p.wmax ≤ 65534 ∧ 4 ≤ p.kmax ∧ p.kmax ≤ 8 ∧ 1 ≤ p.palCap ∧ p.palCap ≤ 16 ∧
    1 ≤ p.latLog2Max ∧ p.latLog2Max ≤ 8

/-- FREE VALUE. The membership function of the external palette module (20_memory.md R90): pure and total, and
nothing else is assumed of it (assumption log 2). -/
opaque Config.member : Color → Color

/-- FREE VALUE. What the n-th read of a ring slot that is not wholly written finds in its unwritten channels
(10_state.md R38, 93_implementation_defined.md: a fresh draw on every read; assumption log 6). -/
opaque Config.freeAcc : Nat → Acc

/-- FREE VALUE. What a lattice cell that no BUILD has written holds, by its index (10_state.md R41: unspecified and
unobservable; assumption log 8). -/
opaque Config.freeCell : Nat → BitVec 4

end Sys2Proof
end

