-- ==== Sys2Proof/Machine/State.lean ====
section
/-!
DEFINITION. The state of the block (10_state.md R30), with its values after reset, and how a step can stop.
-/

namespace Sys2Proof.Machine

/-- A sparse memory: the written places as (address, value) pairs, addresses strictly rising (`Memory.wf`). What a
place that is not listed reads as is said where the memory is read. -/
abbrev Memory (w : Nat) := List (Nat × BitVec w)

/-- MODE, the engine's state machine (10_state.md R33). The reserved values 5-7 are never held. -/
inductive Mode where
  | idle
  | filling
  | streaming
  | draining
  | done
deriving DecidableEq, Repr

/-- The error codes 1 to 10 of 60_exceptions.md R311. -/
inductive ErrorCode where
  | cfgWidth
  | cfgKernel
  | cfgPalCapacity
  | cfgPalMiss
  | cfgLattice
  | notBuilt
  | illegalState
  | badOpcode
  | badFormat
  | badReg
deriving DecidableEq, Repr

/-- A KERNEL register (10_state.md R62): OFFSET is read as two's complement. -/
structure KernelReg where
  offset : BitVec 24
  num : BitVec 8
deriving DecidableEq, Repr

/-- A term of the active kernel latch KACT (10_state.md R39): an offset in 0..N+1 and a numerator. -/
structure KernelTerm where
  off : Nat
  num : BitVec 8
deriving DecidableEq, Repr

/-- A slot of the palette map (10_state.md R40). -/
structure MapSlot where
  valid : Bool
  key : Color
  cent : Color
  count : BitVec 25
deriving DecidableEq, Repr

/-- A map slot not in use: every item 0 (10_state.md R40). -/
def MapSlot.empty : MapSlot :=
  { valid := false, key := Rgb.all 0, cent := Rgb.all 0, count := 0 }

/-- A response: result code and data word (30_encoding.md R101). -/
structure Response where
  code : BitVec 8
  data : BitVec 64
deriving DecidableEq, Repr

/-- What the host does to the block (70_reset_and_hazards.md R348): it sends a command word, or it asserts and
releases reset. -/
inductive HostInput where
  | command (w : BitVec 64)
  | reset
deriving DecidableEq, Repr

/-- Why the machine stops. Nothing stops it: a failure is a completed command (60_exceptions.md R310), so there is no
constructor, and no step can raise a fault (safe: the block has no trap). -/
inductive Fault where
deriving DecidableEq, Repr

/-- Why a command has no meaning. The block never refuses a command word (70_reset_and_hazards.md R348). -/
inductive Refusal where
  /-- The rejection by name the host's interface asks for; raised by an arm of `exec` without a meaning (safe: the
  machine stops). No arm raises it. -/
  | notModelled (mnemonic : String)
deriving DecidableEq, Repr

/-- The architectural state of 10_state.md R30, then the sizing parameters, then the model's own fields. Every field
is plain data. -/
structure State where
  /-- MODE (R33). -/
  mode : Mode
  /-- ERR, the sticky error code (R34). -/
  err : BitVec 8
  /-- BUILT (R35). -/
  built : Bool
  /-- SHORT_PRIME (R36). -/
  shortPrime : Bool
  /-- OFS_WRAP (R37). -/
  ofsWrap : Bool
  /-- WIDTH.WIDTH (R53). -/
  width : BitVec 16
  /-- LAT.LOG2 (R54). -/
  latLog2 : BitVec 4
  /-- DEFAULT.COLOR (R55). -/
  defaultColor : Color
  /-- KCTRL.KMODE (R56). -/
  kmode : Bool
  /-- KCTRL.KCOUNT (R56). -/
  kcount : BitVec 4
  /-- PALCNT.COUNT (R57). -/
  palcnt : BitVec 5
  /-- KERNEL[i] (R62), held for the largest legal KMAX (assumption log 10). -/
  kernel : Vector KernelReg 8
  /-- PAL[i] (R63), held for the largest legal PAL_CAP (assumption log 10). -/
  pal : Vector Color 16
  /-- RING (R38), by channel: channel c of physical slot j has the key 3 * j + c. An unlisted channel was never
  written since reset (assumption log 6). -/
  ringRam : Memory 16
  /-- N, the ring's logical capacity (R38). -/
  ringN : BitVec 16
  /-- CURSOR (R38). -/
  cursor : BitVec 16
  /-- FILL (R38). -/
  fill : BitVec 16
  /-- KACT_LEN (R39). -/
  kactLen : BitVec 4
  /-- KACT[i] (R39). -/
  kact : Vector KernelTerm 8
  /-- USED (R40). -/
  used : BitVec 5
  /-- VALID[i], KEY[i], CENT[i], COUNT[i] (R40). -/
  slots : Vector MapSlot 16
  /-- CUBE (R41), by cell index. An unlisted cell was never written since reset (assumption log 8). -/
  cube : Memory 4
  /-- IN_COUNT (R42). -/
  inCount : BitVec 32
  /-- OUT_COUNT (R42). -/
  outCount : BitVec 32
  /-- OUT, the colours emitted, in order (R43). -/
  out : List Color
  /-- The sizing parameters (00_scope.md R9, assumption log 1). -/
  params : Params
  /-- The model's own: the last command's response (30_encoding.md R101, assumption log 5). -/
  response : Option Response
  /-- The model's own: what the host has still to deliver, first first (assumption log 3). -/
  inputs : List HostInput
  /-- The model's own: the membership port's answers that are given as data (assumption log 2). -/
  member : List (Color × Color)
  /-- The model's own: how many free values have been drawn (assumption log 6). -/
  draws : Nat
deriving DecidableEq, Repr

/-- The block right after reset, in the reference configuration: every state item at the value 10_state.md R33-R43 and
R53-R63 give it (70_reset_and_hazards.md R340). The model's own fields: no response, nothing to deliver, no given
answer, no draw yet (DESIGN CHOICE, assumption logs 2, 3, 5 and 6). -/
def State.reset : State where
  mode := .idle
  err := 0
  built := false
  shortPrime := false
  ofsWrap := false
  width := 0
  latLog2 := 0
  defaultColor := Rgb.all 0
  kmode := false
  kcount := 0
  palcnt := 0
  kernel := Vector.replicate 8 { offset := 0, num := 0 }
  pal := Vector.replicate 16 (Rgb.all 0)
  ringRam := []
  ringN := 0
  cursor := 0
  fill := 0
  kactLen := 0
  kact := Vector.replicate 8 { off := 0, num := 0 }
  used := 0
  slots := Vector.replicate 16 MapSlot.empty
  cube := []
  inCount := 0
  outCount := 0
  out := []
  params := Params.reference
  response := none
  inputs := []
  member := []
  draws := 0

end Sys2Proof.Machine
end

