-- ==== Sys2Proof/Machine/Flags.lean ====
section
/-!
DEFINITION. The status bits: MODE's encoding (10_state.md R33), the error codes and the sticky ERR rule
(60_exceptions.md R311, R312), OFS_WRAP's rule (42_ring_fifo.md R175) and the STATUS word (10_state.md R52).
-/

namespace Sys2Proof.Machine

/-- MODE as STATUS.STATE shows it (10_state.md R33). -/
def modeBits : Mode → BitVec 3
  | .idle => 0
  | .filling => 1
  | .streaming => 2
  | .draining => 3
  | .done => 4

/-- The number of an error code (60_exceptions.md R311). -/
def errorNumber : ErrorCode → BitVec 8
  | .cfgWidth => 1
  | .cfgKernel => 2
  | .cfgPalCapacity => 3
  | .cfgPalMiss => 4
  | .cfgLattice => 5
  | .notBuilt => 6
  | .illegalState => 7
  | .badOpcode => 8
  | .badFormat => 9
  | .badReg => 10

/-- ERR after a failure: the first error wins (10_state.md R34, 60_exceptions.md R312). -/
def stickyErr (err : BitVec 8) (code : ErrorCode) : BitVec 8 :=
  if err = 0 then errorNumber code else err

/-- OFS_WRAP after a command named the logical offset `off` in a ring of capacity `n` (42_ring_fifo.md R175). -/
def wrapFlag (flag : Bool) (off n : BitVec 16) : Bool :=
  flag || decide (n.toNat < off.toNat)

/-- MODE is IDLE or DONE: the host may configure the block and use the ring (42_ring_fifo.md R176, 45_control.md
R281). -/
abbrev State.Resting (s : State) : Prop :=
  s.mode = .idle ∨ s.mode = .done

/-- An image runs: the engine owns the ring (20_memory.md R96). -/
abbrev State.Running (s : State) : Prop :=
  s.mode = .filling ∨ s.mode = .streaming ∨ s.mode = .draining

/-- STATUS (10_state.md R52). -/
def statusWord (s : State) : BitVec 32 :=
  0#16 ++ s.err ++ 0#2 ++ BitVec.ofBool s.ofsWrap ++ BitVec.ofBool s.shortPrime ++ BitVec.ofBool s.built ++
    modeBits s.mode

end Sys2Proof.Machine
end

