-- ==== Sys2Proof/Machine/Operands.lean ====
section
/-!
DEFINITION. The register map (10_state.md R50-R68): addresses, access, what a read shows and what a write stores; and
the channel an operand names (42_ring_fifo.md R180).
-/

namespace Sys2Proof.Machine

/-- The registers of 10_state.md R50. -/
inductive Reg where
  | caps
  | status
  | width
  | lat
  | defaultColor
  | kctrl
  | palcnt
  | inCount
  | outCount
  | ringInfo
  | mapUsed
  | kernel (i : Fin 8)
  | pal (i : Fin 16)
  | key (i : Fin 16)
  | cent (i : Fin 16)
  | count (i : Fin 16)
deriving DecidableEq, Repr

/-- The index of address `n` in the bank at `base` with `limit` registers, none outside it. -/
def bankIndex (base size limit n : Nat) : Option (Fin size) :=
  if h : base ≤ n ∧ n - base < size then
    if n - base < limit then some ⟨n - base, h.2⟩ else none
  else none

/-- The register at an address, none where the address is reserved (10_state.md R50). -/
def regAt (p : Params) (addr : BitVec 16) : Option Reg :=
  match addr.toNat with
  | 0x000 => some .caps
  | 0x001 => some .status
  | 0x002 => some .width
  | 0x003 => some .lat
  | 0x004 => some .defaultColor
  | 0x005 => some .kctrl
  | 0x006 => some .palcnt
  | 0x007 => some .inCount
  | 0x008 => some .outCount
  | 0x009 => some .ringInfo
  | 0x00A => some .mapUsed
  | n =>
    ((bankIndex 0x010 8 p.kmax n).map Reg.kernel) <|> ((bankIndex 0x020 16 p.palCap n).map Reg.pal) <|>
      ((bankIndex 0x040 16 p.palCap n).map Reg.key) <|> ((bankIndex 0x050 16 p.palCap n).map Reg.cent) <|>
      ((bankIndex 0x060 16 p.palCap n).map Reg.count)

/-- Which registers are read-write (10_state.md R50). -/
def Reg.writable : Reg → Bool
  | .caps => false
  | .status => false
  | .width => true
  | .lat => true
  | .defaultColor => true
  | .kctrl => true
  | .palcnt => true
  | .inCount => false
  | .outCount => false
  | .ringInfo => false
  | .mapUsed => false
  | .kernel _ => true
  | .pal _ => true
  | .key _ => false
  | .cent _ => false
  | .count _ => false

/-- The registers a write to which makes the build stale: LAT, PALCNT and every PAL[i] (10_state.md R67). -/
def Reg.invalidates : Reg → Bool
  | .caps => false
  | .status => false
  | .width => false
  | .lat => true
  | .defaultColor => false
  | .kctrl => false
  | .palcnt => true
  | .inCount => false
  | .outCount => false
  | .ringInfo => false
  | .mapUsed => false
  | .kernel _ => false
  | .pal _ => true
  | .key _ => false
  | .cent _ => false
  | .count _ => false

/-- CAPS, hardwired from the sizing parameters (10_state.md R51). -/
def capsWord (p : Params) : BitVec 32 :=
  0#3 ++ BitVec.ofNat 4 p.kmax ++ BitVec.ofNat 5 p.palCap ++ BitVec.ofNat 4 p.latLog2Max ++ BitVec.ofNat 16 p.wmax

/-- A view of a map slot: 0 while the slot is not valid (10_state.md R64-R66). -/
def slotView (slot : MapSlot) (v : BitVec 32) : BitVec 32 :=
  if slot.valid then v else 0

/-- What RD_REG shows of a register (10_state.md R51-R66). -/
def readReg (s : State) : Reg → BitVec 32
  | .caps => capsWord s.params
  | .status => statusWord s
  | .width => 0#16 ++ s.width
  | .lat => 0#28 ++ s.latLog2
  | .defaultColor => 0#8 ++ packColor s.defaultColor
  | .kctrl => 0#20 ++ s.kcount ++ 0#7 ++ BitVec.ofBool s.kmode
  | .palcnt => 0#27 ++ s.palcnt
  | .inCount => s.inCount
  | .outCount => s.outCount
  | .ringInfo => s.cursor ++ s.ringN
  | .mapUsed => 0#27 ++ s.used
  | .kernel i => s.kernel[i].num ++ s.kernel[i].offset
  | .pal i => 0#8 ++ packColor s.pal[i]
  | .key i => slotView s.slots[i] (1#1 ++ 0#7 ++ packColor s.slots[i].key)
  | .cent i => slotView s.slots[i] (0#8 ++ packColor s.slots[i].cent)
  | .count i => slotView s.slots[i] (0#7 ++ s.slots[i].count)

/-- What WR_REG stores in a read-write register: the defined fields only (10_state.md R68, 45_control.md R281). A
read-only register stores nothing; WR_REG refuses it before. -/
def storeReg (s : State) (r : Reg) (d : BitVec 32) : State :=
  match r with
  | .caps => s
  | .status => s
  | .width => { s with width := d.extractLsb' 0 16 }
  | .lat => { s with latLog2 := d.extractLsb' 0 4 }
  | .defaultColor => { s with defaultColor := colorOf (d.extractLsb' 0 24) }
  | .kctrl => { s with kmode := d.getLsbD 0, kcount := d.extractLsb' 8 4 }
  | .palcnt => { s with palcnt := d.extractLsb' 0 5 }
  | .inCount => s
  | .outCount => s
  | .ringInfo => s
  | .mapUsed => s
  | .kernel i =>
    { s with kernel := s.kernel.set i { offset := d.extractLsb' 0 24, num := d.extractLsb' 24 8 } }
  | .pal i => { s with pal := s.pal.set i (colorOf (d.extractLsb' 0 24)) }
  | .key _ => s
  | .cent _ => s
  | .count _ => s

end Sys2Proof.Machine
end

