-- ==== Sys2Proof/Machine/Arith.lean ====
section
/-!
DEFINITION. The fixed_width_accumulator and the saturating_color_narrower (41_accumulator.md R140-R147). Every
operation is total and sets no flag (R148).
-/

namespace Sys2Proof.Machine

/-- `clamp(v, lo, hi)` of 00_scope.md R12. -/
def clamp (v lo hi : Int) : Int :=
  min hi (max lo v)

/-- `sat16(v)` of 00_scope.md R12, as a 16-bit two's-complement field. -/
def sat16 (v : Int) : BitVec 16 :=
  BitVec.ofInt 16 (clamp v (-32768) 32767)

/-- `sra(v, s) = floor(v / 2^s)` of 00_scope.md R12 (for a positive divisor `/` on `Int` rounds down). -/
def sra (v : Int) (s : Nat) : Int :=
  v / (2 ^ s : Nat)

/-- ACC_FROM (41_accumulator.md R141). -/
def accFrom (c : Color) : Acc :=
  c.map fun x => x.setWidth 16

/-- ACC_ADD, a saturating add (41_accumulator.md R142). -/
def accAdd (a b : Acc) : Acc :=
  a.zipWith (fun x y => sat16 (x.toInt + y.toInt)) b

/-- ACC_SUB, a saturating subtract (41_accumulator.md R143). -/
def accSub (a b : Acc) : Acc :=
  a.zipWith (fun x y => sat16 (x.toInt - y.toInt)) b

/-- ACC_SCALE, an exact product (41_accumulator.md R144). -/
def accScale (a : Acc) (num : BitVec 8) : Wide :=
  a.map fun x => x.toInt * num.toNat

/-- ACC_SHR, an arithmetic shift and then saturation (41_accumulator.md R145). -/
def accShr (v : Wide) (s : Nat) : Acc :=
  v.map fun x => sat16 (sra x s)

/-- WIDEN, the error vector as an accumulator (41_accumulator.md R146). -/
def widen (e : Err) : Acc :=
  e.map fun x => x.signExtend 16

/-- The accumulator as an error vector. DEDUCED (assumption log 13): exact where every channel lies in -255..255, as it
does for every result of WITH_ERROR (43_quantizer.md R210). -/
def errOfAcc (a : Acc) : Err :=
  a.map fun x => x.setWidth 9

/-- TERM, one kernel term's contribution (41_accumulator.md R146). -/
def term (e : Err) (num : BitVec 8) : Acc :=
  accShr (accScale (widen e) num) 4

/-- NARROW, the clamp to a colour (41_accumulator.md R147). -/
def narrow (a : Acc) : Color :=
  a.map fun x => BitVec.ofInt 8 (clamp x.toInt 0 255)

end Sys2Proof.Machine
end

