-- ==== Sys2Proof/Machine/Ops.lean ====
section
/-!
DEFINITION. The named operations over the state: the sparse memories, how a command ends (60_exceptions.md R312), the
host port, the ring (42_ring_fifo.md R170-R175), the membership port and the sink (20_memory.md R90, R91), reset
(70_reset_and_hazards.md R340).
-/

namespace Sys2Proof.Machine

/-! ### Sparse memories -/

/-- The canonical form of a memory: addresses strictly rising, so every place is listed at most once. -/
abbrev Memory.wf {w : Nat} (m : Memory w) : Prop :=
  m.Pairwise fun x y => x.1 < y.1

/-- Every listed address lies below `bound`. -/
abbrev Memory.Below {w : Nat} (m : Memory w) (bound : Nat) : Prop :=
  ∀ e ∈ m, e.1 < bound

/-- What was last written at an address, none where nothing was. -/
def Memory.read? {w : Nat} (m : Memory w) (a : Nat) : Option (BitVec w) :=
  (m.find? fun e => e.1 == a).map Prod.snd

/-- Consecutive cells from address `base`. -/
def cellsFrom {w : Nat} (base : Nat) : List (BitVec w) → Memory w
  | [] => []
  | v :: vs => (base, v) :: cellsFrom (base + 1) vs

/-- Write consecutive values from address `base`: the one write operation of every memory. -/
def Memory.writeRun {w : Nat} (m : Memory w) (base : Nat) (vs : List (BitVec w)) : Memory w :=
  (m.filter fun e => e.1 < base) ++ cellsFrom base vs ++ (m.filter fun e => base + vs.length ≤ e.1)

/-! ### How a command ends -/

/-- RAISE(code): a failing command's effect on ERR and its response (60_exceptions.md R312). This is the block's only
reaction to an error: no trap is taken and nothing is saved (R310, R316). -/
def State.raise (s : State) (code : ErrorCode) : State :=
  { s with err := stickyErr s.err code, response := some ⟨errorNumber code, 0⟩ }

/-- The response of a command that succeeds with data `d` (30_encoding.md R101). -/
def State.respond (s : State) (d : BitVec 64) : State :=
  { s with response := some ⟨0, d⟩ }

/-- A command that ends by raising `code` (60_exceptions.md R310: a step to a next state). -/
def fail (s : State) (code : ErrorCode) : Host.Outcome State Fault Refusal :=
  .next (s.raise code)

/-- A command that completes with data `d`. -/
def finish (s : State) (d : BitVec 64) : Host.Outcome State Fault Refusal :=
  .next (s.respond d)

/-! ### The host port and reset -/

/-- What the port delivers at a step, and the state without it. -/
inductive Fetched where
  | quiet
  | reset (s : State)
  | command (w : BitVec 64) (s : State)

/-- Take the host's next input (70_reset_and_hazards.md R348). -/
def fetch (s : State) : Fetched :=
  match s.inputs with
  | [] => .quiet
  | .reset :: rest => .reset { s with inputs := rest }
  | .command w :: rest => .command w { s with inputs := rest }

/-- Reset (70_reset_and_hazards.md R340): every state item takes its reset value. CAPS is hardwired (10_state.md R51);
the host's further inputs and the membership port are outside the block; free values stay fresh (assumption log 9). -/
def resetBlock (s : State) : State :=
  { State.reset with params := s.params, inputs := s.inputs, member := s.member, draws := s.draws }

/-! ### The external ports -/

/-- `Member(c)`, the membership port's answer (20_memory.md R90): a pure, total function, the same for the whole run. -/
def State.ask (s : State) (c : Color) : Color :=
  match s.member.find? fun answer => answer.1 == c with
  | some answer => answer.2
  | none => Config.member c

/-- `Emit(c)`: append a colour to the output stream (20_memory.md R91). -/
def State.emit (s : State) (c : Color) : State :=
  { s with out := s.out ++ [c] }

/-! ### The ring -/

/-- N + 1, the number of live ring slots (42_ring_fifo.md R170). -/
def State.ringLen (s : State) : Nat :=
  s.ringN.toNat + 1

/-- PHYS(off), the physical slot of a logical offset (42_ring_fifo.md R170). -/
def State.phys (s : State) (off : Nat) : Nat :=
  (s.cursor.toNat + off) % s.ringLen

/-- The key of channel `ch` of physical slot `j` in the ring RAM. -/
def ringKey (j ch : Nat) : Nat :=
  3 * j + ch

/-- RingRead(j). A channel never written since reset reads as a fresh draw on every read (10_state.md R38,
93_implementation_defined.md; assumption log 6). -/
def State.ringRead (s : State) (j : Nat) : Acc × State :=
  match s.ringRam.read? (ringKey j 0), s.ringRam.read? (ringKey j 1), s.ringRam.read? (ringKey j 2) with
  | some r, some g, some b => (⟨r, g, b⟩, s)
  | r, g, b =>
    let d := Config.freeAcc s.draws
    (⟨r.getD d.r, g.getD d.g, b.getD d.b⟩, { s with draws := s.draws + 1 })

/-- RingWrite(j, a): the slot is written whole. -/
def State.ringWrite (s : State) (j : Nat) (a : Acc) : State :=
  { s with ringRam := s.ringRam.writeRun (ringKey j 0) [a.r, a.g, a.b] }

/-- Write one channel of slot `j`; the other two keep what they hold, an unwritten one stays unwritten (42_ring_fifo.md
R180, 93_implementation_defined.md; assumption log 7). -/
def State.ringWriteChannel (s : State) (j ch : Nat) (v : BitVec 16) : State :=
  { s with ringRam := s.ringRam.writeRun (ringKey j ch) [v] }

/-- `for j in 0..n: RingWrite(j, a)` (42_ring_fifo.md R177, 44_engine.md R243), as one run of 3 * (n + 1) channels. -/
def State.ringFill (s : State) (n : Nat) (a : Acc) : State :=
  { s with ringRam := s.ringRam.writeRun 0 (List.replicate (n + 1) [a.r, a.g, a.b]).flatten }

/-- RING_INDEX(off): the physical slot, and OFS_WRAP set where the offset exceeds N (42_ring_fifo.md R175). -/
def State.ringIndex (s : State) (off : BitVec 16) : Nat × State :=
  (s.phys off.toNat, { s with ofsWrap := wrapFlag s.ofsWrap off s.ringN })

/-- RING_ADDTO(j, t): a saturating add into a physical slot (42_ring_fifo.md R172). -/
def State.ringAddTo (s : State) (j : Nat) (t : Acc) : State :=
  (s.ringRead j).2.ringWrite j (accAdd (s.ringRead j).1 t)

/-- Advance the head: CURSOR <- (CURSOR + 1) mod (N+1) (42_ring_fifo.md R173). -/
def State.advance (s : State) : State :=
  { s with cursor := BitVec.ofNat 16 ((s.cursor.toNat + 1) % s.ringLen) }

/-- RING_PUSHI(a): the evicted head slot takes the new item, then the head advances (42_ring_fifo.md R173). -/
def State.ringPush (s : State) (a : Acc) : State :=
  (s.ringWrite s.cursor.toNat a).advance

/-! ### The palette map -/

/-- CLEAR_MAP (43_quantizer.md R204): USED and every map slot to 0. -/
def State.clearMap (s : State) : State :=
  { s with used := 0, slots := Vector.replicate 16 MapSlot.empty }

/-- INVALIDATE_BUILD (10_state.md R67). -/
def State.invalidateBuild (s : State) : State :=
  { s with built := false }.clearMap

/-- CubeRead(idx). A cell no BUILD has written holds an unspecified value (10_state.md R41; assumption log 8). -/
def State.cubeRead (s : State) (idx : Nat) : BitVec 4 :=
  (s.cube.read? idx).getD (Config.freeCell idx)

end Sys2Proof.Machine
end

