-- ==== Sys2Proof/Machine/Control.lean ====
section
/-!
DEFINITION. The control commands NOP, WR_REG, RD_REG, ERR_CLEAR and ABORT (45_control.md).
-/

namespace Sys2Proof.Machine

/-- NOP (45_control.md R280): no effect but its response. -/
def execNop (s : State) : Host.Outcome State Fault Refusal :=
  finish s 0

/-- WR_REG (45_control.md R281): the checks in the order of 60_exceptions.md R314, then the store, then R67's
INVALIDATE_BUILD for LAT, PALCNT and PAL[i]. -/
def execWrReg (addr : BitVec 16) (data : BitVec 32) (s : State) : Host.Outcome State Fault Refusal :=
  match regAt s.params addr with
  | none => fail s .badReg
  | some r =>
    if r.writable = false then fail s .badReg
    else if ¬ s.Resting then fail s .illegalState
    else if r.invalidates then finish (storeReg s r data).invalidateBuild 0
    else finish (storeReg s r data) 0

/-- RD_REG (45_control.md R282): legal in every MODE, no side effect (10_state.md R69). -/
def execRdReg (addr : BitVec 16) (s : State) : Host.Outcome State Fault Refusal :=
  match regAt s.params addr with
  | none => fail s .badReg
  | some r => finish s (0#32 ++ readReg s r)

/-- ERR_CLEAR (45_control.md R283). -/
def execErrClear (s : State) : Host.Outcome State Fault Refusal :=
  finish { s with err := 0, ofsWrap := false } 0

/-- ABORT (45_control.md R284): MODE to IDLE and nothing else. -/
def execAbort (s : State) : Host.Outcome State Fault Refusal :=
  finish { s with mode := .idle } 0

end Sys2Proof.Machine
end

