-- ==== Sys2Proof/Machine/Quantizer.lean ====
section
/-!
DEFINITION. The palette_quantizer_lattice (43_quantizer.md): geometry, BUILD, the lookup and QUERY.
-/

namespace Sys2Proof.Machine

/-! ### Geometry -/

/-- S(i) = floor(i * 255 / (R - 1)) with R = 2^k, the colour level of lattice index i (43_quantizer.md R201). -/
def sampleLevel (k i : Nat) : BitVec 8 :=
  BitVec.ofNat 8 (i * 255 / (2 ^ k - 1))

/-- The sample points in sweep order, r outermost and b innermost (43_quantizer.md R205). The sample of cell
ri * R^2 + gi * R + bi stands at that place of the list. -/
def samples (k : Nat) : List Color :=
  (List.range (2 ^ k)).flatMap fun ri =>
    (List.range (2 ^ k)).flatMap fun gi =>
      (List.range (2 ^ k)).map fun bi => ⟨sampleLevel k ri, sampleLevel k gi, sampleLevel k bi⟩

/-- CELL(c), the cell of a colour (43_quantizer.md R202). -/
def cellOf (k : Nat) (c : Color) : Nat :=
  ((c.r.toNat >>> (8 - k)) <<< (2 * k)) ||| ((c.g.toNat >>> (8 - k)) <<< k) ||| (c.b.toNat >>> (8 - k))

/-! ### BUILD -/

/-- What SWEEP carries from sample to sample (43_quantizer.md R205): the map, the transient sums, the slots written to
cells 0, 1, 2, … so far (last first), and whether a colour found no slot. -/
structure Sweep where
  used : Nat
  slots : Vector MapSlot 16
  sums : Vector (Rgb Nat) 16
  cells : List (BitVec 4)
  overflow : Bool
deriving DecidableEq, Repr

/-- SWEEP's start: the map cleared, every sum 0. -/
def Sweep.start : Sweep :=
  { used := 0, slots := Vector.replicate 16 MapSlot.empty, sums := Vector.replicate 16 (Rgb.all 0), cells := [],
    overflow := false }

/-- "some i < USED has KEY[i] == q": the first such slot (43_quantizer.md R205, R207). -/
def slotOf (slots : Vector MapSlot 16) (used : Nat) (q : Color) : Option (Fin 16) :=
  (List.finRange 16).find? fun i => decide (i.val < used) && slots[i].key == q

/-- Count sample `c` for slot `i` and write `i` to the next cell (43_quantizer.md R205). -/
def Sweep.tally (w : Sweep) (i : Fin 16) (c : Color) : Sweep :=
  { w with
    slots := w.slots.set i { w.slots[i] with count := w.slots[i].count + 1 }
    sums := w.sums.set i (w.sums[i].zipWith (fun sum x => sum + x.toNat) c)
    cells := BitVec.ofNat 4 i.val :: w.cells }

/-- Take slot USED for the new colour `q` (43_quantizer.md R205). -/
def Sweep.allot (w : Sweep) (q : Color) (h : w.used < 16) : Sweep :=
  { w with
    slots := w.slots.set w.used { w.slots[w.used] with valid := true, key := q }
    used := w.used + 1 }

/-- One turn of SWEEP's loop, for the sample `c` (43_quantizer.md R205). `cap` is PAL_CAP; the map has no more than 16
slots in any legal configuration (00_scope.md R9). After the capacity failure nothing more is done. -/
def sweepSample (ask : Color → Color) (cap : Nat) (w : Sweep) (c : Color) : Sweep :=
  if w.overflow then w
  else
    match slotOf w.slots w.used (ask c) with
    | some i => w.tally i c
    | none =>
      if h : w.used < 16 ∧ w.used < cap then (w.allot (ask c) h.1).tally ⟨w.used, h.1⟩ c
      else { w with overflow := true }

/-- SWEEP(k) (43_quantizer.md R205). -/
def sweep (ask : Color → Color) (cap k : Nat) : Sweep :=
  (samples k).foldl (sweepSample ask cap) Sweep.start

/-- CENTROIDS: each used slot's centroid is its sum divided by its count (43_quantizer.md R206). -/
def Sweep.centroids (w : Sweep) : Vector MapSlot 16 :=
  Vector.ofFn fun i =>
    if i.val < w.used then
      { w.slots[i] with cent := w.sums[i].map fun sum => BitVec.ofNat 8 (sum / w.slots[i].count.toNat) }
    else w.slots[i]

/-- ASSERT_PALETTE's condition: every PAL[j], j < PALCNT.COUNT, is some used slot's key (43_quantizer.md R207). -/
def palettePresent (s : State) (w : Sweep) : Bool :=
  (s.pal.toList.take s.palcnt.toNat).all fun c => (slotOf w.slots w.used c).isSome

/-- BUILD (43_quantizer.md R204). Its failures leave BUILT = 0, the map clear and the cells written so far
(R208). -/
def execBuild (s : State) : Host.Outcome State Fault Refusal :=
  if ¬ s.Resting then fail s .illegalState
  else
    let s := s.invalidateBuild
    let k := s.latLog2.toNat
    if k < 1 ∨ s.params.latLog2Max < k then fail s .cfgLattice
    else if s.params.palCap < s.palcnt.toNat then fail s .cfgPalCapacity
    else
      let w := sweep s.ask s.params.palCap k
      let s := { s with cube := s.cube.writeRun 0 w.cells.reverse }
      if w.overflow then fail s .cfgPalCapacity
      else if palettePresent s w = false then fail s .cfgPalMiss
      else finish { s with used := BitVec.ofNat 5 w.used, slots := w.centroids, built := true } 0

/-! ### Lookup -/

/-- The map slot of a colour's cell (43_quantizer.md R209, R210). -/
def State.slotFor (s : State) (c : Color) : MapSlot :=
  s.slots[(s.cubeRead (cellOf s.latLog2.toNat c)).toNat]

/-- LOOKUP(c) (43_quantizer.md R209). -/
def State.lookup (s : State) (c : Color) : Color :=
  (s.slotFor c).key

/-- WITH_ERROR(c): the palette colour, and the error measured from its centroid (43_quantizer.md R210). -/
def State.withError (s : State) (c : Color) : Color × Err :=
  ((s.slotFor c).key, errOfAcc (accSub (accFrom c) (accFrom (s.slotFor c).cent)))

/-- The response data of QUERY (30_encoding.md R112). -/
def packQuery (p : Color) (e : Err) : BitVec 64 :=
  packColor p ++ 0#4 ++ e.r.signExtend 12 ++ e.g.signExtend 12 ++ e.b.signExtend 12

/-- QUERY (43_quantizer.md R211): legal in every MODE. -/
def execQuery (c : Color) (s : State) : Host.Outcome State Fault Refusal :=
  if s.built = false then fail s .notBuilt
  else finish s (packQuery (s.withError c).1 (s.withError c).2)

end Sys2Proof.Machine
end

