-- ==== Sys2Proof/Machine/Ring.lean ====
section
/-!
DEFINITION. The host's ring commands (42_ring_fifo.md R176-R181). Each is legal only in IDLE and DONE, and that check
comes before any other (R176).
-/

namespace Sys2Proof.Machine

/-- WIDTH is one the ring can be sized to: 1 ≤ WIDTH ≤ WMAX (10_state.md R53). -/
abbrev State.WidthLegal (s : State) : Prop :=
  1 ≤ s.width.toNat ∧ s.width.toNat ≤ s.params.wmax

/-- N <- WIDTH, CURSOR <- 0 and slots 0..N filled with DEFAULT (42_ring_fifo.md R177, 44_engine.md R243). -/
def State.sizeRing (s : State) : State :=
  { s with ringN := s.width, cursor := 0 }.ringFill s.width.toNat (accFrom s.defaultColor)

/-- RING_RESET (42_ring_fifo.md R177). -/
def execRingReset (s : State) : Host.Outcome State Fault Refusal :=
  if ¬ s.Resting then fail s .illegalState
  else if ¬ s.WidthLegal then fail s .cfgWidth
  else finish s.sizeRing 0

/-- The response data of RING_RD (30_encoding.md R112). -/
def packAcc (a : Acc) : BitVec 64 :=
  0#16 ++ a.r ++ a.g ++ a.b

/-- RING_RD (42_ring_fifo.md R178). -/
def execRingRd (off : BitVec 16) (s : State) : Host.Outcome State Fault Refusal :=
  if ¬ s.Resting then fail s .illegalState
  else
    let index := s.ringIndex off
    let read := index.2.ringRead index.1
    finish read.2 (packAcc read.1)

/-- RING_LD (42_ring_fifo.md R179). -/
def execRingLd (off : BitVec 16) (c : Color) (s : State) : Host.Outcome State Fault Refusal :=
  if ¬ s.Resting then fail s .illegalState
  else
    let index := s.ringIndex off
    finish (index.2.ringWrite index.1 (accFrom c)) 0

/-- RING_WRC (42_ring_fifo.md R180). No word decodes to channel 3; given as a term, it fails as R102 says of the word
(assumption log 14). -/
def execRingWrc (off : BitVec 16) (ch : BitVec 2) (val : BitVec 16) (s : State) :
    Host.Outcome State Fault Refusal :=
  if ch = 3 then fail s .badFormat
  else if ¬ s.Resting then fail s .illegalState
  else
    let index := s.ringIndex off
    finish (index.2.ringWriteChannel index.1 ch.toNat val) 0

/-- RING_PUSH (42_ring_fifo.md R181). -/
def execRingPush (c : Color) (s : State) : Host.Outcome State Fault Refusal :=
  if ¬ s.Resting then fail s .illegalState
  else finish (s.ringPush (accFrom c)) 0

end Sys2Proof.Machine
end

