-- ==== Sys2Proof/Machine/Engine.lean ====
section
/-!
DEFINITION. The error_diffusion_engine (44_engine.md): the effective kernel, START, the diffusion step, PIXEL, END.
-/

namespace Sys2Proof.Machine

/-- EFFECTIVE_KERNEL() (44_engine.md R241): the Floyd-Steinberg terms built from WIDTH, or the first KCOUNT custom
terms. -/
def State.effectiveKernel (s : State) : List (Int × BitVec 8) :=
  if s.kmode = false then
    [(1, 7), ((s.width.toNat : Int) - 1, 3), ((s.width.toNat : Int), 5), ((s.width.toNat : Int) + 1, 1)]
  else (s.kernel.toList.take s.kcount.toNat).map fun t => (t.offset.toInt, t.num)

/-- Every offset lies in the valid window 0..WIDTH+1 (44_engine.md R242). -/
abbrev State.KernelInWindow (s : State) : Prop :=
  ∀ t ∈ s.effectiveKernel, 0 ≤ t.1 ∧ t.1 ≤ (s.width.toNat : Int) + 1

/-- KACT[0..length(K)-1] <- K; the entries above keep what they hold (44_engine.md R243). -/
def latchKernel (old : Vector KernelTerm 8) (terms : List (Int × BitVec 8)) : Vector KernelTerm 8 :=
  Vector.ofFn fun i =>
    match terms[i.val]? with
    | some (off, num) => { off := off.toNat, num := num }
    | none => old[i]

/-- START (44_engine.md R243), the checks in the order of 60_exceptions.md R314. -/
def execStart (s : State) : Host.Outcome State Fault Refusal :=
  if ¬ s.Resting then fail s .illegalState
  else if ¬ s.WidthLegal then fail s .cfgWidth
  else if s.kmode = true ∧ s.params.kmax < s.kcount.toNat then fail s .cfgKernel
  else if ¬ s.KernelInWindow then fail s .cfgKernel
  else if s.built = false then fail s .notBuilt
  else
    finish
      { s.sizeRing with
        fill := 0
        kactLen := BitVec.ofNat 4 s.effectiveKernel.length
        kact := latchKernel s.kact s.effectiveKernel
        inCount := 0
        outCount := 0
        shortPrime := false
        mode := .filling } 0

/-- The active terms, in kernel order (44_engine.md R247). -/
def State.activeTerms (s : State) : List KernelTerm :=
  s.kact.toList.take s.kactLen.toNat

/-- One kernel term of STEP: the head's physical slot is `h` and its error `e`. A term with offset 0 is skipped
(44_engine.md R246, R247). -/
def diffuseTerm (h : Nat) (e : Err) (s : State) (t : KernelTerm) : State :=
  if t.off = 0 then s else s.ringAddTo ((h + t.off) % s.ringLen) (term e t.num)

/-- STEP(x) (44_engine.md R246): quantise the head, refill the evicted slot with x, diffuse, advance, emit. -/
def stepPixel (x : Color) (s : State) : State :=
  let h := s.cursor.toNat
  let head := s.ringRead h
  let quantised := head.2.withError (narrow head.1)
  let pushed := head.2.ringWrite h (accFrom x)
  let spread := pushed.activeTerms.foldl (diffuseTerm h quantised.2) pushed
  { spread.advance.emit quantised.1 with outCount := spread.outCount + 1 }

/-- `repeat n times: STEP(x)` (44_engine.md R248). -/
def stepTimes (x : Color) : Nat → State → State
  | 0, s => s
  | n + 1, s => stepTimes x n (stepPixel x s)

/-- PIXEL in FILLING: the next ring slot takes the pixel; the one that fills slot N ends the priming (44_engine.md
R244). -/
def primePixel (x : Color) (s : State) : State :=
  { s.ringWrite s.fill.toNat (accFrom x) with
    fill := s.fill + 1
    inCount := s.inCount + 1
    mode := if s.fill.toNat + 1 = s.ringLen then .streaming else .filling }

/-- PIXEL (44_engine.md R244). -/
def execPixel (x : Color) (s : State) : Host.Outcome State Fault Refusal :=
  match s.mode with
  | .filling => finish (primePixel x s) 0
  | .streaming => finish (stepPixel x { s with inCount := s.inCount + 1 }) 0
  | .idle => fail s .illegalState
  | .draining => fail s .illegalState
  | .done => fail s .illegalState

/-- END's drain: `remaining` steps with DEFAULT between DRAINING and DONE (44_engine.md R248). -/
def drain (remaining : Nat) (s : State) : State :=
  { stepTimes s.defaultColor remaining { s with mode := .draining } with mode := .done }

/-- END (44_engine.md R248). -/
def execEndImage (s : State) : Host.Outcome State Fault Refusal :=
  match s.mode with
  | .filling => finish (drain s.fill.toNat { s with shortPrime := true }) 0
  | .streaming => finish (drain s.ringLen s) 0
  | .idle => fail s .illegalState
  | .draining => fail s .illegalState
  | .done => fail s .illegalState

end Sys2Proof.Machine
end

