-- ==== Sys2Proof/Machine/Dispatch.lean ====
section
/-!
DEFINITION. One arm per command (30_encoding.md R111), each one call of its meaning.
-/

namespace Sys2Proof.Machine

/-- What a decoded command does. -/
def exec (i : Instr) (s : State) : Host.Outcome State Fault Refusal :=
  match i with
  | .nop => Sys2Proof.Machine.execNop s
  | .wrReg addr data => Sys2Proof.Machine.execWrReg addr data s
  | .rdReg addr => Sys2Proof.Machine.execRdReg addr s
  | .errClear => Sys2Proof.Machine.execErrClear s
  | .abort => Sys2Proof.Machine.execAbort s
  | .build => Sys2Proof.Machine.execBuild s
  | .query c => Sys2Proof.Machine.execQuery c s
  | .start => Sys2Proof.Machine.execStart s
  | .pixel x => Sys2Proof.Machine.execPixel x s
  | .endImage => Sys2Proof.Machine.execEndImage s
  | .ringReset => Sys2Proof.Machine.execRingReset s
  | .ringRd off => Sys2Proof.Machine.execRingRd off s
  | .ringLd off c => Sys2Proof.Machine.execRingLd off c s
  | .ringWrc off ch val => Sys2Proof.Machine.execRingWrc off ch val s
  | .ringPush c => Sys2Proof.Machine.execRingPush c s

end Sys2Proof.Machine
end

