-- ==== Sys2Proof/Machine/Step.lean ====
section
/-!
DEFINITION. One step: one input of the host, executed atomically (00_scope.md R3, 20_memory.md R89).
-/

namespace Sys2Proof.Machine

/-- One step. A word that does not decode fails (30_encoding.md R102); reset resets (70_reset_and_hazards.md R340);
with nothing to deliver the block holds its state (60_exceptions.md R324, assumption log 4). -/
def step (s : State) : Host.Outcome State Fault Refusal :=
  match fetch s with
  | .quiet => .next s
  | .reset s => .next (resetBlock s)
  | .command w s =>
    match decode w with
    | .badOpcode => fail s .badOpcode
    | .badFormat => fail s .badFormat
    | .command i => exec i s

/-- The state in which the host delivers, as its very next input, the command whose low `nbits` bits are `w` and whose
other bits are 0 (assumption log 3). -/
def State.withFetchWord (s : State) (nbits w : Nat) : State :=
  { s with inputs := .command (BitVec.ofNat 64 (w % 2 ^ nbits)) :: s.inputs }

end Sys2Proof.Machine
end

