-- ==== Sys2Proof/Safety.lean ====
section
/-!
DEFINITION. What counts as a safe state: the predicates the statements about the machine use. Every predicate is about
one state; none mentions a run.
-/

namespace Sys2Proof.Machine

/-- Physical ring slot `j` has been written whole and holds `a` (10_state.md R38). -/
abbrev State.SlotHolds (s : State) (j : Nat) (a : Acc) : Prop :=
  s.ringRam.read? (ringKey j 0) = some a.r ∧ s.ringRam.read? (ringKey j 1) = some a.g ∧
    s.ringRam.read? (ringKey j 2) = some a.b

/-- The live slots 0..N hold the accumulators `f 0`, …, `f N`. -/
def State.RingIs (s : State) (f : Nat → Acc) : Prop :=
  ∀ j, j ≤ s.ringN.toNat → s.SlotHolds j (f j)

/-- A ring seen as a function of the physical slot, with slot `j` replaced. -/
def putSlot (f : Nat → Acc) (j : Nat) (a : Acc) : Nat → Acc :=
  fun i => if i = j then a else f i

/-- STEP's diffusion on a ring of `len` slots seen as a function (44_engine.md R246, R247): every term with a non-zero
offset adds its share of the error `e` into the slot `off` places after the head slot `h`, in kernel order. -/
def diffused (len h : Nat) (e : Err) (terms : List KernelTerm) (f : Nat → Acc) : Nat → Acc :=
  terms.foldl (fun f t =>
    if t.off = 0 then f
    else putSlot f ((h + t.off) % len) (accAdd (f ((h + t.off) % len)) (term e t.num))) f

/-- The distinct colours of a list, in the order they first appear: the keys of a map filled in first-seen order
(20_memory.md R87). -/
def firstSeen (qs : List Color) : List Color :=
  qs.foldl (fun seen q => if q ∈ seen then seen else seen ++ [q]) []

/-- The samples that the membership function `ask` maps to the palette colour `q`. -/
def samplesOf (ask : Color → Color) (cs : List Color) (q : Color) : List Color :=
  cs.filter fun c => ask c = q

/-- The exact channel sums of some colours (43_quantizer.md R205). -/
def levelSums (cs : List Color) : Rgb Nat :=
  ⟨(cs.map fun c => c.r.toNat).sum, (cs.map fun c => c.g.toNat).sum, (cs.map fun c => c.b.toNat).sum⟩

/-- A palette entry as the source defines it (43_quantizer.md R203): a palette colour, the average of the samples that
map to it, rounded down, and their number. -/
def paletteEntry (ask : Color → Color) (cs : List Color) (q : Color) : MapSlot where
  valid := true
  key := q
  cent := (levelSums (samplesOf ask cs q)).map fun sum => BitVec.ofNat 8 (sum / (samplesOf ask cs q).length)
  count := BitVec.ofNat 25 (samplesOf ask cs q).length

/-- The keys BUILD finds with the membership function `ask` at lattice exponent `k`, in slot order. -/
def buildKeys (ask : Color → Color) (k : Nat) : List Color :=
  firstSeen ((samples k).map ask)

/-- The memories, the ring pointers and the ranges the spec gives them: both memories in canonical form and inside
their address range, N at most WMAX, CURSOR in 0..N (10_state.md R38), FILL at most N in FILLING (44_engine.md R244), ERR one of the codes 0..10 (60_exceptions.md
R311), KACT_LEN at most KMAX (10_state.md R39), and MODE not DRAINING between commands (10_state.md R33). -/
structure State.StoreInv (s : State) : Prop where
  legal : s.params.Legal
  ringWf : s.ringRam.wf
  ringBelow : s.ringRam.Below (3 * (s.params.wmax + 1))
  cubeWf : s.cube.wf
  cubeBelow : s.cube.Below (2 ^ (3 * s.params.latLog2Max))
  capacity : s.ringN.toNat ≤ s.params.wmax
  cursorLe : s.cursor.toNat ≤ s.ringN.toNat
  fillLe : s.mode = .filling → s.fill.toNat ≤ s.ringN.toNat
  errLe : s.err.toNat ≤ 10
  kactLe : s.kactLen.toNat ≤ s.params.kmax
  notDraining : s.mode ≠ .draining

/-- The palette map and the lattice: USED at most PAL_CAP, the valid slots are exactly 0..USED-1 (10_state.md R40), the
others are clear, used keys are distinct and used counts positive; BUILT = 0 means a clear map (43_quantizer.md R208,
10_state.md R67); BUILT = 1 means a legal LAT and every cell 0..2^(3k)-1 written with a used slot (43_quantizer.md
R213). -/
structure State.MapInv (s : State) : Prop where
  legal : s.params.Legal
  usedLe : s.used.toNat ≤ s.params.palCap
  validIff : ∀ i : Fin 16, s.slots[i].valid = true ↔ i.val < s.used.toNat
  clearAbove : ∀ i : Fin 16, s.used.toNat ≤ i.val → s.slots[i] = MapSlot.empty
  keysDistinct : ∀ i j : Fin 16, i.val < s.used.toNat → j.val < s.used.toNat → s.slots[i].key = s.slots[j].key → i = j
  countPos : ∀ i : Fin 16, i.val < s.used.toNat → s.slots[i].count ≠ 0
  unbuiltClear : s.built = false → s.used = 0
  builtLattice : s.built = true → 1 ≤ s.latLog2.toNat ∧ s.latLog2.toNat ≤ s.params.latLog2Max
  builtCells : s.built = true → ∀ idx, idx < 2 ^ (3 * s.latLog2.toNat) →
    ∃ v, s.cube.read? idx = some v ∧ v.toNat < s.used.toNat

/-- A running image: the quantiser is built, the ring is sized to WIDTH and wholly written, every active kernel term
lies in the window 0..N+1 (44_engine.md R242), and FILL and the counters agree with MODE: in FILLING, CURSOR = 0, FILL
pixels have come and none has left; in STREAMING, N+1 pixels are held; in DONE, as many have left as came
(44_engine.md R249). -/
structure State.RunInv (s : State) : Prop where
  legal : s.params.Legal
  notDraining : s.mode ≠ .draining
  built : s.Running → s.built = true
  sized : s.Running → s.ringN = s.width ∧ 1 ≤ s.ringN.toNat ∧ s.ringN.toNat ≤ s.params.wmax
  cursorLe : s.Running → s.cursor.toNat ≤ s.ringN.toNat
  written : s.Running → ∃ f, s.RingIs f
  window : s.Running → ∀ t ∈ s.activeTerms, t.off ≤ s.ringLen
  filling : s.mode = .filling → s.cursor = 0 ∧ s.fill.toNat ≤ s.ringN.toNat ∧ s.outCount = 0 ∧
    s.inCount = s.fill.setWidth 32
  streaming : s.mode = .streaming → s.inCount = s.outCount + BitVec.ofNat 32 s.ringLen
  done : s.mode = .done → s.inCount = s.outCount

/-- How many active terms reach further than logical offset `d`: the terms that the pixel now at offset `d` can have
received (41_accumulator.md R149). -/
def State.termsBeyond (s : State) (d : Nat) : Nat :=
  s.activeTerms.countP fun t => decide (d < t.off)

/-- A channel lies within what a pixel and `m` kernel terms can add up to: each term adds a value in -4065..4064
(41_accumulator.md R146, R149). -/
def WithinTerms (m : Nat) (x : BitVec 16) : Prop :=
  -4065 * (m : Int) ≤ x.toInt ∧ x.toInt ≤ 255 + 4064 * (m : Int)

/-- While an image runs, the pixel at every logical offset has received at most the terms that reach beyond it, so no
channel has saturated (41_accumulator.md R149). -/
def State.AccInv (s : State) : Prop :=
  s.Running → ∀ d, d ≤ s.ringN.toNat → ∀ a, s.SlotHolds (s.phys d) a →
    a.Each (WithinTerms (s.termsBeyond d))

end Sys2Proof.Machine
end

