-- ==== Sys2Proof/Certificates/Slice0/Obligations.lean ====
section
/-!
DEFINITION. The statements for the provers, from the numbered rules of spec/. The vocabulary they share stands first; it
says things in the rules' own terms (numbers of error codes, addresses, ring slots as functions) and not by the model's
operations, but for the address and arithmetic functions a meaning uses itself.
-/

namespace Sys2Proof.Machine

/-- `s` after a command that succeeded with response data `d` (30_encoding.md R101). -/
def answered (s : State) (d : BitVec 64) : State :=
  { s with response := some ⟨0, d⟩ }

/-- `s` after a command that failed with code `n` and had no other effect (60_exceptions.md R312): ERR takes the code
where it was 0, and the response is the code with data 0. -/
def failedWith (s : State) (n : BitVec 8) : State :=
  { s with err := if s.err = 0 then n else s.err, response := some ⟨n, 0⟩ }

/-- `s` with BUILT = 0 and the map clear (10_state.md R67, 43_quantizer.md R208). -/
def unbuilt (s : State) : State :=
  { s with
    built := false
    used := 0
    slots := Vector.replicate 16 { valid := false, key := ⟨0, 0, 0⟩, cent := ⟨0, 0, 0⟩, count := 0 } }

/-- The opcode map as spec/opcode_table.json gives it: opcode, ZeroMask (30_encoding.md R103-R108, R111) and the
operands of R109. -/
def specTable : List (BitVec 8 × BitVec 64 × (BitVec 64 → Instr)) :=
  [(0x00#8, 0x00FFFFFFFFFFFFFF#64, fun _ => .nop),
   (0x01#8, 0x00FF000000000000#64, fun w => .wrReg (w.extractLsb' 32 16) (w.extractLsb' 0 32)),
   (0x02#8, 0x00FF0000FFFFFFFF#64, fun w => .rdReg (w.extractLsb' 32 16)),
   (0x03#8, 0x00FFFFFFFFFFFFFF#64, fun _ => .errClear),
   (0x04#8, 0x00FFFFFFFFFFFFFF#64, fun _ => .abort),
   (0x10#8, 0x00FFFFFFFFFFFFFF#64, fun _ => .build),
   (0x11#8, 0x00FFFFFFFF000000#64, fun w => .query ⟨w.extractLsb' 16 8, w.extractLsb' 8 8, w.extractLsb' 0 8⟩),
   (0x20#8, 0x00FFFFFFFFFFFFFF#64, fun _ => .start),
   (0x21#8, 0x00FFFFFFFF000000#64, fun w => .pixel ⟨w.extractLsb' 16 8, w.extractLsb' 8 8, w.extractLsb' 0 8⟩),
   (0x22#8, 0x00FFFFFFFFFFFFFF#64, fun _ => .endImage),
   (0x30#8, 0x00FFFFFFFFFFFFFF#64, fun _ => .ringReset),
   (0x31#8, 0x00FFFFFFFFFF0000#64, fun w => .ringRd (w.extractLsb' 0 16)),
   (0x32#8, 0x00FF000000FF0000#64,
    fun w => .ringLd (w.extractLsb' 0 16) ⟨w.extractLsb' 40 8, w.extractLsb' 32 8, w.extractLsb' 24 8⟩),
   (0x33#8, 0x00FC0000FFFF0000#64,
    fun w => .ringWrc (w.extractLsb' 0 16) (w.extractLsb' 48 2) (w.extractLsb' 32 16)),
   (0x34#8, 0x00FFFFFFFF000000#64, fun w => .ringPush ⟨w.extractLsb' 16 8, w.extractLsb' 8 8, w.extractLsb' 0 8⟩)]

/-- Every state item at its reset value (70_reset_and_hazards.md R340). The ring's and the lattice's contents are
unspecified after reset (10_state.md R38, R41): nothing counts as written. -/
def AtReset (t : State) : Prop :=
  t.mode = .idle ∧ t.err = 0 ∧ t.built = false ∧ t.shortPrime = false ∧ t.ofsWrap = false ∧ t.width = 0 ∧
    t.latLog2 = 0 ∧ t.defaultColor = ⟨0, 0, 0⟩ ∧ t.kmode = false ∧ t.kcount = 0 ∧ t.palcnt = 0 ∧
    (∀ i : Fin 8, t.kernel[i] = { offset := 0, num := 0 }) ∧ (∀ i : Fin 16, t.pal[i] = ⟨0, 0, 0⟩) ∧
    (∀ a, t.ringRam.read? a = none) ∧ t.ringN = 0 ∧ t.cursor = 0 ∧ t.fill = 0 ∧ t.kactLen = 0 ∧
    (∀ i : Fin 8, t.kact[i] = { off := 0, num := 0 }) ∧ t.used = 0 ∧
    (∀ i : Fin 16, t.slots[i] = { valid := false, key := ⟨0, 0, 0⟩, cent := ⟨0, 0, 0⟩, count := 0 }) ∧
    (∀ a, t.cube.read? a = none) ∧ t.inCount = 0 ∧ t.outCount = 0 ∧ t.out = []

/-- The read-write addresses of 10_state.md R50. -/
def IsReadWrite (p : Params) (a : Nat) : Prop :=
  (0x002 ≤ a ∧ a ≤ 0x006) ∨ (0x010 ≤ a ∧ a < 0x010 + p.kmax) ∨ (0x020 ≤ a ∧ a < 0x020 + p.palCap)

/-- The read-only addresses of 10_state.md R50. -/
def IsReadOnly (p : Params) (a : Nat) : Prop :=
  a ≤ 0x001 ∨ (0x007 ≤ a ∧ a ≤ 0x00A) ∨ (0x040 ≤ a ∧ a < 0x040 + p.palCap) ∨
    (0x050 ≤ a ∧ a < 0x050 + p.palCap) ∨ (0x060 ≤ a ∧ a < 0x060 + p.palCap)

/-- The bits of the defined fields of a read-write register (10_state.md R53-R57, R62, R63). -/
def fieldMask (a : Nat) : BitVec 32 :=
  if a = 0x002 then 0x0000FFFF
  else if a = 0x003 then 0x0000000F
  else if a = 0x004 then 0x00FFFFFF
  else if a = 0x005 then 0x00000F01
  else if a = 0x006 then 0x0000001F
  else if a < 0x020 then 0xFFFFFFFF
  else 0x00FFFFFF

/-- `t` is `s` after the store of `d` in the read-write register at address `a`: the table of 45_control.md R281, and
10_state.md R67 for LAT, PALCNT and PAL[i]. -/
def StoredAs (s : State) (a : BitVec 16) (d : BitVec 32) (t : State) : Prop :=
  (a = 0x002 ∧ t = { s with width := d.extractLsb' 0 16 }) ∨
  (a = 0x003 ∧ t = unbuilt { s with latLog2 := d.extractLsb' 0 4 }) ∨
  (a = 0x004 ∧ t = { s with defaultColor := ⟨d.extractLsb' 16 8, d.extractLsb' 8 8, d.extractLsb' 0 8⟩ }) ∨
  (a = 0x005 ∧ t = { s with kmode := d.getLsbD 0, kcount := d.extractLsb' 8 4 }) ∨
  (a = 0x006 ∧ t = unbuilt { s with palcnt := d.extractLsb' 0 5 }) ∨
  (∃ i : Fin 8, i.val < s.params.kmax ∧ a = BitVec.ofNat 16 (0x010 + i.val) ∧
    t = { s with kernel := s.kernel.set i { offset := d.extractLsb' 0 24, num := d.extractLsb' 24 8 } }) ∨
  (∃ i : Fin 16, i.val < s.params.palCap ∧ a = BitVec.ofNat 16 (0x020 + i.val) ∧
    t = unbuilt { s with pal := s.pal.set i ⟨d.extractLsb' 16 8, d.extractLsb' 8 8, d.extractLsb' 0 8⟩ })

/-- `v` is what the register at address `a` reads (10_state.md R51-R66). -/
def ShownAt (s : State) (a : BitVec 16) (v : BitVec 32) : Prop :=
  (a = 0x000 ∧ v = 0#3 ++ BitVec.ofNat 4 s.params.kmax ++ BitVec.ofNat 5 s.params.palCap ++
    BitVec.ofNat 4 s.params.latLog2Max ++ BitVec.ofNat 16 s.params.wmax) ∨
  (a = 0x001 ∧ v = 0#16 ++ s.err ++ 0#2 ++ BitVec.ofBool s.ofsWrap ++ BitVec.ofBool s.shortPrime ++
    BitVec.ofBool s.built ++ (match s.mode with
      | .idle => 0#3
      | .filling => 1#3
      | .streaming => 2#3
      | .draining => 3#3
      | .done => 4#3)) ∨
  (a = 0x002 ∧ v = 0#16 ++ s.width) ∨
  (a = 0x003 ∧ v = 0#28 ++ s.latLog2) ∨
  (a = 0x004 ∧ v = 0#8 ++ s.defaultColor.r ++ s.defaultColor.g ++ s.defaultColor.b) ∨
  (a = 0x005 ∧ v = 0#20 ++ s.kcount ++ 0#7 ++ BitVec.ofBool s.kmode) ∨
  (a = 0x006 ∧ v = 0#27 ++ s.palcnt) ∨
  (a = 0x007 ∧ v = s.inCount) ∨
  (a = 0x008 ∧ v = s.outCount) ∨
  (a = 0x009 ∧ v = s.cursor ++ s.ringN) ∨
  (a = 0x00A ∧ v = 0#27 ++ s.used) ∨
  (∃ i : Fin 8, i.val < s.params.kmax ∧ a = BitVec.ofNat 16 (0x010 + i.val) ∧
    v = s.kernel[i].num ++ s.kernel[i].offset) ∨
  (∃ i : Fin 16, i.val < s.params.palCap ∧ a = BitVec.ofNat 16 (0x020 + i.val) ∧
    v = 0#8 ++ s.pal[i].r ++ s.pal[i].g ++ s.pal[i].b) ∨
  (∃ i : Fin 16, i.val < s.params.palCap ∧ a = BitVec.ofNat 16 (0x040 + i.val) ∧
    v = if s.slots[i].valid then 1#1 ++ 0#7 ++ s.slots[i].key.r ++ s.slots[i].key.g ++ s.slots[i].key.b else 0#32) ∨
  (∃ i : Fin 16, i.val < s.params.palCap ∧ a = BitVec.ofNat 16 (0x050 + i.val) ∧
    v = if s.slots[i].valid then 0#8 ++ s.slots[i].cent.r ++ s.slots[i].cent.g ++ s.slots[i].cent.b else 0#32) ∨
  (∃ i : Fin 16, i.val < s.params.palCap ∧ a = BitVec.ofNat 16 (0x060 + i.val) ∧
    v = if s.slots[i].valid then 0#7 ++ s.slots[i].count else 0#32)

/-- The ring RAM `m` is `old` with slots 0..n holding the colour `c` (42_ring_fifo.md R177, 44_engine.md R243). -/
def FilledWith (m old : Memory 16) (n : Nat) (c : Color) : Prop :=
  ∀ key, m.read? key =
    if key < 3 * (n + 1) then
      some (if key % 3 = 0 then c.r.setWidth 16 else if key % 3 = 1 then c.g.setWidth 16 else c.b.setWidth 16)
    else old.read? key

/-- The ring RAM `m` is `old` with slot `j` holding the colour `c` and every other slot as before. -/
def LoadedWith (m old : Memory 16) (j : Nat) (c : Color) : Prop :=
  ∀ key, m.read? key =
    if key = 3 * j then some (c.r.setWidth 16)
    else if key = 3 * j + 1 then some (c.g.setWidth 16)
    else if key = 3 * j + 2 then some (c.b.setWidth 16)
    else old.read? key

/-- The latch of the Floyd-Steinberg kernel of width `w` over `old` (44_engine.md R241). -/
def LatchedFloydSteinberg (k old : Vector KernelTerm 8) (w : Nat) : Prop :=
  k[0] = { off := 1, num := 7 } ∧ k[1] = { off := w - 1, num := 3 } ∧ k[2] = { off := w, num := 5 } ∧
    k[3] = { off := w + 1, num := 1 } ∧ ∀ i : Fin 8, 4 ≤ i.val → k[i] = old[i]

/-- The latch of the first `n` KERNEL registers over `old` (44_engine.md R241). -/
def LatchedCustom (k old : Vector KernelTerm 8) (regs : Vector KernelReg 8) (n : Nat) : Prop :=
  ∀ i : Fin 8, k[i] = if i.val < n then { off := regs[i].offset.toInt.toNat, num := regs[i].num } else old[i]

/-- `s` after START succeeded with the given ring RAM and kernel latch (44_engine.md R243). -/
def started (s : State) (m : Memory 16) (len : BitVec 4) (k : Vector KernelTerm 8) : State :=
  { s with
    mode := .filling, ringN := s.width, cursor := 0, fill := 0, ringRam := m, kactLen := len, kact := k, inCount := 0,
    outCount := 0, shortPrime := false }

/-- Some effective kernel term lies outside the window 0..WIDTH+1 (44_engine.md R242). Only a custom one can. -/
def KernelOutsideWindow (s : State) : Prop :=
  s.kmode = true ∧ ∃ i : Fin 8, i.val < s.kcount.toNat ∧
    ¬ (0 ≤ s.kernel[i].offset.toInt ∧ s.kernel[i].offset.toInt ≤ (s.width.toNat : Int) + 1)

/-- The custom kernel is longer than KMAX (44_engine.md R242). -/
def KernelTooLong (s : State) : Prop :=
  s.kmode = true ∧ s.params.kmax < s.kcount.toNat

/-- The ring as a step of the engine sees it: the slots as a function, CURSOR, and the colours emitted so far. -/
structure RingView where
  content : Nat → Acc
  cursor : Nat
  emitted : List Color

/-- STEP(x) on that view (44_engine.md R246), with the quantiser, the kernel and the ring size of `s`. -/
def ringStep (s : State) (x : Color) (v : RingView) : RingView where
  content := diffused s.ringLen v.cursor (s.withError (narrow (v.content v.cursor))).2 s.activeTerms
    (putSlot v.content v.cursor (accFrom x))
  cursor := (v.cursor + 1) % s.ringLen
  emitted := v.emitted ++ [(s.withError (narrow (v.content v.cursor))).1]

/-- The slots 0..n of a ring RAM hold what a function says. -/
def RamIs (m : Memory 16) (n : Nat) (f : Nat → Acc) : Prop :=
  ∀ j, j ≤ n → m.read? (3 * j) = some (f j).r ∧ m.read? (3 * j + 1) = some (f j).g ∧ m.read? (3 * j + 2) = some (f j).b

/-- One error channel times a numerator over 16, rounded toward minus infinity (41_accumulator.md R146). -/
def floorTerm (e : Int) (num : BitVec 8) : Int :=
  Int.fdiv (e * num.toNat) 16

/-- STEP's diffusion in exact integers: no saturation anywhere. -/
def exactDiffused (len h : Nat) (e : Err) (terms : List KernelTerm) (g : Nat → Rgb Int) : Nat → Rgb Int :=
  terms.foldl (fun g t =>
    if t.off = 0 then g
    else fun i =>
      if i = (h + t.off) % len then
        ⟨(g i).r + floorTerm e.r.toInt t.num, (g i).g + floorTerm e.g.toInt t.num, (g i).b + floorTerm e.b.toInt t.num⟩
      else g i) g

/-- A channel's truncation loss (41_accumulator.md R150), `share num` being what a term of numerator `num` adds for the
error `e`: less than 1 for each term, and for numerators that sum to 16 less than 1 for each of them in all. -/
def TruncatesChannel (e : Int) (share : BitVec 8 → Int) : Prop :=
  (∀ num : BitVec 8, 16 * share num ≤ e * num.toNat ∧ e * num.toNat < 16 * share num + 16) ∧
  ∀ nums : List (BitVec 8), (nums.map BitVec.toNat).sum = 16 →
    (nums.map share).sum ≤ e ∧ e - nums.length < (nums.map share).sum

/-- The colour that three exact channels narrow to (41_accumulator.md R147). -/
def narrowExact (v : Rgb Int) : Color :=
  v.map fun x => BitVec.ofInt 8 (min 255 (max 0 x))

/-- `RingView` with exact integers in the slots. -/
structure ExactView where
  content : Nat → Rgb Int
  cursor : Nat
  emitted : List Color

/-- STEP(x) on exact integers (44_engine.md R246): `ringStep` with no saturation anywhere. -/
def exactStep (s : State) (x : Color) (v : ExactView) : ExactView where
  content := exactDiffused s.ringLen v.cursor (s.withError (narrowExact (v.content v.cursor))).2 s.activeTerms
    (fun i => if i = v.cursor then x.map (fun c => (c.toNat : Int)) else v.content i)
  cursor := (v.cursor + 1) % s.ringLen
  emitted := v.emitted ++ [(s.withError (narrowExact (v.content v.cursor))).1]

/-- The two states agree on all that the colours to come depend on (44_engine.md R253): MODE, the ring `f` with its
pointers, the kernel latch, DEFAULT, and the quantiser as a function. -/
def SameEngine (s u : State) (f : Nat → Acc) : Prop :=
  s.mode = u.mode ∧ s.RingIs f ∧ u.RingIs f ∧ s.ringN = u.ringN ∧ s.cursor = u.cursor ∧ s.fill = u.fill ∧
    s.cursor.toNat ≤ s.ringN.toNat ∧ s.activeTerms = u.activeTerms ∧ s.defaultColor = u.defaultColor ∧
    ∀ c, s.withError c = u.withError c

/-- The sample point of a colour's cell (43_quantizer.md R201, R202). -/
def samplePoint (k : Nat) (c : Color) : Color :=
  let level := fun x : BitVec 8 => BitVec.ofNat 8 ((x.toNat >>> (8 - k)) * 255 / (2 ^ k - 1))
  ⟨level c.r, level c.g, level c.b⟩

/-- The logical ring offset a host command names (42_ring_fifo.md R175). -/
def namedOffset : Instr → Option (BitVec 16)
  | .nop => none
  | .wrReg _ _ => none
  | .rdReg _ => none
  | .errClear => none
  | .abort => none
  | .build => none
  | .query _ => none
  | .start => none
  | .pixel _ => none
  | .endImage => none
  | .ringReset => none
  | .ringRd off => some off
  | .ringLd off _ => some off
  | .ringWrc off _ _ => some off
  | .ringPush _ => none

/-- The ring RAM changes in slot `j` at most. -/
def OnlySlot (j : Nat) (s t : State) : Prop :=
  ∀ key, key / 3 ≠ j → t.ringRam.read? key = s.ringRam.read? key

/-- The ring RAM changes in the slots 0..N at most, N as the command leaves it. -/
def OnlyLiveSlots (s t : State) : Prop :=
  ∀ key, t.ringN.toNat < key / 3 → t.ringRam.read? key = s.ringRam.read? key

/-- R44's rows: `t` agrees with `s` outside what the command may write. `response` is the command's answer, and `draws`
(assumption log 6) counts the values read from never-written ring slots; both are the model's own. -/
def WritesOnlyItsRow : Instr → State → State → Prop
  | .nop, s, t => t = { s with err := t.err, response := t.response }
  | .wrReg addr _, s, t =>
    t = { s with
      width := t.width, latLog2 := t.latLog2, defaultColor := t.defaultColor, kmode := t.kmode, kcount := t.kcount,
      palcnt := t.palcnt, kernel := t.kernel, pal := t.pal, built := t.built, used := t.used, slots := t.slots,
      err := t.err, response := t.response } ∧
    (addr ≠ 0x002 → t.width = s.width) ∧ (addr ≠ 0x003 → t.latLog2 = s.latLog2) ∧
    (addr ≠ 0x004 → t.defaultColor = s.defaultColor) ∧ (addr ≠ 0x005 → t.kmode = s.kmode ∧ t.kcount = s.kcount) ∧
    (addr ≠ 0x006 → t.palcnt = s.palcnt) ∧
    (∀ i : Fin 8, addr ≠ BitVec.ofNat 16 (0x010 + i.val) → t.kernel[i] = s.kernel[i]) ∧
    (∀ i : Fin 16, addr ≠ BitVec.ofNat 16 (0x020 + i.val) → t.pal[i] = s.pal[i]) ∧
    (addr ≠ 0x003 → addr ≠ 0x006 → (∀ i : Fin 16, addr ≠ BitVec.ofNat 16 (0x020 + i.val)) →
      t.built = s.built ∧ t.used = s.used ∧ t.slots = s.slots)
  | .rdReg _, s, t => t = { s with err := t.err, response := t.response }
  | .errClear, s, t => t = { s with err := t.err, ofsWrap := t.ofsWrap, response := t.response }
  | .abort, s, t => t = { s with mode := t.mode, response := t.response }
  | .build, s, t =>
    t = { s with
      built := t.built, used := t.used, slots := t.slots, cube := t.cube, err := t.err, response := t.response }
  | .query _, s, t => t = { s with err := t.err, response := t.response }
  | .start, s, t =>
    t = { s with
      mode := t.mode, ringN := t.ringN, cursor := t.cursor, fill := t.fill, ringRam := t.ringRam, kactLen := t.kactLen,
      kact := t.kact, inCount := t.inCount, outCount := t.outCount, shortPrime := t.shortPrime, err := t.err,
      response := t.response } ∧ OnlyLiveSlots s t
  | .pixel _, s, t =>
    t = { s with
      ringRam := t.ringRam, fill := t.fill, cursor := t.cursor, mode := t.mode, inCount := t.inCount,
      outCount := t.outCount, out := t.out, err := t.err, response := t.response, draws := t.draws }
  | .endImage, s, t =>
    t = { s with
      ringRam := t.ringRam, cursor := t.cursor, mode := t.mode, outCount := t.outCount, out := t.out,
      shortPrime := t.shortPrime, err := t.err, response := t.response, draws := t.draws }
  | .ringReset, s, t =>
    t = { s with
      ringN := t.ringN, cursor := t.cursor, ringRam := t.ringRam, err := t.err, response := t.response } ∧
    OnlyLiveSlots s t
  | .ringRd _, s, t =>
    t = { s with ofsWrap := t.ofsWrap, err := t.err, response := t.response, draws := t.draws }
  | .ringLd off _, s, t =>
    t = { s with ringRam := t.ringRam, ofsWrap := t.ofsWrap, err := t.err, response := t.response } ∧
    OnlySlot (s.phys off.toNat) s t
  | .ringWrc off _ _, s, t =>
    t = { s with ringRam := t.ringRam, ofsWrap := t.ofsWrap, err := t.err, response := t.response } ∧
    OnlySlot (s.phys off.toNat) s t
  | .ringPush _, s, t =>
    t = { s with ringRam := t.ringRam, cursor := t.cursor, err := t.err, response := t.response } ∧
    OnlySlot s.cursor.toNat s t

/-- The ring channel `key` and the lattice cell `idx` that a command leaves alone: every channel outside the slots the
command stores to, and every cell outside the ones BUILD sweeps. -/
def RingChannelSpared : Instr → State → Nat → Prop
  | .nop, _, _ => True
  | .wrReg _ _, _, _ => True
  | .rdReg _, _, _ => True
  | .errClear, _, _ => True
  | .abort, _, _ => True
  | .build, _, _ => True
  | .query _, _, _ => True
  | .start, s, key => s.width.toNat < key / 3
  | .pixel _, s, key =>
    (s.mode = .filling → key / 3 ≠ s.fill.toNat) ∧
    (s.mode = .streaming → key / 3 ≠ s.cursor.toNat ∧
      ∀ t ∈ s.activeTerms, t.off ≠ 0 → key / 3 ≠ s.phys t.off)
  | .endImage, s, key => s.cursor.toNat ≤ s.ringN.toNat ∧ s.ringN.toNat < key / 3
  | .ringReset, s, key => s.width.toNat < key / 3
  | .ringRd _, _, _ => True
  | .ringLd off _, s, key => key / 3 ≠ s.phys off.toNat
  | .ringWrc off ch _, s, key => key ≠ 3 * s.phys off.toNat + ch.toNat
  | .ringPush _, s, key => key / 3 ≠ s.cursor.toNat

end Sys2Proof.Machine

open Sys2Proof Sys2Proof.Machine

/-! ### Encoding -/

/-- 30_encoding.md R102-R111: the decoder gives back every well-formed command from its word, with every operand at
every value. -/
def Obligations.DecodeOfEncode : Prop :=
  ∀ i : Instr, i.wellFormed = true → decode (encode i) = .command i

/-- 30_encoding.md R113, R114: no word has two readings and none executes as another command's: a word that decodes is
the word of the command it decodes to, and that command is well formed. -/
def Obligations.EncodeOfDecode : Prop :=
  ∀ (w : BitVec 64) (i : Instr), decode w = .command i → i.wellFormed = true ∧ encode i = w

/-- 30_encoding.md R111 with R109: a word is a given command exactly when its opcode field is the command's and its
ZeroMask bits are 0 (and CH is not 3 for RING_WRC), and its operands are the fields of R109. -/
def Obligations.WordIsCommandExactlyWhen : Prop :=
  ∀ (w : BitVec 64) (i : Instr), decode w = .command i ↔
    ∃ row ∈ specTable, w.extractLsb' 56 8 = row.1 ∧ w &&& row.2.1 = 0 ∧
      (row.1 = 0x33#8 → w.extractLsb' 48 2 ≠ 3#2) ∧ i = row.2.2 w

/-- 30_encoding.md R113: a reserved opcode fails with BAD_OPCODE (8), a reserved operand bit with BAD_FORMAT (9), with
no other effect, and no word executes as the command of another opcode. -/
def Obligations.ReservedEncodingsFail : Prop :=
  ∀ (s : State) (w : BitVec 64) (rest : List HostInput), s.inputs = .command w :: rest →
    (((0x05 ≤ (w.extractLsb' 56 8).toNat ∧ (w.extractLsb' 56 8).toNat ≤ 0x0F) ∨
      (0x12 ≤ (w.extractLsb' 56 8).toNat ∧ (w.extractLsb' 56 8).toNat ≤ 0x1F) ∨
      (0x23 ≤ (w.extractLsb' 56 8).toNat ∧ (w.extractLsb' 56 8).toNat ≤ 0x2F) ∨
      0x35 ≤ (w.extractLsb' 56 8).toNat) →
      step s = .next (failedWith { s with inputs := rest } 8)) ∧
    (∀ row ∈ specTable, w.extractLsb' 56 8 = row.1 →
      (w &&& row.2.1 ≠ 0 ∨ (row.1 = 0x33#8 ∧ w.extractLsb' 48 2 = 3#2)) →
      step s = .next (failedWith { s with inputs := rest } 9)) ∧
    (∀ i, decode w = .command i → ∃ row ∈ specTable, w.extractLsb' 56 8 = row.1 ∧ i = row.2.2 w)

/-- Words of spec/95_test_vectors.md section 3.1, one for each command, and what they stand for (30_encoding.md
R115). -/
def Obligations.SampleWordsDecode : Prop :=
  decode 0x0000000000000000#64 = .command .nop ∧
  decode 0x0100012389ABCDEF#64 = .command (.wrReg 0x123 0x89ABCDEF) ∧
  decode 0x0200000A00000000#64 = .command (.rdReg 0x00A) ∧
  decode 0x0300000000000000#64 = .command .errClear ∧
  decode 0x0400000000000000#64 = .command .abort ∧
  decode 0x1000000000000000#64 = .command .build ∧
  decode 0x1100000000123456#64 = .command (.query ⟨0x12, 0x34, 0x56⟩) ∧
  decode 0x2000000000000000#64 = .command .start ∧
  decode 0x2100000000CC00FF#64 = .command (.pixel ⟨0xCC, 0x00, 0xFF⟩) ∧
  decode 0x2200000000000000#64 = .command .endImage ∧
  decode 0x3000000000000000#64 = .command .ringReset ∧
  decode 0x310000000000FFFF#64 = .command (.ringRd 0xFFFF) ∧
  decode 0x3200ABCDEF000003#64 = .command (.ringLd 3 ⟨0xAB, 0xCD, 0xEF⟩) ∧
  decode 0x3302FFFF00000002#64 = .command (.ringWrc 2 2 0xFFFF) ∧
  decode 0x3400000000090909#64 = .command (.ringPush ⟨9, 9, 9⟩)

/-! ### The step, reset, and how a command ends -/

/-- 20_memory.md R89, 30_encoding.md R102: a step is the host's next word, decoded and executed as one command; the step
adds nothing around it but taking the word off the port (assumption log 3). -/
def Obligations.StepRunsDecodedCommand : Prop :=
  ∀ (s : State) (w : BitVec 64) (rest : List HostInput) (i : Instr), s.inputs = .command w :: rest →
    decode w = .command i → step s = exec i { s with inputs := rest }

/-- 70_reset_and_hazards.md R340, R342: in any state, MODE included, reset gives every state item its reset value and
leaves CAPS as it is. State.reset itself has those values. -/
def Obligations.ResetRestoresEveryItem : Prop :=
  AtReset State.reset ∧
    ∀ (s : State) (rest : List HostInput), s.inputs = .reset :: rest →
      ∃ t, step s = .next t ∧ AtReset t ∧ t.params = s.params

/-- 60_exceptions.md R310, 70_reset_and_hazards.md R348: no state stops the block; every command word, whatever its bits,
is answered. -/
def Obligations.EveryStepAnswers : Prop :=
  ∀ s : State, ∃ t, step s = .next t ∧
    ∀ w rest, s.inputs = .command w :: rest → ∃ r, t.response = some r ∧ r.code.toNat ≤ 10

/-- 10_state.md R34: ERR takes a failing command's code only where it was 0; a command that succeeds leaves it, but
ERR_CLEAR sets it to 0, and so does reset; it is one of the codes 1..10 where a failure set it. -/
def Obligations.FirstErrorSticks : Prop :=
  State.reset.err = 0 ∧
  (∀ (s t : State) (w : BitVec 64) (rest : List HostInput), s.inputs = .command w :: rest → step s = .next t →
    ∃ r, t.response = some r ∧
      ((1 ≤ r.code.toNat ∧ r.code.toNat ≤ 10 ∧ r.data = 0 ∧ t.err = if s.err = 0 then r.code else s.err) ∨
       (r.code = 0 ∧ t.err = if decode w = .command .errClear then 0 else s.err))) ∧
  (∀ (s t : State) (rest : List HostInput), s.inputs = .reset :: rest → step s = .next t → t.err = 0) ∧
  (∀ s t : State, s.inputs = [] → step s = .next t → t.err = s.err)

/-- 60_exceptions.md R312, R316: a failing command changes nothing but ERR; only BUILD's
configuration failures (codes 3, 4, 5) also leave BUILT = 0 and the map clear, and may have written cells. -/
def Obligations.FailureHasNoOtherEffect : Prop :=
  ∀ (s t : State) (w : BitVec 64) (rest : List HostInput) (r : Response), s.inputs = .command w :: rest →
    step s = .next t → t.response = some r → r.code ≠ 0 →
    if decode w = .command .build ∧ r.code ≠ 7 then
      t = failedWith { unbuilt { s with inputs := rest } with cube := t.cube } r.code
    else t = failedWith { s with inputs := rest } r.code

/-- 60_exceptions.md R313: ERR does not block. With another value of ERR, a command does the same to every other state
item and answers the same code; the data differs at most for RD_REG of STATUS, which shows ERR; and a failure leaves a
non-zero ERR as it is. -/
def Obligations.ErrDoesNotBlock : Prop :=
  ∀ (i : Instr) (s : State) (e : BitVec 8), ∃ t u r q, exec i s = .next t ∧ exec i { s with err := e } = .next u ∧
    { u with err := t.err, response := t.response } = t ∧ t.response = some r ∧ u.response = some q ∧
    q.code = r.code ∧ (i ≠ .rdReg 0x001 → q = r) ∧ (e ≠ 0 → q.code ≠ 0 → u.err = e)

/-- 10_state.md R36, R37: SHORT_PRIME is cleared by a START that succeeds and set by END in FILLING; OFS_WRAP is set by
RING_RD, RING_LD and RING_WRC with an offset above N and cleared by ERR_CLEAR; no other command changes them, and both
are 0 after reset. -/
def Obligations.FlagsChangeOnlyAsListed : Prop :=
  State.reset.shortPrime = false ∧ State.reset.ofsWrap = false ∧
  ∀ (i : Instr) (s t : State), exec i s = .next t →
    (t.shortPrime =
      if i = .start ∧ t.response = some ⟨0, 0⟩ then false
      else if i = .endImage ∧ s.mode = .filling then true
      else s.shortPrime) ∧
    (i = .errClear → t.ofsWrap = false) ∧
    (∀ off, namedOffset i = some off → (∃ d, t.response = some ⟨0, d⟩) →
      t.ofsWrap = (s.ofsWrap || decide (s.ringN.toNat < off.toNat))) ∧
    (i ≠ .errClear → (namedOffset i = none ∨ ∃ c d, t.response = some ⟨c, d⟩ ∧ c ≠ 0) → t.ofsWrap = s.ofsWrap)

/-- 10_state.md R44: no command writes state outside its row, and only ERR_CLEAR writes ERR without failing. -/
def Obligations.CommandWritesOnlyItsRow : Prop :=
  ∀ (i : Instr) (s t : State), exec i s = .next t →
    WritesOnlyItsRow i s t ∧ (i ≠ .errClear → (∃ d, t.response = some ⟨0, d⟩) → t.err = s.err)

/-- 10_state.md R44, 20_memory.md R86, 43_quantizer.md R202: every ring channel outside the slots a command stores to,
and every lattice cell outside the ones BUILD sweeps, reads as before. -/
def Obligations.MemoriesOutsideStoresUnchanged : Prop :=
  ∀ (i : Instr) (s t : State), exec i s = .next t →
    (∀ key, RingChannelSpared i s key → t.ringRam.read? key = s.ringRam.read? key) ∧
    (∀ idx, (i = .build → 2 ^ (3 * s.latLog2.toNat) ≤ idx) → t.cube.read? idx = s.cube.read? idx)

/-- 00_scope.md R9, 10_state.md R51, 20_memory.md R90: the sizing parameters and the membership port are fixed for the
run. -/
def Obligations.ParametersNeverChange : Prop :=
  ∀ s t : State, step s = .next t → t.params = s.params ∧ t.member = s.member

/-! ### Control commands -/

/-- 45_control.md R280, R283, R284: NOP, ERR_CLEAR and ABORT, in every MODE. -/
def Obligations.NopErrClearAbort : Prop :=
  ∀ s : State, exec .nop s = .next (answered s 0) ∧
    exec .errClear s = .next (answered { s with err := 0, ofsWrap := false } 0) ∧
    exec .abort s = .next (answered { s with mode := .idle } 0)

/-- 45_control.md R281, 10_state.md R67: WR_REG in IDLE or DONE stores the register's fields, and a write to LAT, PALCNT
or PAL[i] also clears BUILT and the map, whatever the value; a reserved or read-only address fails with BAD_REG (10) in
every MODE, and then a writable one outside IDLE and DONE with ILLEGAL_STATE (7). -/
def Obligations.WrRegStoresOrFails : Prop :=
  ∀ s : State, s.params.Legal →
    (∀ a d t, s.mode = .idle ∨ s.mode = .done → StoredAs s a d t → exec (.wrReg a d) s = .next (answered t 0)) ∧
    (∀ a d, ¬ IsReadWrite s.params a.toNat → exec (.wrReg a d) s = .next (failedWith s 10)) ∧
    (∀ a d, IsReadWrite s.params a.toNat → s.mode ≠ .idle → s.mode ≠ .done →
      exec (.wrReg a d) s = .next (failedWith s 7))

/-- 45_control.md R282, 10_state.md R69: RD_REG shows every defined register, in every MODE and with no side effect, and
fails with BAD_REG (10) on a reserved address. -/
def Obligations.RdRegShowsOrFails : Prop :=
  ∀ s : State, s.params.Legal →
    (∀ a v, ShownAt s a v → exec (.rdReg a) s = .next (answered s (0#32 ++ v))) ∧
    (∀ a : BitVec 16, IsReadWrite s.params a.toNat ∨ IsReadOnly s.params a.toNat → ∃ v, ShownAt s a v) ∧
    (∀ a : BitVec 16, ¬ IsReadWrite s.params a.toNat → ¬ IsReadOnly s.params a.toNat →
      exec (.rdReg a) s = .next (failedWith s 10))

/-- 10_state.md R68: what WR_REG stores in a read-write register reads back with the bits outside its defined fields 0;
those bits do not make the write fail, and a read-only register cannot be written. -/
def Obligations.ReservedBitsReadZero : Prop :=
  ∀ (s : State) (a : BitVec 16) (d : BitVec 32), s.params.Legal → s.mode = .idle ∨ s.mode = .done →
    (IsReadWrite s.params a.toNat →
      ∃ t u, exec (.wrReg a d) s = .next t ∧ t.response = some ⟨0, 0⟩ ∧ exec (.rdReg a) t = .next u ∧
        u.response = some ⟨0, 0#32 ++ (d &&& fieldMask a.toNat)⟩) ∧
    (IsReadOnly s.params a.toNat → exec (.wrReg a d) s = .next (failedWith s 10))

/-! ### The quantiser -/

/-- 43_quantizer.md R201: the samples span 0..255 and each lies inside its own cell. -/
def Obligations.SamplesLieInTheirCells : Prop :=
  ∀ k i : Nat, 1 ≤ k → k ≤ 8 → i < 2 ^ k →
    (sampleLevel k i).toNat = i * 255 / (2 ^ k - 1) ∧ (sampleLevel k i).toNat >>> (8 - k) = i

/-- 43_quantizer.md R203, R205, R206: BUILD's table and lattice. Where the configuration is legal, the port's colours fit
the map and every configured palette colour is among them, BUILD succeeds: slot i is the palette entry of the i-th
colour in first-seen order (its key, the rounded-down average of the samples that map to it, their number), the other
slots are clear, and each cell holds the slot of its sample's colour. -/
def Obligations.BuildComputesEntriesAndLattice : Prop :=
  ∀ s : State, s.params.Legal → s.mode = .idle ∨ s.mode = .done →
    1 ≤ s.latLog2.toNat → s.latLog2.toNat ≤ s.params.latLog2Max → s.palcnt.toNat ≤ s.params.palCap →
    (buildKeys s.ask s.latLog2.toNat).length ≤ s.params.palCap →
    (∀ j : Fin 16, j.val < s.palcnt.toNat → s.pal[j] ∈ buildKeys s.ask s.latLog2.toNat) →
    ∃ t, exec .build s = .next (answered t 0) ∧
      t = { s with built := true, used := t.used, slots := t.slots, cube := t.cube } ∧
      t.used.toNat = (buildKeys s.ask s.latLog2.toNat).length ∧
      (∀ i : Fin 16, t.slots[i] = match (buildKeys s.ask s.latLog2.toNat)[i.val]? with
        | some q => paletteEntry s.ask (samples s.latLog2.toNat) q
        | none => MapSlot.empty) ∧
      (∀ idx c, (samples s.latLog2.toNat)[idx]? = some c →
        ∃ v, t.cube.read? idx = some v ∧ (buildKeys s.ask s.latLog2.toNat)[v.toNat]? = some (s.ask c))

/-- 43_quantizer.md R204, 60_exceptions.md R314: BUILD's failures in priority order: ILLEGAL_STATE (7), CFG_LATTICE (5),
CFG_PAL_CAPACITY (3) for PALCNT, CFG_PAL_CAPACITY (3) for the colours produced, CFG_PAL_MISS (4). -/
def Obligations.BuildFailsInOrder : Prop :=
  ∀ s : State, s.params.Legal →
    (s.mode ≠ .idle → s.mode ≠ .done → exec .build s = .next (failedWith s 7)) ∧
    (s.mode = .idle ∨ s.mode = .done →
      ((s.latLog2.toNat < 1 ∨ s.params.latLog2Max < s.latLog2.toNat) →
        exec .build s = .next (failedWith (unbuilt s) 5)) ∧
      (1 ≤ s.latLog2.toNat → s.latLog2.toNat ≤ s.params.latLog2Max →
        (s.params.palCap < s.palcnt.toNat → exec .build s = .next (failedWith (unbuilt s) 3)) ∧
        (s.palcnt.toNat ≤ s.params.palCap →
          (s.params.palCap < (buildKeys s.ask s.latLog2.toNat).length →
            ∃ m, exec .build s = .next (failedWith { unbuilt s with cube := m } 3)) ∧
          ((buildKeys s.ask s.latLog2.toNat).length ≤ s.params.palCap →
            (∃ j : Fin 16, j.val < s.palcnt.toNat ∧ s.pal[j] ∉ buildKeys s.ask s.latLog2.toNat) →
            ∃ m, exec .build s = .next (failedWith { unbuilt s with cube := m } 4)))))

/-- 20_memory.md R84: a repeated BUILD gives the same map and lattice. -/
def Obligations.BuildIsRepeatable : Prop :=
  ∀ s t : State, exec .build s = .next t → t.response = some ⟨0, 0⟩ →
    ∃ u, exec .build t = .next u ∧ u = { t with cube := u.cube } ∧ ∀ idx, u.cube.read? idx = t.cube.read? idx

/-- 43_quantizer.md R209: after a successful BUILD, LOOKUP of any colour is the colour the membership port gave for the
sample point of its cell. -/
def Obligations.LookupGivesTheSamplesColour : Prop :=
  ∀ s t : State, s.params.Legal → exec .build s = .next t → t.response = some ⟨0, 0⟩ →
    ∀ c : Color, t.lookup c = s.ask (samplePoint s.latLog2.toNat c)

/-- 43_quantizer.md R212, R213: while BUILT = 1 (in a state with the map's invariant) no lookup misses: the colour is
the key of exactly one used slot, which is valid and counts at least one cell, and the error is the colour minus that
slot's centroid. -/
def Obligations.WithErrorRoundTrip : Prop :=
  ∀ s : State, s.MapInv → s.built = true → ∀ c : Color, (s.withError c).1 = s.lookup c ∧
    ∃ i : Fin 16, i.val < s.used.toNat ∧ s.slots[i].key = s.lookup c ∧ s.slots[i].valid = true ∧
      s.slots[i].count ≠ 0 ∧ (∀ j : Fin 16, j.val < s.used.toNat → s.slots[j].key = s.lookup c → j = i) ∧
      (s.withError c).2.r.toInt = (c.r.toNat : Int) - s.slots[i].cent.r.toNat ∧
      (s.withError c).2.g.toInt = (c.g.toNat : Int) - s.slots[i].cent.g.toNat ∧
      (s.withError c).2.b.toInt = (c.b.toNat : Int) - s.slots[i].cent.b.toNat

/-- 43_quantizer.md R211: QUERY, legal in every MODE, answers the key of the cell's slot and the colour minus that
slot's centroid as three 12-bit two's-complement fields; unbuilt it fails with NOT_BUILT (6). -/
def Obligations.QueryAnswersOrFails : Prop :=
  ∀ (s : State) (c : Color),
    (s.built = true → exec (.query c) s = .next (answered s
      ((s.slotFor c).key.r ++ (s.slotFor c).key.g ++ (s.slotFor c).key.b ++ 0#4 ++
        BitVec.ofInt 12 ((c.r.toNat : Int) - (s.slotFor c).cent.r.toNat) ++
        BitVec.ofInt 12 ((c.g.toNat : Int) - (s.slotFor c).cent.g.toNat) ++
        BitVec.ofInt 12 ((c.b.toNat : Int) - (s.slotFor c).cent.b.toNat)))) ∧
    (s.built = false → exec (.query c) s = .next (failedWith s 6))

/-! ### The accumulator -/

/-- 41_accumulator.md R141-R145: the accumulator's primitives, channel by channel, in integers. -/
def Obligations.AccumulatorPrimitives : Prop :=
  (∀ c : Color, (accFrom c).map BitVec.toInt = c.map fun x => (x.toNat : Int)) ∧
  (∀ a b : Acc, (accAdd a b).map BitVec.toInt =
    a.zipWith (fun x y => min 32767 (max (-32768) (x.toInt + y.toInt))) b) ∧
  (∀ a b : Acc, (accSub a b).map BitVec.toInt =
    a.zipWith (fun x y => min 32767 (max (-32768) (x.toInt - y.toInt))) b) ∧
  (∀ (a : Acc) (num : BitVec 8), accScale a num = a.map fun x => x.toInt * (num.toNat : Int)) ∧
  (∀ (v : Wide) (s : Nat), (accShr v s).map BitVec.toInt =
    v.map fun x => min 32767 (max (-32768) (Int.fdiv x (2 ^ s))))

/-- 41_accumulator.md R146: TERM is the floor of e * num / 16 in each channel, between -4065 and 4064 for every error
vector the quantiser gives. -/
def Obligations.TermIsFloorOfSixteenth : Prop :=
  ∀ (e : Err) (num : BitVec 8),
    (term e num).map BitVec.toInt = e.map (fun x => floorTerm x.toInt num) ∧
    (e.Each (fun x => -255 ≤ x.toInt ∧ x.toInt ≤ 255) →
      (term e num).Each fun x => -4065 ≤ x.toInt ∧ x.toInt ≤ 4064)

/-- 41_accumulator.md R147: NARROW clamps each channel to 0..255. -/
def Obligations.NarrowClampsEachChannel : Prop :=
  ∀ a : Acc, (narrow a).map (fun x => (x.toNat : Int)) = a.map fun x => min 255 (max 0 x.toInt)

/-- 41_accumulator.md R150: TERM of every error vector loses less than 1 per channel, always toward minus infinity, and
where a kernel's numerators sum to 16 its terms add at most the error to a channel and more than the error minus their
number. -/
def Obligations.TruncationLoss : Prop :=
  ∀ e : Err,
    TruncatesChannel e.r.toInt (fun num => (term e num).r.toInt) ∧
    TruncatesChannel e.g.toInt (fun num => (term e num).g.toInt) ∧
    TruncatesChannel e.b.toInt (fun num => (term e num).b.toInt)

/-! ### The ring commands -/

/-- 42_ring_fifo.md R177: RING_RESET. -/
def Obligations.RingResetSizesAndFills : Prop :=
  ∀ s : State,
    (s.mode = .idle ∨ s.mode = .done →
      (1 ≤ s.width.toNat → s.width.toNat ≤ s.params.wmax →
        ∃ m, exec .ringReset s = .next (answered { s with ringN := s.width, cursor := 0, ringRam := m } 0) ∧
          FilledWith m s.ringRam s.width.toNat s.defaultColor) ∧
      ((s.width.toNat < 1 ∨ s.params.wmax < s.width.toNat) → exec .ringReset s = .next (failedWith s 1))) ∧
    (s.mode ≠ .idle → s.mode ≠ .done → exec .ringReset s = .next (failedWith s 7))

/-- 42_ring_fifo.md R178, R175: RING_RD answers the three channels of slot (CURSOR + OFF) mod (N+1), and sets OFS_WRAP
when OFF exceeds N. A channel never written since reset answers any value (10_state.md R38): the statement fixes only
the written ones. The count of drawn values is the model's own (assumption log 6), and left open. -/
def Obligations.RingRdReadsTheSlot : Prop :=
  ∀ (s : State) (off : BitVec 16),
    (s.mode = .idle ∨ s.mode = .done → ∃ (a : Acc) (d : Nat),
      exec (.ringRd off) s = .next (answered
        { s with ofsWrap := s.ofsWrap || decide (s.ringN.toNat < off.toNat), draws := d } (0#16 ++ a.r ++ a.g ++ a.b)) ∧
      (∀ v, s.ringRam.read? (3 * ((s.cursor.toNat + off.toNat) % (s.ringN.toNat + 1))) = some v → a.r = v) ∧
      (∀ v, s.ringRam.read? (3 * ((s.cursor.toNat + off.toNat) % (s.ringN.toNat + 1)) + 1) = some v → a.g = v) ∧
      (∀ v, s.ringRam.read? (3 * ((s.cursor.toNat + off.toNat) % (s.ringN.toNat + 1)) + 2) = some v → a.b = v)) ∧
    (s.mode ≠ .idle → s.mode ≠ .done → exec (.ringRd off) s = .next (failedWith s 7))

/-- 42_ring_fifo.md R179, R175: RING_LD. -/
def Obligations.RingLdLoadsTheSlot : Prop :=
  ∀ (s : State) (off : BitVec 16) (c : Color),
    (s.mode = .idle ∨ s.mode = .done → ∃ m,
      exec (.ringLd off c) s = .next (answered
        { s with ofsWrap := s.ofsWrap || decide (s.ringN.toNat < off.toNat), ringRam := m } 0) ∧
      LoadedWith m s.ringRam ((s.cursor.toNat + off.toNat) % (s.ringN.toNat + 1)) c) ∧
    (s.mode ≠ .idle → s.mode ≠ .done → exec (.ringLd off c) s = .next (failedWith s 7))

/-- 42_ring_fifo.md R180, R175: RING_WRC writes one channel exactly; the other two keep their values. The last clause
is no rule of the spec but the model's choice (assumption log 14): channel 3, a term no word decodes to, fails with
BAD_FORMAT (9), as 30_encoding.md R102 says of the word. -/
def Obligations.RingWrcWritesOneChannel : Prop :=
  ∀ (s : State) (off : BitVec 16) (ch : BitVec 2) (v : BitVec 16),
    (ch ≠ 3 → s.mode = .idle ∨ s.mode = .done → ∃ m,
      exec (.ringWrc off ch v) s = .next (answered
        { s with ofsWrap := s.ofsWrap || decide (s.ringN.toNat < off.toNat), ringRam := m } 0) ∧
      ∀ key, m.read? key =
        if key = 3 * ((s.cursor.toNat + off.toNat) % (s.ringN.toNat + 1)) + ch.toNat then some v
        else s.ringRam.read? key) ∧
    (ch ≠ 3 → s.mode ≠ .idle → s.mode ≠ .done → exec (.ringWrc off ch v) s = .next (failedWith s 7)) ∧
    (ch = 3 → exec (.ringWrc off ch v) s = .next (failedWith s 9))

/-- 42_ring_fifo.md R181: RING_PUSH writes the head slot and advances CURSOR modulo N+1. -/
def Obligations.RingPushEvictsTheHead : Prop :=
  ∀ (s : State) (c : Color),
    (s.mode = .idle ∨ s.mode = .done → ∃ m,
      exec (.ringPush c) s = .next (answered
        { s with cursor := BitVec.ofNat 16 ((s.cursor.toNat + 1) % (s.ringN.toNat + 1)), ringRam := m } 0) ∧
      LoadedWith m s.ringRam s.cursor.toNat c) ∧
    (s.mode ≠ .idle → s.mode ≠ .done → exec (.ringPush c) s = .next (failedWith s 7))

/-- 42_ring_fifo.md R173: after a push the old offset j (1 ≤ j ≤ N) is the new offset j-1, and the new item is at offset
N. CURSOR at most N is the invariant of the ring pointers. -/
def Obligations.PushShiftsTheWindow : Prop :=
  ∀ (s t : State) (c : Color), s.cursor.toNat ≤ s.ringN.toNat → s.mode = .idle ∨ s.mode = .done →
    exec (.ringPush c) s = .next t →
    (∀ j a, 1 ≤ j → j ≤ s.ringN.toNat → s.SlotHolds (s.phys j) a → t.SlotHolds (t.phys (j - 1)) a) ∧
    t.SlotHolds (t.phys s.ringN.toNat) (accFrom c)

/-- 20_memory.md R96, 42_ring_fifo.md R176: while an image runs the engine owns the ring: each of the five ring commands
fails with ILLEGAL_STATE (7) and has no effect. -/
def Obligations.EngineOwnsTheRing : Prop :=
  ∀ (s : State) (i : Instr), s.mode = .filling ∨ s.mode = .streaming ∨ s.mode = .draining → i.wellFormed = true →
    (i = .ringReset ∨ (∃ off, i = .ringRd off) ∨ (∃ off c, i = .ringLd off c) ∨ (∃ off ch v, i = .ringWrc off ch v) ∨
      ∃ c, i = .ringPush c) →
    exec i s = .next (failedWith s 7)

/-! ### The engine -/

/-- 44_engine.md R243 with R241 and R242: START, where its checks pass, sizes and fills the ring, latches the kernel,
clears the counters and enters FILLING: with the Floyd-Steinberg kernel, and with any custom kernel inside the window.
Its failures, in priority order: ILLEGAL_STATE (7), CFG_WIDTH (1), CFG_KERNEL (2) for KCOUNT, CFG_KERNEL (2) for an
offset, NOT_BUILT (6). -/
def Obligations.StartConstructsOrFails : Prop :=
  ∀ s : State, s.params.Legal →
    (s.mode ≠ .idle → s.mode ≠ .done → exec .start s = .next (failedWith s 7)) ∧
    (s.mode = .idle ∨ s.mode = .done →
      ((s.width.toNat < 1 ∨ s.params.wmax < s.width.toNat) → exec .start s = .next (failedWith s 1)) ∧
      (1 ≤ s.width.toNat → s.width.toNat ≤ s.params.wmax →
        (KernelTooLong s → exec .start s = .next (failedWith s 2)) ∧
        (¬ KernelTooLong s → KernelOutsideWindow s → exec .start s = .next (failedWith s 2)) ∧
        (¬ KernelTooLong s → ¬ KernelOutsideWindow s → s.built = false → exec .start s = .next (failedWith s 6)) ∧
        (s.built = true → s.kmode = false → ∃ m k, exec .start s = .next (answered (started s m 4 k) 0) ∧
          FilledWith m s.ringRam s.width.toNat s.defaultColor ∧ LatchedFloydSteinberg k s.kact s.width.toNat) ∧
        (s.built = true → s.kmode = true → ¬ KernelTooLong s → ¬ KernelOutsideWindow s →
          ∃ m k, exec .start s = .next (answered (started s m s.kcount k) 0) ∧
            FilledWith m s.ringRam s.width.toNat s.defaultColor ∧ LatchedCustom k s.kact s.kernel s.kcount.toNat)))

/-- 44_engine.md R244: PIXEL in FILLING stores the pixel in slot FILL and emits nothing; the one that fills slot N enters
STREAMING. In IDLE and DONE it fails with ILLEGAL_STATE (7). -/
def Obligations.PixelPrimesTheRing : Prop :=
  ∀ (s : State) (x : Color),
    (s.mode = .filling → ∃ m, exec (.pixel x) s = .next (answered
      { s with
        ringRam := m, fill := s.fill + 1, inCount := s.inCount + 1,
        mode := if s.fill.toNat + 1 = s.ringN.toNat + 1 then .streaming else .filling } 0) ∧
      LoadedWith m s.ringRam s.fill.toNat x) ∧
    (s.mode = .idle ∨ s.mode = .done → exec (.pixel x) s = .next (failedWith s 7))

/-- 44_engine.md R246, R247, R244: PIXEL in STREAMING is one STEP on the ring: the head is narrowed and quantised, the
new pixel takes its slot, the error is diffused in kernel order, CURSOR advances and one colour is emitted. -/
def Obligations.PixelStepsTheEngine : Prop :=
  ∀ (s : State) (x : Color) (f : Nat → Acc), s.mode = .streaming → s.RingIs f → s.cursor.toNat ≤ s.ringN.toNat →
    ∃ m, exec (.pixel x) s = .next (answered
        { s with
          inCount := s.inCount + 1
          ringRam := m
          cursor := BitVec.ofNat 16 (ringStep s x ⟨f, s.cursor.toNat, s.out⟩).cursor
          out := (ringStep s x ⟨f, s.cursor.toNat, s.out⟩).emitted
          outCount := s.outCount + 1 } 0) ∧
      RamIs m s.ringN.toNat (ringStep s x ⟨f, s.cursor.toNat, s.out⟩).content

/-- 44_engine.md R246 with the Floyd-Steinberg kernel of R241, for a width of 3 or more: the right neighbour gains 7/16
of the error, the pixels below left, below and below right 3/16, 5/16 and 1/16 (the last on the pixel just pushed), and
every other waiting pixel is unchanged. -/
def Obligations.FloydSteinbergNeighbours : Prop :=
  ∀ (s : State) (x : Color) (f : Nat → Acc), s.mode = .streaming → s.RingIs f → s.cursor.toNat ≤ s.ringN.toNat →
    3 ≤ s.ringN.toNat →
    s.activeTerms = [⟨1, 7⟩, ⟨s.ringN.toNat - 1, 3⟩, ⟨s.ringN.toNat, 5⟩, ⟨s.ringN.toNat + 1, 1⟩] →
    ∃ t, exec (.pixel x) s = .next t ∧
      t.SlotHolds (s.phys 1)
        (accAdd (f (s.phys 1)) (term (s.withError (narrow (f s.cursor.toNat))).2 7)) ∧
      t.SlotHolds (s.phys (s.ringN.toNat - 1))
        (accAdd (f (s.phys (s.ringN.toNat - 1))) (term (s.withError (narrow (f s.cursor.toNat))).2 3)) ∧
      t.SlotHolds (s.phys s.ringN.toNat)
        (accAdd (f (s.phys s.ringN.toNat)) (term (s.withError (narrow (f s.cursor.toNat))).2 5)) ∧
      t.SlotHolds s.cursor.toNat
        (accAdd (accFrom x) (term (s.withError (narrow (f s.cursor.toNat))).2 1)) ∧
      ∀ d, 2 ≤ d → d + 2 ≤ s.ringN.toNat → t.SlotHolds (s.phys d) (f (s.phys d))

/-- 44_engine.md R248: END runs FILL steps from FILLING (and sets SHORT_PRIME) or N+1 from STREAMING, each pushing
DEFAULT, and ends in DONE. In IDLE and DONE it fails with ILLEGAL_STATE (7). -/
def Obligations.EndDrainsTheRing : Prop :=
  ∀ s : State,
    (∀ (f : Nat → Acc) (n : Nat), s.RingIs f → s.cursor.toNat ≤ s.ringN.toNat →
      (s.mode = .filling ∧ n = s.fill.toNat) ∨ (s.mode = .streaming ∧ n = s.ringN.toNat + 1) →
      ∃ m, exec .endImage s = .next (answered
          { s with
            mode := .done
            shortPrime := if s.mode = .filling then true else s.shortPrime
            ringRam := m
            cursor := BitVec.ofNat 16 ((ringStep s s.defaultColor)^[n] ⟨f, s.cursor.toNat, s.out⟩).cursor
            out := ((ringStep s s.defaultColor)^[n] ⟨f, s.cursor.toNat, s.out⟩).emitted
            outCount := s.outCount + BitVec.ofNat 32 n } 0) ∧
        RamIs m s.ringN.toNat ((ringStep s s.defaultColor)^[n] ⟨f, s.cursor.toNat, s.out⟩).content) ∧
    (s.mode = .idle ∨ s.mode = .done → exec .endImage s = .next (failedWith s 7))

/-- 44_engine.md R249, 70_reset_and_hazards.md R349: in a state with the running image's invariant, END emits every pixel
still in the ring, so that as many colours have left as pixels came. -/
def Obligations.EndBalancesTheCounters : Prop :=
  ∀ s : State, s.RunInv → s.mode = .filling ∨ s.mode = .streaming →
    ∃ t ps, exec .endImage s = .next t ∧ t.mode = .done ∧ t.outCount = t.inCount ∧ t.inCount = s.inCount ∧
      t.out = s.out ++ ps ∧
      ps.length = (if s.mode = .filling then s.fill.toNat else s.ringN.toNat + 1)

/-- 44_engine.md R252: once an image runs, neither PIXEL nor END can fail, and no command changes BUILT. -/
def Obligations.RunningImageNeverFails : Prop :=
  ∀ (s : State) (x : Color), s.mode = .filling ∨ s.mode = .streaming →
    (∃ t, exec (.pixel x) s = .next t ∧ t.response = some ⟨0, 0⟩ ∧ t.err = s.err) ∧
    (∃ t, exec .endImage s = .next t ∧ t.response = some ⟨0, 0⟩ ∧ t.err = s.err) ∧
    (∀ i t, exec i s = .next t → t.built = s.built)

/-- 44_engine.md R253: determinism. Two states that agree on MODE, the ring, the kernel latch, DEFAULT and the quantiser's
answers emit the same colours for the same PIXEL or END, and agree again afterwards, whatever else differs. -/
def Obligations.EmissionDependsOnlyOnTheEngine : Prop :=
  ∀ (i : Instr) (s u : State) (f : Nat → Acc), SameEngine s u f → s.mode = .filling ∨ s.mode = .streaming →
    (∃ x, i = .pixel x) ∨ i = .endImage →
    ∃ (t v : State) (f' : Nat → Acc) (ps : List Color), exec i s = .next t ∧ exec i u = .next v ∧
      t.out = s.out ++ ps ∧ v.out = u.out ++ ps ∧ SameEngine t v f'

/-- 44_engine.md R240: only the listed commands change MODE, and only as listed; the pairs of START, PIXEL and END that
are not listed fail with ILLEGAL_STATE (7). -/
def Obligations.ModeChangesOnlyAsListed : Prop :=
  ∀ (i : Instr) (s t : State), exec i s = .next t →
    (t.mode ≠ s.mode →
      (i = .start ∧ (s.mode = .idle ∨ s.mode = .done) ∧ t.mode = .filling) ∨
      ((∃ x, i = .pixel x) ∧ s.mode = .filling ∧ t.mode = .streaming ∧ s.fill.toNat + 1 = s.ringN.toNat + 1) ∨
      (i = .endImage ∧ (s.mode = .filling ∨ s.mode = .streaming) ∧ t.mode = .done) ∨
      (i = .abort ∧ t.mode = .idle)) ∧
    (i = .abort → t.mode = .idle) ∧
    (i = .endImage → s.mode = .filling ∨ s.mode = .streaming → t.mode = .done) ∧
    ((∃ x, i = .pixel x) → s.mode = .filling → s.fill.toNat + 1 = s.ringN.toNat + 1 → t.mode = .streaming) ∧
    (i = .start → s.mode = .idle ∨ s.mode = .done → t.response = some ⟨0, 0⟩ → t.mode = .filling) ∧
    (i = .start → s.mode = .filling ∨ s.mode = .streaming → t = failedWith s 7) ∧
    ((∃ x, i = .pixel x) ∨ i = .endImage → s.mode = .idle ∨ s.mode = .done → t = failedWith s 7) ∧
    (∀ rest, ∃ v, step { s with inputs := .reset :: rest } = .next v ∧ v.mode = .idle)

/-- 10_state.md R43: OUT is empty after reset and only grows at its end; only PIXEL and END append. OUT_COUNT grows by as
many (START clears it). -/
def Obligations.OutOnlyGrows : Prop :=
  State.reset.out = [] ∧
  ∀ (i : Instr) (s t : State), exec i s = .next t →
    ∃ ps : List Color, t.out = s.out ++ ps ∧
      (ps ≠ [] → (∃ x, i = .pixel x) ∨ i = .endImage) ∧
      (i ≠ .start → t.outCount = s.outCount + BitVec.ofNat 32 ps.length)

/-- 20_memory.md R90: only BUILD asks the membership port: with any other port, every other command does the same. -/
def Obligations.OnlyBuildAsksThePort : Prop :=
  ∀ (i : Instr) (s : State) (m : List (Color × Color)), i ≠ .build →
    ∃ t, exec i s = .next t ∧ exec i { s with member := m } = .next { t with member := m }

/-- 20_memory.md R94, 44_engine.md R252: while an image runs no command changes the configuration it started with, the
kernel latch, BUILT, the map or the lattice. -/
def Obligations.ConfigurationFrozenWhileRunning : Prop :=
  ∀ (i : Instr) (s t : State), s.mode = .filling ∨ s.mode = .streaming → exec i s = .next t →
    t.width = s.width ∧ t.latLog2 = s.latLog2 ∧ t.defaultColor = s.defaultColor ∧ t.kmode = s.kmode ∧
      t.kcount = s.kcount ∧ t.palcnt = s.palcnt ∧ t.kernel = s.kernel ∧ t.pal = s.pal ∧ t.ringN = s.ringN ∧
      t.kactLen = s.kactLen ∧ t.kact = s.kact ∧ t.built = s.built ∧ t.used = s.used ∧ t.slots = s.slots ∧
      t.cube = s.cube

/-! ### Invariants -/

/-- The invariants hold at reset. -/
def Obligations.InvariantsHoldAtReset : Prop :=
  State.reset.StoreInv ∧ State.reset.MapInv ∧ State.reset.RunInv ∧ State.reset.AccInv

/-- 10_state.md R33, R38, R39, R41, 60_exceptions.md R311: every step keeps the memories in canonical form and inside
their address ranges, the ring pointers in range, ERR a listed code, KACT_LEN at most KMAX, and never ends in
DRAINING. -/
def Obligations.StepKeepsStoreInv : Prop :=
  ∀ s t : State, s.StoreInv → step s = .next t → t.StoreInv

/-- 10_state.md R40, R67, 43_quantizer.md R208, R213: every step keeps the map and the lattice consistent. -/
def Obligations.StepKeepsMapInv : Prop :=
  ∀ s t : State, s.MapInv → step s = .next t → t.MapInv

/-- 44_engine.md R242, R249, R252, 10_state.md R42: every step keeps a running image's ring written, its kernel inside the
window, its quantiser built, and the counters balanced. -/
def Obligations.StepKeepsRunInv : Prop :=
  ∀ s t : State, s.RunInv → step s = .next t → t.RunInv

/-- 41_accumulator.md R149: every step keeps each waiting pixel within what the terms that reach it can add up to. -/
def Obligations.StepKeepsAccInv : Prop :=
  ∀ s t : State, s.RunInv → s.AccInv → step s = .next t → t.AccInv

/-- 41_accumulator.md R149: with at most 8 active terms the engine's accumulators never saturate, over every STEP of a
command: a PIXEL in STREAMING (one STEP), an END in FILLING (FILL of them) and an END in STREAMING (N+1 of them,
44_engine.md R248) leave the ring and emit the colours that exact integer addition gives. -/
def Obligations.EngineAddsExactly : Prop :=
  ∀ (s : State) (i : Instr) (x : Color) (n : Nat) (f : Nat → Acc), s.RunInv → s.AccInv → s.RingIs f →
    (i = .pixel x ∧ s.mode = .streaming ∧ n = 1) ∨
      (i = .endImage ∧ s.mode = .filling ∧ x = s.defaultColor ∧ n = s.fill.toNat) ∨
      (i = .endImage ∧ s.mode = .streaming ∧ x = s.defaultColor ∧ n = s.ringN.toNat + 1) →
    ∃ (t : State) (f' : Nat → Acc), exec i s = .next t ∧ t.RingIs f' ∧
      t.out = ((exactStep s x)^[n] ⟨fun j => (f j).map BitVec.toInt, s.cursor.toNat, s.out⟩).emitted ∧
      ∀ j, j ≤ s.ringN.toNat → (f' j).map BitVec.toInt =
        ((exactStep s x)^[n] ⟨fun j => (f j).map BitVec.toInt, s.cursor.toNat, s.out⟩).content j
end

