-- ==== Sys2Proof/Laws/Arith.lean ====
section
/-!
SUPPORT. The accumulator's operations in exact integers, channel by channel.
-/

namespace Sys2Proof.Machine

@[simp] theorem toInt_sat16 (v : Int) : (sat16 v).toInt = min 32767 (max (-32768) v) := by
  unfold sat16 clamp
  rw [BitVec.toInt_ofInt_eq_self (by decide)] <;> simp

/-- A colour channel as an accumulator channel keeps its value. -/
theorem toInt_setWidth_channel (x : BitVec 8) : (x.setWidth 16).toInt = (x.toNat : Int) := by
  rw [BitVec.toInt_eq_toNat_of_lt] <;> simp <;> omega

/-- NARROW of one channel. -/
theorem toNat_narrow_channel (x : BitVec 16) :
    ((BitVec.ofInt 8 (clamp x.toInt 0 255)).toNat : Int) = min 255 (max 0 x.toInt) := by
  rw [BitVec.toNat_ofInt]
  unfold clamp
  omega

/-- TERM of one channel is the floor of a sixteenth of the product; it never saturates (41_accumulator.md R146). -/
theorem toInt_term_channel (x : BitVec 9) (num : BitVec 8) :
    (sat16 (sra ((x.signExtend 16).toInt * num.toNat) 4)).toInt = x.toInt * num.toNat / 16 := by
  rw [toInt_sat16, BitVec.toInt_signExtend_of_le (by decide)]
  unfold sra
  have h1 := BitVec.toInt_lt (x := x)
  have h2 := BitVec.le_toInt (x := x)
  have h3 := num.isLt
  simp only [Nat.reducePow, Nat.add_one_sub_one] at h1 h2 h3
  have h4 : (-256 : Int) * 255 ≤ x.toInt * num.toNat := by nlinarith
  have h5 : x.toInt * num.toNat ≤ (255 : Int) * 255 := by nlinarith
  norm_num
  omega

/-- The error of a colour channel against a centroid channel is exact in nine bits (43_quantizer.md R210). -/
theorem toInt_error_channel (x y : BitVec 8) :
    ((sat16 ((x.setWidth 16).toInt - (y.setWidth 16).toInt)).setWidth 9).toInt = (x.toNat : Int) - y.toNat := by
  rw [toInt_setWidth_channel, toInt_setWidth_channel]
  have hx := x.isLt
  have hy := y.isLt
  have h : sat16 ((x.toNat : Int) - y.toNat) = BitVec.ofInt 16 ((x.toNat : Int) - y.toNat) := by
    unfold sat16 clamp
    congr 1
    omega
  have h9 : (BitVec.ofInt 16 ((x.toNat : Int) - y.toNat)).setWidth 9 = BitVec.ofInt 9 ((x.toNat : Int) - y.toNat) := by
    apply BitVec.eq_of_toNat_eq
    simp [BitVec.toNat_ofInt]
    omega
  rw [h, h9, BitVec.toInt_ofInt_eq_self (by decide)] <;> simp <;> omega

/-- TERM of one channel of an error in -255..255 lies in -4065..4064 (41_accumulator.md R146). -/
theorem term_channel_bounds {x : BitVec 9} (h : -255 ≤ x.toInt ∧ x.toInt ≤ 255) (num : BitVec 8) :
    -4065 ≤ (sat16 (sra ((x.signExtend 16).toInt * num.toNat) 4)).toInt ∧
      (sat16 (sra ((x.signExtend 16).toInt * num.toNat) 4)).toInt ≤ 4064 := by
  rw [toInt_term_channel]
  have hn := num.isLt
  have h4 : (-255 : Int) * 255 ≤ x.toInt * num.toNat := by nlinarith
  have h5 : x.toInt * num.toNat ≤ (255 : Int) * 255 := by nlinarith
  omega

end Sys2Proof.Machine
end

