-- ==== Sys2Proof/Laws/Decode.lean ====
section
/-!
SUPPORT. The fields of concatenated words: what the decoder extracts from what the encoder puts together.
-/

namespace Sys2Proof

theorem extract_left {m n : Nat} (x : BitVec m) (y : BitVec n) (start len : Nat) (h : n ≤ start) :
    BitVec.extractLsb' start len (x ++ y) = BitVec.extractLsb' (start - n) len x :=
  BitVec.extractLsb'_append_eq_of_le h

theorem extract_right {m n : Nat} (x : BitVec m) (y : BitVec n) (start len : Nat) (h : start + len ≤ n) :
    BitVec.extractLsb' start len (x ++ y) = BitVec.extractLsb' start len y :=
  BitVec.extractLsb'_append_eq_of_add_le h

/-- Packing a colour loses nothing (20_memory.md R81). -/
@[simp] theorem colorOf_packColor (c : Color) : colorOf (packColor c) = c := by
  have hr : (packColor c).extractLsb' 16 8 = c.r := by
    unfold packColor
    erw [extract_left _ c.b _ _ (by decide), extract_left _ c.g _ _ (by decide)]
    simp
  have hg : (packColor c).extractLsb' 8 8 = c.g := by
    unfold packColor
    erw [extract_left _ c.b _ _ (by decide), extract_right _ c.g _ _ (by decide)]
    simp
  have hb : (packColor c).extractLsb' 0 8 = c.b := by
    unfold packColor
    erw [extract_right _ c.b _ _ (by decide)]
    simp
  unfold colorOf
  rw [hr, hg, hb]

/-- Every 24-bit word is some colour's (20_memory.md R81). -/
@[simp] theorem packColor_colorOf (v : BitVec 24) : packColor (colorOf v) = v := by
  unfold packColor colorOf
  have h := BitVec.extractLsb'_append_extractLsb'_eq_extractLsb' (x := v) (start₂ := 16) (start₁ := 8)
    (len₁ := 8) (len₂ := 8) rfl
  have h2 := BitVec.extractLsb'_append_extractLsb'_eq_extractLsb' (x := v) (start₂ := 8) (start₁ := 0)
    (len₁ := 8) (len₂ := 16) rfl
  simp only
  rw [h]
  exact h2.trans (by simp)

/-- A colour field of a word, unpacked and packed again. -/
theorem extract_extract (w : BitVec 64) (start len start' len' : Nat) (h : start' + len' ≤ len) :
    (w.extractLsb' start len).extractLsb' start' len' = w.extractLsb' (start + start') len' := by
  apply BitVec.eq_of_getLsbD_eq
  intro i hi
  have hlt : start' + i < len := by omega
  simp [hi, hlt, Nat.add_assoc]

/-- Two neighbouring fields of a word make one. -/
theorem extract_glue (w : BitVec 64) (start len₁ len₂ : Nat) :
    w.extractLsb' (start + len₂) len₁ ++ w.extractLsb' start len₂ = w.extractLsb' start (len₁ + len₂) :=
  BitVec.extractLsb'_append_extractLsb'_eq_extractLsb' (x := w) rfl

/-- A field whose bits are all in a mask is 0 where the masked word is 0. -/
theorem extract_of_mask {w m : BitVec 64} (h : w &&& m = 0#64) (start len : Nat)
    (hm : m.extractLsb' start len = BitVec.allOnes len) : w.extractLsb' start len = 0#len := by
  have hz : (w &&& m).extractLsb' start len = 0#len := by rw [h]; simp
  rwa [BitVec.extractLsb'_and, hm, BitVec.and_allOnes] at hz

/-- A word that meets every check of its opcode's row decodes to that row's command. -/
theorem decode_of_row {w : BitVec 64} {row : OpcodeRow} (h : opcodeRow (w.extractLsb' 56 8) = some row)
    (hm : w &&& zeroMask row.format = 0#64) (hc : row.op = .ringWrc → w.extractLsb' 48 2 ≠ 3#2) :
    decode w = .command (assemble row.op w) := by
  unfold decode
  rw [h]
  simp only [hm, ne_eq, not_true_eq_false, if_false]
  rw [if_neg]
  rintro ⟨ho, hch⟩
  exact hc ho hch

/-- Everything that is known of a word that decodes to a command. -/
theorem decode_command {w : BitVec 64} {i : Instr} (h : decode w = .command i) :
    ∃ row ∈ opcodeMap, row.code = w.extractLsb' 56 8 ∧ w &&& zeroMask row.format = 0#64 ∧
      (row.op = .ringWrc → w.extractLsb' 48 2 ≠ 3#2) ∧ i = assemble row.op w := by
  unfold decode at h
  split at h
  · cases h
  · rename_i row hrow
    have hcode : row.code = w.extractLsb' 56 8 := by
      have := List.find?_some hrow
      simpa using this
    split at h
    · cases h
    · rename_i hm
      split at h
      · cases h
      · rename_i hc
        refine ⟨row, List.mem_of_find?_eq_some hrow, hcode, by simpa using hm, fun a b => hc ⟨a, b⟩, ?_⟩
        cases h
        rfl

end Sys2Proof
end

