-- ==== Sys2Proof/Laws/Memory.lean ====
section
/-!
SUPPORT. The laws of the sparse memories: a read after a write, and the canonical form.
-/

namespace Sys2Proof.Machine

theorem mem_cellsFrom {w : Nat} {base : Nat} {vs : List (BitVec w)} {e : Nat × BitVec w}
    (h : e ∈ cellsFrom base vs) : base ≤ e.1 ∧ e.1 < base + vs.length := by
  induction vs generalizing base with
  | nil => simp [cellsFrom] at h
  | cons v vs ih =>
    simp only [cellsFrom, List.mem_cons] at h
    rcases h with rfl | h
    · simp
    · have := ih h
      simp only [List.length_cons]
      omega

theorem cellsFrom_wf {w : Nat} (base : Nat) (vs : List (BitVec w)) : Memory.wf (cellsFrom base vs) := by
  induction vs generalizing base with
  | nil => simp [cellsFrom]
  | cons v vs ih =>
    simp only [cellsFrom, List.pairwise_cons]
    exact ⟨fun e he => (mem_cellsFrom he).1, ih _⟩

theorem read?_cellsFrom {w : Nat} (base : Nat) (vs : List (BitVec w)) (a : Nat) :
    Memory.read? (cellsFrom base vs) a = if base ≤ a then vs[a - base]? else none := by
  induction vs generalizing base with
  | nil => simp [cellsFrom, Memory.read?]
  | cons v vs ih =>
    have ih := ih (base + 1)
    simp only [Memory.read?] at ih ⊢
    by_cases hb : base = a
    · subst hb
      simp [cellsFrom]
    · have hne : (base == a) = false := by simpa using hb
      simp only [cellsFrom, List.find?_cons, hne, ih]
      by_cases hle : base ≤ a
      · have h1 : base + 1 ≤ a := by omega
        have h2 : a - base = (a - (base + 1)) + 1 := by omega
        simp [hle, h1, h2]
      · have h1 : ¬ base + 1 ≤ a := by omega
        simp [hle, h1]

@[simp] theorem read?_nil {w : Nat} (a : Nat) : Memory.read? ([] : Memory w) a = none := rfl

theorem find?_filter_key {w : Nat} (m : Memory w) (q : Nat → Bool) (a : Nat) :
    ((m.filter fun e => q e.1).find? fun e => e.1 == a) =
      if q a = true then m.find? (fun e => e.1 == a) else none := by
  rw [List.find?_filter]
  split
  · rename_i h
    congr 1
    funext e
    by_cases he : e.1 = a <;> simp [he, h]
  · rename_i h
    rw [List.find?_eq_none]
    intro e _
    by_cases he : e.1 = a <;> simp [he, h]

/-- Writing no value changes nothing. -/
@[simp] theorem writeRun_nil {w : Nat} (m : Memory w) : m.writeRun 0 [] = m := by
  simp [Memory.writeRun, cellsFrom]

/-- A read after a write: the written places give the values written, every other place what it held. -/
theorem read?_writeRun {w : Nat} (m : Memory w) (base : Nat) (vs : List (BitVec w)) (a : Nat) :
    (m.writeRun base vs).read? a =
      if base ≤ a ∧ a < base + vs.length then vs[a - base]? else m.read? a := by
  have hlo := find?_filter_key m (fun k => decide (k < base)) a
  have hhi := find?_filter_key m (fun k => decide (base + vs.length ≤ k)) a
  have hmid := read?_cellsFrom base vs a
  simp only [Memory.read?, Memory.writeRun, List.find?_append, decide_eq_true_eq] at hlo hhi hmid ⊢
  rw [hlo, hhi]
  by_cases h1 : a < base
  · have h2 : ¬ (base ≤ a ∧ a < base + vs.length) := by omega
    have h3 : ¬ base ≤ a := by omega
    have h4 : ¬ base + vs.length ≤ a := by omega
    simp only [h3, if_false, Option.map_eq_none_iff] at hmid
    simp [h1, h2, hmid, h4]
  · have h3 : base ≤ a := by omega
    simp only [h3, if_true] at hmid
    by_cases h2 : a < base + vs.length
    · have h4 : ¬ base + vs.length ≤ a := by omega
      simp [h1, h2, h3, h4, hmid]
    · have h4 : base + vs.length ≤ a := by omega
      have h6 : vs[a - base]? = none := by simp; omega
      rw [h6, Option.map_eq_none_iff] at hmid
      simp [h1, h2, h4, hmid]

/-- A write keeps the canonical form. -/
theorem wf_writeRun {w : Nat} {m : Memory w} (h : m.wf) (base : Nat) (vs : List (BitVec w)) :
    (m.writeRun base vs).wf := by
  simp only [Memory.wf, Memory.writeRun, List.pairwise_append]
  refine ⟨⟨List.Pairwise.filter _ h, cellsFrom_wf _ _, ?_⟩, List.Pairwise.filter _ h, ?_⟩
  · intro x hx y hy
    have := mem_cellsFrom hy
    simp only [List.mem_filter, decide_eq_true_eq] at hx
    omega
  · intro x hx y hy
    simp only [List.mem_append, List.mem_filter, decide_eq_true_eq] at hx hy
    rcases hx with hx | hx
    · omega
    · have := mem_cellsFrom hx
      omega

/-- A write below a bound keeps every listed address below it. -/
theorem below_writeRun {w : Nat} {m : Memory w} {bound : Nat} (h : m.Below bound) {base : Nat}
    {vs : List (BitVec w)} (hb : base + vs.length ≤ bound) : (m.writeRun base vs).Below bound := by
  intro e he
  simp only [Memory.writeRun, List.mem_append, List.mem_filter] at he
  rcases he with (he | he) | he
  · exact h e he.1
  · have := mem_cellsFrom he
    omega
  · exact h e he.1

/-- A read of a listed address answers a value below the bound only for addresses below it. -/
theorem read?_eq_none_of_below {w : Nat} {m : Memory w} {bound a : Nat} (h : m.Below bound) (ha : bound ≤ a) :
    m.read? a = none := by
  simp only [Memory.read?, Option.map_eq_none_iff, List.find?_eq_none, beq_iff_eq]
  intro e he heq
  have := h e he
  omega

end Sys2Proof.Machine
end

