-- ==== Sys2Proof/Laws/State.lean ====
section
/-!
SUPPORT. What each named update leaves in each field of the state: one lemma per field per update.
-/

namespace Sys2Proof.Machine

/-! ### State.raise -/

@[simp] theorem raise_mode (s : State) (code : ErrorCode) : (s.raise code).mode = s.mode := rfl
@[simp] theorem raise_err (s : State) (code : ErrorCode) : (s.raise code).err = stickyErr s.err code := rfl
@[simp] theorem raise_built (s : State) (code : ErrorCode) : (s.raise code).built = s.built := rfl
@[simp] theorem raise_shortPrime (s : State) (code : ErrorCode) : (s.raise code).shortPrime = s.shortPrime := rfl
@[simp] theorem raise_ofsWrap (s : State) (code : ErrorCode) : (s.raise code).ofsWrap = s.ofsWrap := rfl
@[simp] theorem raise_width (s : State) (code : ErrorCode) : (s.raise code).width = s.width := rfl
@[simp] theorem raise_latLog2 (s : State) (code : ErrorCode) : (s.raise code).latLog2 = s.latLog2 := rfl
@[simp] theorem raise_defaultColor (s : State) (code : ErrorCode) : (s.raise code).defaultColor = s.defaultColor := rfl
@[simp] theorem raise_kmode (s : State) (code : ErrorCode) : (s.raise code).kmode = s.kmode := rfl
@[simp] theorem raise_kcount (s : State) (code : ErrorCode) : (s.raise code).kcount = s.kcount := rfl
@[simp] theorem raise_palcnt (s : State) (code : ErrorCode) : (s.raise code).palcnt = s.palcnt := rfl
@[simp] theorem raise_kernel (s : State) (code : ErrorCode) : (s.raise code).kernel = s.kernel := rfl
@[simp] theorem raise_pal (s : State) (code : ErrorCode) : (s.raise code).pal = s.pal := rfl
@[simp] theorem raise_ringRam (s : State) (code : ErrorCode) : (s.raise code).ringRam = s.ringRam := rfl
@[simp] theorem raise_ringN (s : State) (code : ErrorCode) : (s.raise code).ringN = s.ringN := rfl
@[simp] theorem raise_cursor (s : State) (code : ErrorCode) : (s.raise code).cursor = s.cursor := rfl
@[simp] theorem raise_fill (s : State) (code : ErrorCode) : (s.raise code).fill = s.fill := rfl
@[simp] theorem raise_kactLen (s : State) (code : ErrorCode) : (s.raise code).kactLen = s.kactLen := rfl
@[simp] theorem raise_kact (s : State) (code : ErrorCode) : (s.raise code).kact = s.kact := rfl
@[simp] theorem raise_used (s : State) (code : ErrorCode) : (s.raise code).used = s.used := rfl
@[simp] theorem raise_slots (s : State) (code : ErrorCode) : (s.raise code).slots = s.slots := rfl
@[simp] theorem raise_cube (s : State) (code : ErrorCode) : (s.raise code).cube = s.cube := rfl
@[simp] theorem raise_inCount (s : State) (code : ErrorCode) : (s.raise code).inCount = s.inCount := rfl
@[simp] theorem raise_outCount (s : State) (code : ErrorCode) : (s.raise code).outCount = s.outCount := rfl
@[simp] theorem raise_out (s : State) (code : ErrorCode) : (s.raise code).out = s.out := rfl
@[simp] theorem raise_params (s : State) (code : ErrorCode) : (s.raise code).params = s.params := rfl
@[simp] theorem raise_response (s : State) (code : ErrorCode) : (s.raise code).response = some ⟨errorNumber code, 0⟩ := rfl
@[simp] theorem raise_inputs (s : State) (code : ErrorCode) : (s.raise code).inputs = s.inputs := rfl
@[simp] theorem raise_member (s : State) (code : ErrorCode) : (s.raise code).member = s.member := rfl
@[simp] theorem raise_draws (s : State) (code : ErrorCode) : (s.raise code).draws = s.draws := rfl

/-! ### State.respond -/

@[simp] theorem respond_mode (s : State) (d : BitVec 64) : (s.respond d).mode = s.mode := rfl
@[simp] theorem respond_err (s : State) (d : BitVec 64) : (s.respond d).err = s.err := rfl
@[simp] theorem respond_built (s : State) (d : BitVec 64) : (s.respond d).built = s.built := rfl
@[simp] theorem respond_shortPrime (s : State) (d : BitVec 64) : (s.respond d).shortPrime = s.shortPrime := rfl
@[simp] theorem respond_ofsWrap (s : State) (d : BitVec 64) : (s.respond d).ofsWrap = s.ofsWrap := rfl
@[simp] theorem respond_width (s : State) (d : BitVec 64) : (s.respond d).width = s.width := rfl
@[simp] theorem respond_latLog2 (s : State) (d : BitVec 64) : (s.respond d).latLog2 = s.latLog2 := rfl
@[simp] theorem respond_defaultColor (s : State) (d : BitVec 64) : (s.respond d).defaultColor = s.defaultColor := rfl
@[simp] theorem respond_kmode (s : State) (d : BitVec 64) : (s.respond d).kmode = s.kmode := rfl
@[simp] theorem respond_kcount (s : State) (d : BitVec 64) : (s.respond d).kcount = s.kcount := rfl
@[simp] theorem respond_palcnt (s : State) (d : BitVec 64) : (s.respond d).palcnt = s.palcnt := rfl
@[simp] theorem respond_kernel (s : State) (d : BitVec 64) : (s.respond d).kernel = s.kernel := rfl
@[simp] theorem respond_pal (s : State) (d : BitVec 64) : (s.respond d).pal = s.pal := rfl
@[simp] theorem respond_ringRam (s : State) (d : BitVec 64) : (s.respond d).ringRam = s.ringRam := rfl
@[simp] theorem respond_ringN (s : State) (d : BitVec 64) : (s.respond d).ringN = s.ringN := rfl
@[simp] theorem respond_cursor (s : State) (d : BitVec 64) : (s.respond d).cursor = s.cursor := rfl
@[simp] theorem respond_fill (s : State) (d : BitVec 64) : (s.respond d).fill = s.fill := rfl
@[simp] theorem respond_kactLen (s : State) (d : BitVec 64) : (s.respond d).kactLen = s.kactLen := rfl
@[simp] theorem respond_kact (s : State) (d : BitVec 64) : (s.respond d).kact = s.kact := rfl
@[simp] theorem respond_used (s : State) (d : BitVec 64) : (s.respond d).used = s.used := rfl
@[simp] theorem respond_slots (s : State) (d : BitVec 64) : (s.respond d).slots = s.slots := rfl
@[simp] theorem respond_cube (s : State) (d : BitVec 64) : (s.respond d).cube = s.cube := rfl
@[simp] theorem respond_inCount (s : State) (d : BitVec 64) : (s.respond d).inCount = s.inCount := rfl
@[simp] theorem respond_outCount (s : State) (d : BitVec 64) : (s.respond d).outCount = s.outCount := rfl
@[simp] theorem respond_out (s : State) (d : BitVec 64) : (s.respond d).out = s.out := rfl
@[simp] theorem respond_params (s : State) (d : BitVec 64) : (s.respond d).params = s.params := rfl
@[simp] theorem respond_response (s : State) (d : BitVec 64) : (s.respond d).response = some ⟨0, d⟩ := rfl
@[simp] theorem respond_inputs (s : State) (d : BitVec 64) : (s.respond d).inputs = s.inputs := rfl
@[simp] theorem respond_member (s : State) (d : BitVec 64) : (s.respond d).member = s.member := rfl
@[simp] theorem respond_draws (s : State) (d : BitVec 64) : (s.respond d).draws = s.draws := rfl

/-! ### State.emit -/

@[simp] theorem emit_mode (s : State) (c : Color) : (s.emit c).mode = s.mode := rfl
@[simp] theorem emit_err (s : State) (c : Color) : (s.emit c).err = s.err := rfl
@[simp] theorem emit_built (s : State) (c : Color) : (s.emit c).built = s.built := rfl
@[simp] theorem emit_shortPrime (s : State) (c : Color) : (s.emit c).shortPrime = s.shortPrime := rfl
@[simp] theorem emit_ofsWrap (s : State) (c : Color) : (s.emit c).ofsWrap = s.ofsWrap := rfl
@[simp] theorem emit_width (s : State) (c : Color) : (s.emit c).width = s.width := rfl
@[simp] theorem emit_latLog2 (s : State) (c : Color) : (s.emit c).latLog2 = s.latLog2 := rfl
@[simp] theorem emit_defaultColor (s : State) (c : Color) : (s.emit c).defaultColor = s.defaultColor := rfl
@[simp] theorem emit_kmode (s : State) (c : Color) : (s.emit c).kmode = s.kmode := rfl
@[simp] theorem emit_kcount (s : State) (c : Color) : (s.emit c).kcount = s.kcount := rfl
@[simp] theorem emit_palcnt (s : State) (c : Color) : (s.emit c).palcnt = s.palcnt := rfl
@[simp] theorem emit_kernel (s : State) (c : Color) : (s.emit c).kernel = s.kernel := rfl
@[simp] theorem emit_pal (s : State) (c : Color) : (s.emit c).pal = s.pal := rfl
@[simp] theorem emit_ringRam (s : State) (c : Color) : (s.emit c).ringRam = s.ringRam := rfl
@[simp] theorem emit_ringN (s : State) (c : Color) : (s.emit c).ringN = s.ringN := rfl
@[simp] theorem emit_cursor (s : State) (c : Color) : (s.emit c).cursor = s.cursor := rfl
@[simp] theorem emit_fill (s : State) (c : Color) : (s.emit c).fill = s.fill := rfl
@[simp] theorem emit_kactLen (s : State) (c : Color) : (s.emit c).kactLen = s.kactLen := rfl
@[simp] theorem emit_kact (s : State) (c : Color) : (s.emit c).kact = s.kact := rfl
@[simp] theorem emit_used (s : State) (c : Color) : (s.emit c).used = s.used := rfl
@[simp] theorem emit_slots (s : State) (c : Color) : (s.emit c).slots = s.slots := rfl
@[simp] theorem emit_cube (s : State) (c : Color) : (s.emit c).cube = s.cube := rfl
@[simp] theorem emit_inCount (s : State) (c : Color) : (s.emit c).inCount = s.inCount := rfl
@[simp] theorem emit_outCount (s : State) (c : Color) : (s.emit c).outCount = s.outCount := rfl
@[simp] theorem emit_out (s : State) (c : Color) : (s.emit c).out = s.out ++ [c] := rfl
@[simp] theorem emit_params (s : State) (c : Color) : (s.emit c).params = s.params := rfl
@[simp] theorem emit_response (s : State) (c : Color) : (s.emit c).response = s.response := rfl
@[simp] theorem emit_inputs (s : State) (c : Color) : (s.emit c).inputs = s.inputs := rfl
@[simp] theorem emit_member (s : State) (c : Color) : (s.emit c).member = s.member := rfl
@[simp] theorem emit_draws (s : State) (c : Color) : (s.emit c).draws = s.draws := rfl

/-! ### State.ringWrite -/

@[simp] theorem ringWrite_mode (s : State) (j : Nat) (a : Acc) : (s.ringWrite j a).mode = s.mode := rfl
@[simp] theorem ringWrite_err (s : State) (j : Nat) (a : Acc) : (s.ringWrite j a).err = s.err := rfl
@[simp] theorem ringWrite_built (s : State) (j : Nat) (a : Acc) : (s.ringWrite j a).built = s.built := rfl
@[simp] theorem ringWrite_shortPrime (s : State) (j : Nat) (a : Acc) : (s.ringWrite j a).shortPrime = s.shortPrime := rfl
@[simp] theorem ringWrite_ofsWrap (s : State) (j : Nat) (a : Acc) : (s.ringWrite j a).ofsWrap = s.ofsWrap := rfl
@[simp] theorem ringWrite_width (s : State) (j : Nat) (a : Acc) : (s.ringWrite j a).width = s.width := rfl
@[simp] theorem ringWrite_latLog2 (s : State) (j : Nat) (a : Acc) : (s.ringWrite j a).latLog2 = s.latLog2 := rfl
@[simp] theorem ringWrite_defaultColor (s : State) (j : Nat) (a : Acc) : (s.ringWrite j a).defaultColor = s.defaultColor := rfl
@[simp] theorem ringWrite_kmode (s : State) (j : Nat) (a : Acc) : (s.ringWrite j a).kmode = s.kmode := rfl
@[simp] theorem ringWrite_kcount (s : State) (j : Nat) (a : Acc) : (s.ringWrite j a).kcount = s.kcount := rfl
@[simp] theorem ringWrite_palcnt (s : State) (j : Nat) (a : Acc) : (s.ringWrite j a).palcnt = s.palcnt := rfl
@[simp] theorem ringWrite_kernel (s : State) (j : Nat) (a : Acc) : (s.ringWrite j a).kernel = s.kernel := rfl
@[simp] theorem ringWrite_pal (s : State) (j : Nat) (a : Acc) : (s.ringWrite j a).pal = s.pal := rfl
@[simp] theorem ringWrite_ringRam (s : State) (j : Nat) (a : Acc) : (s.ringWrite j a).ringRam = s.ringRam.writeRun (ringKey j 0) [a.r, a.g, a.b] := rfl
@[simp] theorem ringWrite_ringN (s : State) (j : Nat) (a : Acc) : (s.ringWrite j a).ringN = s.ringN := rfl
@[simp] theorem ringWrite_cursor (s : State) (j : Nat) (a : Acc) : (s.ringWrite j a).cursor = s.cursor := rfl
@[simp] theorem ringWrite_fill (s : State) (j : Nat) (a : Acc) : (s.ringWrite j a).fill = s.fill := rfl
@[simp] theorem ringWrite_kactLen (s : State) (j : Nat) (a : Acc) : (s.ringWrite j a).kactLen = s.kactLen := rfl
@[simp] theorem ringWrite_kact (s : State) (j : Nat) (a : Acc) : (s.ringWrite j a).kact = s.kact := rfl
@[simp] theorem ringWrite_used (s : State) (j : Nat) (a : Acc) : (s.ringWrite j a).used = s.used := rfl
@[simp] theorem ringWrite_slots (s : State) (j : Nat) (a : Acc) : (s.ringWrite j a).slots = s.slots := rfl
@[simp] theorem ringWrite_cube (s : State) (j : Nat) (a : Acc) : (s.ringWrite j a).cube = s.cube := rfl
@[simp] theorem ringWrite_inCount (s : State) (j : Nat) (a : Acc) : (s.ringWrite j a).inCount = s.inCount := rfl
@[simp] theorem ringWrite_outCount (s : State) (j : Nat) (a : Acc) : (s.ringWrite j a).outCount = s.outCount := rfl
@[simp] theorem ringWrite_out (s : State) (j : Nat) (a : Acc) : (s.ringWrite j a).out = s.out := rfl
@[simp] theorem ringWrite_params (s : State) (j : Nat) (a : Acc) : (s.ringWrite j a).params = s.params := rfl
@[simp] theorem ringWrite_response (s : State) (j : Nat) (a : Acc) : (s.ringWrite j a).response = s.response := rfl
@[simp] theorem ringWrite_inputs (s : State) (j : Nat) (a : Acc) : (s.ringWrite j a).inputs = s.inputs := rfl
@[simp] theorem ringWrite_member (s : State) (j : Nat) (a : Acc) : (s.ringWrite j a).member = s.member := rfl
@[simp] theorem ringWrite_draws (s : State) (j : Nat) (a : Acc) : (s.ringWrite j a).draws = s.draws := rfl

/-! ### State.ringWriteChannel -/

@[simp] theorem ringWriteChannel_mode (s : State) (j ch : Nat) (v : BitVec 16) : (s.ringWriteChannel j ch v).mode = s.mode := rfl
@[simp] theorem ringWriteChannel_err (s : State) (j ch : Nat) (v : BitVec 16) : (s.ringWriteChannel j ch v).err = s.err := rfl
@[simp] theorem ringWriteChannel_built (s : State) (j ch : Nat) (v : BitVec 16) : (s.ringWriteChannel j ch v).built = s.built := rfl
@[simp] theorem ringWriteChannel_shortPrime (s : State) (j ch : Nat) (v : BitVec 16) : (s.ringWriteChannel j ch v).shortPrime = s.shortPrime := rfl
@[simp] theorem ringWriteChannel_ofsWrap (s : State) (j ch : Nat) (v : BitVec 16) : (s.ringWriteChannel j ch v).ofsWrap = s.ofsWrap := rfl
@[simp] theorem ringWriteChannel_width (s : State) (j ch : Nat) (v : BitVec 16) : (s.ringWriteChannel j ch v).width = s.width := rfl
@[simp] theorem ringWriteChannel_latLog2 (s : State) (j ch : Nat) (v : BitVec 16) : (s.ringWriteChannel j ch v).latLog2 = s.latLog2 := rfl
@[simp] theorem ringWriteChannel_defaultColor (s : State) (j ch : Nat) (v : BitVec 16) : (s.ringWriteChannel j ch v).defaultColor = s.defaultColor := rfl
@[simp] theorem ringWriteChannel_kmode (s : State) (j ch : Nat) (v : BitVec 16) : (s.ringWriteChannel j ch v).kmode = s.kmode := rfl
@[simp] theorem ringWriteChannel_kcount (s : State) (j ch : Nat) (v : BitVec 16) : (s.ringWriteChannel j ch v).kcount = s.kcount := rfl
@[simp] theorem ringWriteChannel_palcnt (s : State) (j ch : Nat) (v : BitVec 16) : (s.ringWriteChannel j ch v).palcnt = s.palcnt := rfl
@[simp] theorem ringWriteChannel_kernel (s : State) (j ch : Nat) (v : BitVec 16) : (s.ringWriteChannel j ch v).kernel = s.kernel := rfl
@[simp] theorem ringWriteChannel_pal (s : State) (j ch : Nat) (v : BitVec 16) : (s.ringWriteChannel j ch v).pal = s.pal := rfl
@[simp] theorem ringWriteChannel_ringRam (s : State) (j ch : Nat) (v : BitVec 16) : (s.ringWriteChannel j ch v).ringRam = s.ringRam.writeRun (ringKey j ch) [v] := rfl
@[simp] theorem ringWriteChannel_ringN (s : State) (j ch : Nat) (v : BitVec 16) : (s.ringWriteChannel j ch v).ringN = s.ringN := rfl
@[simp] theorem ringWriteChannel_cursor (s : State) (j ch : Nat) (v : BitVec 16) : (s.ringWriteChannel j ch v).cursor = s.cursor := rfl
@[simp] theorem ringWriteChannel_fill (s : State) (j ch : Nat) (v : BitVec 16) : (s.ringWriteChannel j ch v).fill = s.fill := rfl
@[simp] theorem ringWriteChannel_kactLen (s : State) (j ch : Nat) (v : BitVec 16) : (s.ringWriteChannel j ch v).kactLen = s.kactLen := rfl
@[simp] theorem ringWriteChannel_kact (s : State) (j ch : Nat) (v : BitVec 16) : (s.ringWriteChannel j ch v).kact = s.kact := rfl
@[simp] theorem ringWriteChannel_used (s : State) (j ch : Nat) (v : BitVec 16) : (s.ringWriteChannel j ch v).used = s.used := rfl
@[simp] theorem ringWriteChannel_slots (s : State) (j ch : Nat) (v : BitVec 16) : (s.ringWriteChannel j ch v).slots = s.slots := rfl
@[simp] theorem ringWriteChannel_cube (s : State) (j ch : Nat) (v : BitVec 16) : (s.ringWriteChannel j ch v).cube = s.cube := rfl
@[simp] theorem ringWriteChannel_inCount (s : State) (j ch : Nat) (v : BitVec 16) : (s.ringWriteChannel j ch v).inCount = s.inCount := rfl
@[simp] theorem ringWriteChannel_outCount (s : State) (j ch : Nat) (v : BitVec 16) : (s.ringWriteChannel j ch v).outCount = s.outCount := rfl
@[simp] theorem ringWriteChannel_out (s : State) (j ch : Nat) (v : BitVec 16) : (s.ringWriteChannel j ch v).out = s.out := rfl
@[simp] theorem ringWriteChannel_params (s : State) (j ch : Nat) (v : BitVec 16) : (s.ringWriteChannel j ch v).params = s.params := rfl
@[simp] theorem ringWriteChannel_response (s : State) (j ch : Nat) (v : BitVec 16) : (s.ringWriteChannel j ch v).response = s.response := rfl
@[simp] theorem ringWriteChannel_inputs (s : State) (j ch : Nat) (v : BitVec 16) : (s.ringWriteChannel j ch v).inputs = s.inputs := rfl
@[simp] theorem ringWriteChannel_member (s : State) (j ch : Nat) (v : BitVec 16) : (s.ringWriteChannel j ch v).member = s.member := rfl
@[simp] theorem ringWriteChannel_draws (s : State) (j ch : Nat) (v : BitVec 16) : (s.ringWriteChannel j ch v).draws = s.draws := rfl

/-! ### State.ringFill -/

@[simp] theorem ringFill_mode (s : State) (n : Nat) (a : Acc) : (s.ringFill n a).mode = s.mode := rfl
@[simp] theorem ringFill_err (s : State) (n : Nat) (a : Acc) : (s.ringFill n a).err = s.err := rfl
@[simp] theorem ringFill_built (s : State) (n : Nat) (a : Acc) : (s.ringFill n a).built = s.built := rfl
@[simp] theorem ringFill_shortPrime (s : State) (n : Nat) (a : Acc) : (s.ringFill n a).shortPrime = s.shortPrime := rfl
@[simp] theorem ringFill_ofsWrap (s : State) (n : Nat) (a : Acc) : (s.ringFill n a).ofsWrap = s.ofsWrap := rfl
@[simp] theorem ringFill_width (s : State) (n : Nat) (a : Acc) : (s.ringFill n a).width = s.width := rfl
@[simp] theorem ringFill_latLog2 (s : State) (n : Nat) (a : Acc) : (s.ringFill n a).latLog2 = s.latLog2 := rfl
@[simp] theorem ringFill_defaultColor (s : State) (n : Nat) (a : Acc) : (s.ringFill n a).defaultColor = s.defaultColor := rfl
@[simp] theorem ringFill_kmode (s : State) (n : Nat) (a : Acc) : (s.ringFill n a).kmode = s.kmode := rfl
@[simp] theorem ringFill_kcount (s : State) (n : Nat) (a : Acc) : (s.ringFill n a).kcount = s.kcount := rfl
@[simp] theorem ringFill_palcnt (s : State) (n : Nat) (a : Acc) : (s.ringFill n a).palcnt = s.palcnt := rfl
@[simp] theorem ringFill_kernel (s : State) (n : Nat) (a : Acc) : (s.ringFill n a).kernel = s.kernel := rfl
@[simp] theorem ringFill_pal (s : State) (n : Nat) (a : Acc) : (s.ringFill n a).pal = s.pal := rfl
@[simp] theorem ringFill_ringRam (s : State) (n : Nat) (a : Acc) : (s.ringFill n a).ringRam = s.ringRam.writeRun 0 (List.replicate (n + 1) [a.r, a.g, a.b]).flatten := rfl
@[simp] theorem ringFill_ringN (s : State) (n : Nat) (a : Acc) : (s.ringFill n a).ringN = s.ringN := rfl
@[simp] theorem ringFill_cursor (s : State) (n : Nat) (a : Acc) : (s.ringFill n a).cursor = s.cursor := rfl
@[simp] theorem ringFill_fill (s : State) (n : Nat) (a : Acc) : (s.ringFill n a).fill = s.fill := rfl
@[simp] theorem ringFill_kactLen (s : State) (n : Nat) (a : Acc) : (s.ringFill n a).kactLen = s.kactLen := rfl
@[simp] theorem ringFill_kact (s : State) (n : Nat) (a : Acc) : (s.ringFill n a).kact = s.kact := rfl
@[simp] theorem ringFill_used (s : State) (n : Nat) (a : Acc) : (s.ringFill n a).used = s.used := rfl
@[simp] theorem ringFill_slots (s : State) (n : Nat) (a : Acc) : (s.ringFill n a).slots = s.slots := rfl
@[simp] theorem ringFill_cube (s : State) (n : Nat) (a : Acc) : (s.ringFill n a).cube = s.cube := rfl
@[simp] theorem ringFill_inCount (s : State) (n : Nat) (a : Acc) : (s.ringFill n a).inCount = s.inCount := rfl
@[simp] theorem ringFill_outCount (s : State) (n : Nat) (a : Acc) : (s.ringFill n a).outCount = s.outCount := rfl
@[simp] theorem ringFill_out (s : State) (n : Nat) (a : Acc) : (s.ringFill n a).out = s.out := rfl
@[simp] theorem ringFill_params (s : State) (n : Nat) (a : Acc) : (s.ringFill n a).params = s.params := rfl
@[simp] theorem ringFill_response (s : State) (n : Nat) (a : Acc) : (s.ringFill n a).response = s.response := rfl
@[simp] theorem ringFill_inputs (s : State) (n : Nat) (a : Acc) : (s.ringFill n a).inputs = s.inputs := rfl
@[simp] theorem ringFill_member (s : State) (n : Nat) (a : Acc) : (s.ringFill n a).member = s.member := rfl
@[simp] theorem ringFill_draws (s : State) (n : Nat) (a : Acc) : (s.ringFill n a).draws = s.draws := rfl

/-! ### State.ringIndex -/

@[simp] theorem ringIndex_mode (s : State) (off : BitVec 16) : (s.ringIndex off).2.mode = s.mode := rfl
@[simp] theorem ringIndex_err (s : State) (off : BitVec 16) : (s.ringIndex off).2.err = s.err := rfl
@[simp] theorem ringIndex_built (s : State) (off : BitVec 16) : (s.ringIndex off).2.built = s.built := rfl
@[simp] theorem ringIndex_shortPrime (s : State) (off : BitVec 16) : (s.ringIndex off).2.shortPrime = s.shortPrime := rfl
@[simp] theorem ringIndex_ofsWrap (s : State) (off : BitVec 16) : (s.ringIndex off).2.ofsWrap = wrapFlag s.ofsWrap off s.ringN := rfl
@[simp] theorem ringIndex_width (s : State) (off : BitVec 16) : (s.ringIndex off).2.width = s.width := rfl
@[simp] theorem ringIndex_latLog2 (s : State) (off : BitVec 16) : (s.ringIndex off).2.latLog2 = s.latLog2 := rfl
@[simp] theorem ringIndex_defaultColor (s : State) (off : BitVec 16) : (s.ringIndex off).2.defaultColor = s.defaultColor := rfl
@[simp] theorem ringIndex_kmode (s : State) (off : BitVec 16) : (s.ringIndex off).2.kmode = s.kmode := rfl
@[simp] theorem ringIndex_kcount (s : State) (off : BitVec 16) : (s.ringIndex off).2.kcount = s.kcount := rfl
@[simp] theorem ringIndex_palcnt (s : State) (off : BitVec 16) : (s.ringIndex off).2.palcnt = s.palcnt := rfl
@[simp] theorem ringIndex_kernel (s : State) (off : BitVec 16) : (s.ringIndex off).2.kernel = s.kernel := rfl
@[simp] theorem ringIndex_pal (s : State) (off : BitVec 16) : (s.ringIndex off).2.pal = s.pal := rfl
@[simp] theorem ringIndex_ringRam (s : State) (off : BitVec 16) : (s.ringIndex off).2.ringRam = s.ringRam := rfl
@[simp] theorem ringIndex_ringN (s : State) (off : BitVec 16) : (s.ringIndex off).2.ringN = s.ringN := rfl
@[simp] theorem ringIndex_cursor (s : State) (off : BitVec 16) : (s.ringIndex off).2.cursor = s.cursor := rfl
@[simp] theorem ringIndex_fill (s : State) (off : BitVec 16) : (s.ringIndex off).2.fill = s.fill := rfl
@[simp] theorem ringIndex_kactLen (s : State) (off : BitVec 16) : (s.ringIndex off).2.kactLen = s.kactLen := rfl
@[simp] theorem ringIndex_kact (s : State) (off : BitVec 16) : (s.ringIndex off).2.kact = s.kact := rfl
@[simp] theorem ringIndex_used (s : State) (off : BitVec 16) : (s.ringIndex off).2.used = s.used := rfl
@[simp] theorem ringIndex_slots (s : State) (off : BitVec 16) : (s.ringIndex off).2.slots = s.slots := rfl
@[simp] theorem ringIndex_cube (s : State) (off : BitVec 16) : (s.ringIndex off).2.cube = s.cube := rfl
@[simp] theorem ringIndex_inCount (s : State) (off : BitVec 16) : (s.ringIndex off).2.inCount = s.inCount := rfl
@[simp] theorem ringIndex_outCount (s : State) (off : BitVec 16) : (s.ringIndex off).2.outCount = s.outCount := rfl
@[simp] theorem ringIndex_out (s : State) (off : BitVec 16) : (s.ringIndex off).2.out = s.out := rfl
@[simp] theorem ringIndex_params (s : State) (off : BitVec 16) : (s.ringIndex off).2.params = s.params := rfl
@[simp] theorem ringIndex_response (s : State) (off : BitVec 16) : (s.ringIndex off).2.response = s.response := rfl
@[simp] theorem ringIndex_inputs (s : State) (off : BitVec 16) : (s.ringIndex off).2.inputs = s.inputs := rfl
@[simp] theorem ringIndex_member (s : State) (off : BitVec 16) : (s.ringIndex off).2.member = s.member := rfl
@[simp] theorem ringIndex_draws (s : State) (off : BitVec 16) : (s.ringIndex off).2.draws = s.draws := rfl

/-! ### State.advance -/

@[simp] theorem advance_mode (s : State) : (s.advance).mode = s.mode := rfl
@[simp] theorem advance_err (s : State) : (s.advance).err = s.err := rfl
@[simp] theorem advance_built (s : State) : (s.advance).built = s.built := rfl
@[simp] theorem advance_shortPrime (s : State) : (s.advance).shortPrime = s.shortPrime := rfl
@[simp] theorem advance_ofsWrap (s : State) : (s.advance).ofsWrap = s.ofsWrap := rfl
@[simp] theorem advance_width (s : State) : (s.advance).width = s.width := rfl
@[simp] theorem advance_latLog2 (s : State) : (s.advance).latLog2 = s.latLog2 := rfl
@[simp] theorem advance_defaultColor (s : State) : (s.advance).defaultColor = s.defaultColor := rfl
@[simp] theorem advance_kmode (s : State) : (s.advance).kmode = s.kmode := rfl
@[simp] theorem advance_kcount (s : State) : (s.advance).kcount = s.kcount := rfl
@[simp] theorem advance_palcnt (s : State) : (s.advance).palcnt = s.palcnt := rfl
@[simp] theorem advance_kernel (s : State) : (s.advance).kernel = s.kernel := rfl
@[simp] theorem advance_pal (s : State) : (s.advance).pal = s.pal := rfl
@[simp] theorem advance_ringRam (s : State) : (s.advance).ringRam = s.ringRam := rfl
@[simp] theorem advance_ringN (s : State) : (s.advance).ringN = s.ringN := rfl
@[simp] theorem advance_cursor (s : State) : (s.advance).cursor = BitVec.ofNat 16 ((s.cursor.toNat + 1) % s.ringLen) := rfl
@[simp] theorem advance_fill (s : State) : (s.advance).fill = s.fill := rfl
@[simp] theorem advance_kactLen (s : State) : (s.advance).kactLen = s.kactLen := rfl
@[simp] theorem advance_kact (s : State) : (s.advance).kact = s.kact := rfl
@[simp] theorem advance_used (s : State) : (s.advance).used = s.used := rfl
@[simp] theorem advance_slots (s : State) : (s.advance).slots = s.slots := rfl
@[simp] theorem advance_cube (s : State) : (s.advance).cube = s.cube := rfl
@[simp] theorem advance_inCount (s : State) : (s.advance).inCount = s.inCount := rfl
@[simp] theorem advance_outCount (s : State) : (s.advance).outCount = s.outCount := rfl
@[simp] theorem advance_out (s : State) : (s.advance).out = s.out := rfl
@[simp] theorem advance_params (s : State) : (s.advance).params = s.params := rfl
@[simp] theorem advance_response (s : State) : (s.advance).response = s.response := rfl
@[simp] theorem advance_inputs (s : State) : (s.advance).inputs = s.inputs := rfl
@[simp] theorem advance_member (s : State) : (s.advance).member = s.member := rfl
@[simp] theorem advance_draws (s : State) : (s.advance).draws = s.draws := rfl

/-! ### State.invalidateBuild -/

@[simp] theorem invalidateBuild_mode (s : State) : (s.invalidateBuild).mode = s.mode := rfl
@[simp] theorem invalidateBuild_err (s : State) : (s.invalidateBuild).err = s.err := rfl
@[simp] theorem invalidateBuild_built (s : State) : (s.invalidateBuild).built = false := rfl
@[simp] theorem invalidateBuild_shortPrime (s : State) : (s.invalidateBuild).shortPrime = s.shortPrime := rfl
@[simp] theorem invalidateBuild_ofsWrap (s : State) : (s.invalidateBuild).ofsWrap = s.ofsWrap := rfl
@[simp] theorem invalidateBuild_width (s : State) : (s.invalidateBuild).width = s.width := rfl
@[simp] theorem invalidateBuild_latLog2 (s : State) : (s.invalidateBuild).latLog2 = s.latLog2 := rfl
@[simp] theorem invalidateBuild_defaultColor (s : State) : (s.invalidateBuild).defaultColor = s.defaultColor := rfl
@[simp] theorem invalidateBuild_kmode (s : State) : (s.invalidateBuild).kmode = s.kmode := rfl
@[simp] theorem invalidateBuild_kcount (s : State) : (s.invalidateBuild).kcount = s.kcount := rfl
@[simp] theorem invalidateBuild_palcnt (s : State) : (s.invalidateBuild).palcnt = s.palcnt := rfl
@[simp] theorem invalidateBuild_kernel (s : State) : (s.invalidateBuild).kernel = s.kernel := rfl
@[simp] theorem invalidateBuild_pal (s : State) : (s.invalidateBuild).pal = s.pal := rfl
@[simp] theorem invalidateBuild_ringRam (s : State) : (s.invalidateBuild).ringRam = s.ringRam := rfl
@[simp] theorem invalidateBuild_ringN (s : State) : (s.invalidateBuild).ringN = s.ringN := rfl
@[simp] theorem invalidateBuild_cursor (s : State) : (s.invalidateBuild).cursor = s.cursor := rfl
@[simp] theorem invalidateBuild_fill (s : State) : (s.invalidateBuild).fill = s.fill := rfl
@[simp] theorem invalidateBuild_kactLen (s : State) : (s.invalidateBuild).kactLen = s.kactLen := rfl
@[simp] theorem invalidateBuild_kact (s : State) : (s.invalidateBuild).kact = s.kact := rfl
@[simp] theorem invalidateBuild_used (s : State) : (s.invalidateBuild).used = 0 := rfl
@[simp] theorem invalidateBuild_slots (s : State) : (s.invalidateBuild).slots = Vector.replicate 16 MapSlot.empty := rfl
@[simp] theorem invalidateBuild_cube (s : State) : (s.invalidateBuild).cube = s.cube := rfl
@[simp] theorem invalidateBuild_inCount (s : State) : (s.invalidateBuild).inCount = s.inCount := rfl
@[simp] theorem invalidateBuild_outCount (s : State) : (s.invalidateBuild).outCount = s.outCount := rfl
@[simp] theorem invalidateBuild_out (s : State) : (s.invalidateBuild).out = s.out := rfl
@[simp] theorem invalidateBuild_params (s : State) : (s.invalidateBuild).params = s.params := rfl
@[simp] theorem invalidateBuild_response (s : State) : (s.invalidateBuild).response = s.response := rfl
@[simp] theorem invalidateBuild_inputs (s : State) : (s.invalidateBuild).inputs = s.inputs := rfl
@[simp] theorem invalidateBuild_member (s : State) : (s.invalidateBuild).member = s.member := rfl
@[simp] theorem invalidateBuild_draws (s : State) : (s.invalidateBuild).draws = s.draws := rfl

end Sys2Proof.Machine
end

