-- ==== Sys2Proof/Laws/Ring.lean ====
section
/-!
SUPPORT. What reading, writing and filling the ring do to the slots and to the rest of the state.
-/

namespace Sys2Proof.Machine

theorem holds_unique {s : State} {j : Nat} {a b : Acc} (ha : s.SlotHolds j a) (hb : s.SlotHolds j b) : a = b := by
  obtain ⟨a1, a2, a3⟩ := ha
  obtain ⟨b1, b2, b3⟩ := hb
  rw [a1] at b1; rw [a2] at b2; rw [a3] at b3
  cases a; cases b
  simp_all

/-- Reading a slot changes nothing but the count of drawn values. -/
theorem ringRead_snd (s : State) (j : Nat) : (s.ringRead j).2 = { s with draws := (s.ringRead j).2.draws } := by
  unfold State.ringRead
  split <;> rfl

/-- Reading a wholly written slot answers what it holds and changes nothing. -/
theorem ringRead_of_holds {s : State} {j : Nat} {a : Acc} (h : s.SlotHolds j a) : s.ringRead j = (a, s) := by
  obtain ⟨h0, h1, h2⟩ := h
  unfold State.ringRead
  rw [h0, h1, h2]

/-- What a slot write does to every channel of the ring RAM. -/
theorem read?_ringWrite (s : State) (j : Nat) (a : Acc) (k : Nat) :
    (s.ringWrite j a).ringRam.read? k =
      if k = 3 * j then some a.r else if k = 3 * j + 1 then some a.g else if k = 3 * j + 2 then some a.b
      else s.ringRam.read? k := by
  simp only [ringWrite_ringRam, read?_writeRun, ringKey, List.length_cons, List.length_nil, Nat.add_zero]
  by_cases h : 3 * j ≤ k ∧ k < 3 * j + (0 + 1 + 1 + 1)
  · have : k = 3 * j ∨ k = 3 * j + 1 ∨ k = 3 * j + 2 := by omega
    rcases this with rfl | rfl | rfl <;> simp
  · have h0 : k ≠ 3 * j := by omega
    have h1 : k ≠ 3 * j + 1 := by omega
    have h2 : k ≠ 3 * j + 2 := by omega
    simp only [h, h0, h1, h2, if_false]

/-- What a channel write does to every channel of the ring RAM. -/
theorem read?_ringWriteChannel (s : State) (j ch : Nat) (v : BitVec 16) (k : Nat) :
    (s.ringWriteChannel j ch v).ringRam.read? k = if k = 3 * j + ch then some v else s.ringRam.read? k := by
  simp only [ringWriteChannel_ringRam, read?_writeRun, ringKey, List.length_cons, List.length_nil]
  by_cases h : k = 3 * j + ch
  · subst h; simp
  · have h' : ¬ (3 * j + ch ≤ k ∧ k < 3 * j + ch + (0 + 1)) := by omega
    simp only [h, h', if_false]

theorem length_flatten_triples {n : Nat} (a : Acc) : (List.replicate n [a.r, a.g, a.b]).flatten.length = 3 * n := by
  simp [List.length_flatten]; omega

theorem getElem?_flatten_triples (n : Nat) (a : Acc) (k : Nat) (h : k < 3 * n) :
    (List.replicate n [a.r, a.g, a.b]).flatten[k]? =
      some (if k % 3 = 0 then a.r else if k % 3 = 1 then a.g else a.b) := by
  induction n generalizing k with
  | zero => omega
  | succ n ih =>
    simp only [List.replicate_succ, List.flatten_cons]
    match k with
    | 0 => rfl
    | 1 => rfl
    | 2 => rfl
    | k + 3 =>
      have := ih k (by omega)
      simp only [List.cons_append, List.nil_append, List.getElem?_cons_succ]
      rw [this]
      simp

/-- What filling slots 0..n does to every channel of the ring RAM. -/
theorem read?_ringFill (s : State) (n : Nat) (a : Acc) (k : Nat) :
    (s.ringFill n a).ringRam.read? k =
      if k < 3 * (n + 1) then some (if k % 3 = 0 then a.r else if k % 3 = 1 then a.g else a.b)
      else s.ringRam.read? k := by
  simp only [ringFill_ringRam, read?_writeRun, length_flatten_triples, Nat.zero_le, true_and, Nat.zero_add,
    Nat.sub_zero]
  split
  · rename_i h
    exact getElem?_flatten_triples _ _ _ h
  · rfl

/-- Every slot after a slot write. -/
theorem holds_ringWrite (s : State) (i j : Nat) (a b : Acc) :
    (s.ringWrite j a).SlotHolds i b ↔ if i = j then a = b else s.SlotHolds i b := by
  simp only [State.SlotHolds, read?_ringWrite, ringKey, Nat.add_zero]
  by_cases h : i = j
  · subst h
    cases a; cases b
    simp
  · have e : ∀ x y : Nat, x < 3 → y < 3 → 3 * i + x ≠ 3 * j + y := by intros; omega
    have e00 := e 0 0; have e01 := e 0 1; have e02 := e 0 2
    have e10 := e 1 0; have e11 := e 1 1; have e12 := e 1 2
    have e20 := e 2 0; have e21 := e 2 1; have e22 := e 2 2
    simp_all

/-- Every slot after filling slots 0..n. -/
theorem holds_ringFill (s : State) (n i : Nat) (a b : Acc) :
    (s.ringFill n a).SlotHolds i b ↔ if i ≤ n then a = b else s.SlotHolds i b := by
  simp only [State.SlotHolds, read?_ringFill, ringKey, Nat.add_zero]
  by_cases h : i ≤ n
  · have h0 : 3 * i < 3 * (n + 1) := by omega
    have h1 : 3 * i + 1 < 3 * (n + 1) := by omega
    have h2 : 3 * i + 2 < 3 * (n + 1) := by omega
    have m0 : (3 * i) % 3 = 0 := by omega
    have m1 : (3 * i + 1) % 3 = 1 := by omega
    have m2 : (3 * i + 2) % 3 = 2 := by omega
    cases a; cases b
    simp [h, h0, h1, h2, m0, m1, m2]
  · have h0 : ¬ 3 * i < 3 * (n + 1) := by omega
    have h1 : ¬ 3 * i + 1 < 3 * (n + 1) := by omega
    have h2 : ¬ 3 * i + 2 < 3 * (n + 1) := by omega
    simp [h, h0, h1, h2]

/-- The ring seen as a function, after one slot write. -/
theorem ringIs_ringWrite {s : State} {f : Nat → Acc} (h : s.RingIs f) (j : Nat) (a : Acc) :
    (s.ringWrite j a).RingIs (putSlot f j a) := by
  intro i hi
  rw [holds_ringWrite]
  unfold putSlot
  split
  · rfl
  · exact h i hi

theorem phys_le (s : State) (off : Nat) : s.phys off ≤ s.ringN.toNat := by
  have : s.phys off < s.ringLen := Nat.mod_lt _ (by simp [State.ringLen])
  simp only [State.ringLen] at this
  omega

/-- RING_ADDTO on a live slot of a wholly written ring. -/
theorem ringAddTo_of_ringIs {s : State} {f : Nat → Acc} (h : s.RingIs f) {j : Nat} (hj : j ≤ s.ringN.toNat) (t : Acc) :
    s.ringAddTo j t = s.ringWrite j (accAdd (f j) t) := by
  unfold State.ringAddTo
  rw [ringRead_of_holds (h j hj)]

/-- RING_ADDTO changes the ring RAM and, where it draws, the count of drawn values. -/
theorem ringAddTo_frame (s : State) (j : Nat) (t : Acc) :
    s.ringAddTo j t = { s with ringRam := (s.ringAddTo j t).ringRam, draws := (s.ringAddTo j t).draws } := by
  unfold State.ringAddTo
  rw [ringRead_snd]
  rfl

end Sys2Proof.Machine
end

