-- ==== Sys2Proof/Laws/Engine.lean ====
section
/-!
SUPPORT. What the diffusion step and the drain do: everything they can change, and, on a wholly written ring, exactly
the ring of 44_engine.md R246.
-/

namespace Sys2Proof.Machine

/-- One kernel term changes the ring RAM and, where it draws, the count of drawn values. -/
theorem diffuseTerm_frame (h : Nat) (e : Err) (s : State) (t : KernelTerm) :
    diffuseTerm h e s t =
      { s with ringRam := (diffuseTerm h e s t).ringRam, draws := (diffuseTerm h e s t).draws } := by
  unfold diffuseTerm
  split
  · rfl
  · rw [ringAddTo_frame]

/-- The kernel's terms change the ring RAM and, where they draw, the count of drawn values. -/
theorem diffuse_frame (h : Nat) (e : Err) (terms : List KernelTerm) (s : State) :
    terms.foldl (diffuseTerm h e) s =
      { s with
        ringRam := (terms.foldl (diffuseTerm h e) s).ringRam
        draws := (terms.foldl (diffuseTerm h e) s).draws } := by
  induction terms generalizing s with
  | nil => rfl
  | cons t terms ih =>
    rw [List.foldl_cons, ih]
    rw [diffuseTerm_frame h e s t]

/-- On a wholly written ring one kernel term is one slot write, or nothing. -/
theorem diffuseTerm_of_ringIs {s : State} {f : Nat → Acc} (hf : s.RingIs f) (h : Nat) (e : Err) (t : KernelTerm) :
    diffuseTerm h e s t = { s with ringRam := (diffuseTerm h e s t).ringRam } ∧
      (diffuseTerm h e s t).RingIs (diffused s.ringLen h e [t] f) := by
  unfold diffuseTerm diffused
  simp only [List.foldl_cons, List.foldl_nil]
  split
  · exact ⟨rfl, hf⟩
  · have hlt : (h + t.off) % s.ringLen ≤ s.ringN.toNat := by
      have : (h + t.off) % s.ringLen < s.ringLen := Nat.mod_lt _ (by simp [State.ringLen])
      simp only [State.ringLen] at this ⊢
      omega
    rw [ringAddTo_of_ringIs hf hlt]
    exact ⟨rfl, ringIs_ringWrite hf _ _⟩

theorem diffused_cons (len h : Nat) (e : Err) (t : KernelTerm) (terms : List KernelTerm) (f : Nat → Acc) :
    diffused len h e (t :: terms) f = diffused len h e terms (diffused len h e [t] f) := rfl

/-- What the kernel's terms leave in one slot: the terms that reach it, added in kernel order. -/
theorem diffused_apply (len h : Nat) (e : Err) (terms : List KernelTerm) (f : Nat → Acc) (i : Nat) :
    diffused len h e terms f i =
      (terms.filter fun t => decide (t.off ≠ 0 ∧ (h + t.off) % len = i)).foldl (fun a t => accAdd a (term e t.num)) (f i) := by
  induction terms generalizing f with
  | nil => rfl
  | cons t terms ih =>
    rw [diffused_cons, ih]
    by_cases h0 : t.off = 0
    · simp [diffused, h0]
    · by_cases hi : (h + t.off) % len = i
      · simp [diffused, h0, hi, putSlot]
      · have hi' : ¬ i = (h + t.off) % len := fun x => hi x.symm
        simp [diffused, h0, hi, hi', putSlot]

/-- On a wholly written ring the kernel's terms leave the ring of `diffused` and draw nothing. -/
theorem diffuse_of_ringIs (h : Nat) (e : Err) (terms : List KernelTerm) {s : State} {f : Nat → Acc} (hf : s.RingIs f) :
    terms.foldl (diffuseTerm h e) s = { s with ringRam := (terms.foldl (diffuseTerm h e) s).ringRam } ∧
      (terms.foldl (diffuseTerm h e) s).RingIs (diffused s.ringLen h e terms f) := by
  induction terms generalizing s f with
  | nil => exact ⟨rfl, hf⟩
  | cons t terms ih =>
    obtain ⟨hs, hr⟩ := diffuseTerm_of_ringIs hf h e t
    obtain ⟨h1, h2⟩ := ih hr
    have hlen : (diffuseTerm h e s t).ringLen = s.ringLen := by rw [hs]; rfl
    rw [diffused_cons, List.foldl_cons]
    rw [hlen] at h2
    refine ⟨?_, h2⟩
    rw [h1, hs]

/-- Everything STEP can change: the ring RAM, CURSOR, OUT, OUT_COUNT and the count of drawn values. -/
theorem stepPixel_frame (x : Color) (s : State) :
    ∃ p, stepPixel x s =
      { s with
        ringRam := (stepPixel x s).ringRam
        cursor := BitVec.ofNat 16 ((s.cursor.toNat + 1) % s.ringLen)
        out := s.out ++ [p]
        outCount := s.outCount + 1
        draws := (stepPixel x s).draws } := by
  refine ⟨((s.ringRead s.cursor.toNat).2.withError (narrow (s.ringRead s.cursor.toNat).1)).1, ?_⟩
  unfold stepPixel
  simp only
  rw [diffuse_frame, ringRead_snd]
  rfl

/-- STEP on a wholly written ring (44_engine.md R246): the emitted colour and the whole ring after it; nothing is
drawn. -/
theorem stepPixel_of_ringIs {s : State} {f : Nat → Acc} (hf : s.RingIs f) (hc : s.cursor.toNat ≤ s.ringN.toNat)
    (x : Color) :
    stepPixel x s =
        { s with
          ringRam := (stepPixel x s).ringRam
          cursor := BitVec.ofNat 16 ((s.cursor.toNat + 1) % s.ringLen)
          out := s.out ++ [(s.withError (narrow (f s.cursor.toNat))).1]
          outCount := s.outCount + 1 } ∧
      (stepPixel x s).RingIs
        (diffused s.ringLen s.cursor.toNat (s.withError (narrow (f s.cursor.toNat))).2 s.activeTerms
          (putSlot f s.cursor.toNat (accFrom x))) := by
  unfold stepPixel
  simp only
  rw [ringRead_of_holds (hf _ hc)]
  simp only
  obtain ⟨h1, h2⟩ := diffuse_of_ringIs s.cursor.toNat (s.withError (narrow (f s.cursor.toNat))).2
    (s.ringWrite s.cursor.toNat (accFrom x)).activeTerms (ringIs_ringWrite hf s.cursor.toNat (accFrom x))
  refine ⟨?_, fun j hj => ?_⟩
  · rw [h1]
    rfl
  · have hj' : j ≤ (List.foldl (diffuseTerm s.cursor.toNat (s.withError (narrow (f s.cursor.toNat))).2)
        (s.ringWrite s.cursor.toNat (accFrom x))
        (s.ringWrite s.cursor.toNat (accFrom x)).activeTerms).ringN.toNat := hj
    exact h2 j hj'

/-- Everything `n` steps of the drain can change. -/
theorem stepTimes_frame (x : Color) (n : Nat) (s : State) :
    ∃ ps : List Color, ps.length = n ∧ stepTimes x n s =
      { s with
        ringRam := (stepTimes x n s).ringRam
        cursor := (stepTimes x n s).cursor
        out := s.out ++ ps
        outCount := s.outCount + BitVec.ofNat 32 n
        draws := (stepTimes x n s).draws } := by
  induction n generalizing s with
  | zero => exact ⟨[], rfl, by simp [stepTimes]⟩
  | succ n ih =>
    obtain ⟨p, hp⟩ := stepPixel_frame x s
    obtain ⟨ps, hlen, hps⟩ := ih (stepPixel x s)
    refine ⟨p :: ps, by simp [hlen], ?_⟩
    rw [stepTimes, hps]
    have ho : (stepPixel x s).out = s.out ++ [p] := by rw [hp]
    have hn : (stepPixel x s).outCount = s.outCount + 1 := by rw [hp]
    have e : s.outCount + 1 + BitVec.ofNat 32 n = s.outCount + BitVec.ofNat 32 (n + 1) := by
      apply BitVec.eq_of_toNat_eq; simp; omega
    rw [ho, hn, e, List.append_assoc, List.singleton_append]
    rw [hp]

/-- WITH_ERROR's error lies in -255..255 in each channel (43_quantizer.md R210). -/
theorem withError_bounds (s : State) (c : Color) :
    (s.withError c).2.Each fun x => -255 ≤ x.toInt ∧ x.toInt ≤ 255 := by
  have h : ∀ x y : BitVec 8,
      -255 ≤ ((sat16 ((x.setWidth 16).toInt - (y.setWidth 16).toInt)).setWidth 9).toInt ∧
        ((sat16 ((x.setWidth 16).toInt - (y.setWidth 16).toInt)).setWidth 9).toInt ≤ 255 := by
    intro x y
    rw [toInt_error_channel]
    omega
  exact ⟨h _ _, h _ _, h _ _⟩

/-- A fresh pixel is within the bound of no term. -/
theorem accFrom_within (c : Color) : (accFrom c).Each (WithinTerms 0) := by
  have h : ∀ x : BitVec 8, WithinTerms 0 (x.setWidth 16) := by
    intro x
    unfold WithinTerms
    rw [toInt_setWidth_channel]
    omega
  exact ⟨h _, h _, h _⟩

/-- One term added to a channel that fewer than 8 have reached: the sum is exact, and one term wider. -/
theorem add_channel_within {m : Nat} (hm : m + 1 ≤ 8) {x t : BitVec 16} (hx : WithinTerms m x)
    (ht : -4065 ≤ t.toInt ∧ t.toInt ≤ 4064) :
    (sat16 (x.toInt + t.toInt)).toInt = x.toInt + t.toInt ∧ WithinTerms (m + 1) (sat16 (x.toInt + t.toInt)) := by
  unfold WithinTerms at *
  rw [toInt_sat16]
  push_cast
  omega

/-- The same for an accumulator. -/
theorem accAdd_within {m : Nat} (hm : m + 1 ≤ 8) {a : Acc} (ha : a.Each (WithinTerms m)) {e : Err}
    (he : e.Each fun x => -255 ≤ x.toInt ∧ x.toInt ≤ 255) (num : BitVec 8) :
    (accAdd a (term e num)).map BitVec.toInt =
        (a.map BitVec.toInt).zipWith (· + ·) ((term e num).map BitVec.toInt) ∧
      (accAdd a (term e num)).Each (WithinTerms (m + 1)) := by
  obtain ⟨r, r'⟩ := add_channel_within hm ha.1 (term_channel_bounds he.1 num)
  obtain ⟨g, g'⟩ := add_channel_within hm ha.2.1 (term_channel_bounds he.2.1 num)
  obtain ⟨b, b'⟩ := add_channel_within hm ha.2.2 (term_channel_bounds he.2.2 num)
  exact ⟨congr (congr (congrArg Rgb.mk r) g) b, r', g', b'⟩

/-- Up to 8 terms in all add up exactly (41_accumulator.md R149): with `diffused_apply`, what a STEP leaves in a slot. -/
theorem foldl_accAdd_within {e : Err} (he : e.Each fun x => -255 ≤ x.toInt ∧ x.toInt ≤ 255) (terms : List KernelTerm)
    {m : Nat} (hm : m + terms.length ≤ 8) {a : Acc} (ha : a.Each (WithinTerms m)) :
    (terms.foldl (fun a t => accAdd a (term e t.num)) a).map BitVec.toInt =
        terms.foldl (fun a t => a.zipWith (· + ·) ((term e t.num).map BitVec.toInt)) (a.map BitVec.toInt) ∧
      (terms.foldl (fun a t => accAdd a (term e t.num)) a).Each (WithinTerms (m + terms.length)) := by
  induction terms generalizing m a with
  | nil => exact ⟨rfl, ha⟩
  | cons t terms ih =>
    rw [List.length_cons] at hm
    obtain ⟨h1, h2⟩ := accAdd_within (by omega) ha he t.num
    obtain ⟨h3, h4⟩ := ih (by omega) h2
    refine ⟨by rw [List.foldl_cons, List.foldl_cons, h3, h1], ?_⟩
    rwa [List.length_cons, Nat.add_comm terms.length, ← Nat.add_assoc]

end Sys2Proof.Machine
end

