-- ==== Sys2Proof/Laws/Quantizer.lean ====
section
/-!
SUPPORT. What the lattice sweep computes (43_quantizer.md R205, R206): the first-seen keys, the counts, the sums, the
cells, or the capacity failure.
-/

namespace Sys2Proof.Machine

theorem firstSeen_append (qs : List Color) (q : Color) :
    firstSeen (qs ++ [q]) = if q ∈ firstSeen qs then firstSeen qs else firstSeen qs ++ [q] := by
  unfold firstSeen
  rw [List.foldl_append]
  rfl

theorem mem_firstSeen {qs : List Color} {q : Color} : q ∈ firstSeen qs ↔ q ∈ qs := by
  induction qs using List.reverseRecOn with
  | nil => simp [firstSeen]
  | append_singleton qs a ih =>
    rw [firstSeen_append]
    split
    · rename_i h
      rw [ih, List.mem_append]
      constructor
      · exact .inl
      · rintro (h' | h')
        · exact h'
        · simp only [List.mem_singleton] at h'
          subst h'
          exact ih.mp h
    · rw [List.mem_append, List.mem_append, ih]

theorem firstSeen_nodup (qs : List Color) : (firstSeen qs).Nodup := by
  induction qs using List.reverseRecOn with
  | nil => simp [firstSeen]
  | append_singleton qs a ih =>
    rw [firstSeen_append]
    split
    · exact ih
    · rename_i h
      rw [List.nodup_append]
      refine ⟨ih, by simp, ?_⟩
      intro x hx y hy
      simp only [List.mem_singleton] at hy
      subst hy
      rintro rfl
      exact h hx

/-- A found slot is a used one with that key. -/
theorem slotOf_some {slots : Vector MapSlot 16} {used : Nat} {q : Color} {i : Fin 16}
    (h : slotOf slots used q = some i) : i.val < used ∧ slots[i].key = q := by
  have := List.find?_some h
  simpa [slotOf] using this

/-- Where no slot is found, no used slot has that key. -/
theorem slotOf_none {slots : Vector MapSlot 16} {used : Nat} {q : Color} (h : slotOf slots used q = none)
    (i : Fin 16) (hi : i.val < used) : slots[i].key ≠ q := by
  unfold slotOf at h
  rw [List.find?_eq_none] at h
  have := h i (List.mem_finRange i)
  simpa [hi] using this

/-- What the sweep holds after the samples `cs`, when no colour has been without a slot. -/
structure SweepOf (ask : Color → Color) (cs : List Color) (w : Sweep) : Prop where
  noOverflow : w.overflow = false
  usedEq : w.used = (firstSeen (cs.map ask)).length
  usedLe : w.used ≤ 16
  slotEq : ∀ (i : Fin 16) (q : Color), (firstSeen (cs.map ask))[i.val]? = some q →
    w.slots[i] = { valid := true, key := q, cent := Rgb.all 0, count := BitVec.ofNat 25 (samplesOf ask cs q).length }
  slotClear : ∀ i : Fin 16, w.used ≤ i.val → w.slots[i] = MapSlot.empty
  sumEq : ∀ (i : Fin 16) (q : Color), (firstSeen (cs.map ask))[i.val]? = some q →
    w.sums[i] = levelSums (samplesOf ask cs q)
  sumClear : ∀ i : Fin 16, w.used ≤ i.val → w.sums[i] = Rgb.all 0
  cellsEq : w.cells.reverse = cs.map fun c => BitVec.ofNat 4 ((firstSeen (cs.map ask)).idxOf (ask c))

theorem samplesOf_append (ask : Color → Color) (cs : List Color) (c q : Color) :
    samplesOf ask (cs ++ [c]) q = if ask c = q then samplesOf ask cs q ++ [c] else samplesOf ask cs q := by
  unfold samplesOf
  rw [List.filter_append]
  by_cases h : ask c = q <;> simp [h]

theorem levelSums_append (cs : List Color) (c : Color) :
    levelSums (cs ++ [c]) = (levelSums cs).zipWith (fun sum x => sum + x.toNat) c := by
  simp [levelSums, Rgb.zipWith]

theorem samplesOf_eq_nil {ask : Color → Color} {cs : List Color} {q : Color} (h : q ∉ cs.map ask) :
    samplesOf ask cs q = [] := by
  simp only [samplesOf, List.filter_eq_nil_iff, decide_eq_true_eq]
  rintro c hc rfl
  exact h (List.mem_map_of_mem hc)

theorem tally_slots (w : Sweep) (i j : Fin 16) (c : Color) :
    (w.tally i c).slots[j] = if i = j then { w.slots[i] with count := w.slots[i].count + 1 } else w.slots[j] := by
  have h : (i.val = j.val) = (i = j) := by rw [Fin.ext_iff]
  simp only [Sweep.tally, Fin.getElem_fin, Vector.getElem_set, h]

theorem tally_sums (w : Sweep) (i j : Fin 16) (c : Color) :
    (w.tally i c).sums[j] = if i = j then w.sums[i].zipWith (fun sum x => sum + x.toNat) c else w.sums[j] := by
  have h : (i.val = j.val) = (i = j) := by rw [Fin.ext_iff]
  simp only [Sweep.tally, Fin.getElem_fin, Vector.getElem_set, h]

theorem sweepSample_overflow {ask : Color → Color} {cap : Nat} {w : Sweep} {c : Color} (ho : w.overflow = true) :
    (sweepSample ask cap w c).overflow = true := by
  simp [sweepSample, ho]

theorem sweepSample_seen {ask : Color → Color} {cap : Nat} {w : Sweep} {c : Color} {i : Fin 16}
    (ho : w.overflow = false) (hs : slotOf w.slots w.used (ask c) = some i) :
    sweepSample ask cap w c = w.tally i c := by
  simp [sweepSample, ho, hs]

theorem sweepSample_new {ask : Color → Color} {cap : Nat} {w : Sweep} {c : Color}
    (ho : w.overflow = false) (hs : slotOf w.slots w.used (ask c) = none) (h : w.used < 16 ∧ w.used < cap) :
    sweepSample ask cap w c = (w.allot (ask c) h.1).tally ⟨w.used, h.1⟩ c := by
  simp [sweepSample, ho, hs, h]

theorem sweepSample_full {ask : Color → Color} {cap : Nat} {w : Sweep} {c : Color}
    (ho : w.overflow = false) (hs : slotOf w.slots w.used (ask c) = none) (h : ¬ (w.used < 16 ∧ w.used < cap)) :
    (sweepSample ask cap w c).overflow = true := by
  simp [sweepSample, ho, hs, h]

theorem allot_slots (w : Sweep) (q : Color) (h : w.used < 16) (j : Fin 16) :
    (w.allot q h).slots[j] = if w.used = j.val then { w.slots[w.used] with valid := true, key := q } else w.slots[j] := by
  simp only [Sweep.allot, Fin.getElem_fin, Vector.getElem_set]

/-- One more sample keeps the sweep's description, unless its colour is new and there is no slot left. -/
theorem sweepSample_spec {ask : Color → Color} {cap : Nat} {cs : List Color} {w : Sweep} (hw : SweepOf ask cs w)
    (c : Color) :
    ((firstSeen ((cs ++ [c]).map ask)).length ≤ min cap 16 ∨ ask c ∈ cs.map ask →
      SweepOf ask (cs ++ [c]) (sweepSample ask cap w c)) ∧
    (min cap 16 < (firstSeen ((cs ++ [c]).map ask)).length → ask c ∉ cs.map ask →
      (sweepSample ask cap w c).overflow = true) := by
  obtain ⟨h1, h2, h3, h4, h5, h6, h7, h8⟩ := hw
  have hmap : (cs ++ [c]).map ask = cs.map ask ++ [ask c] := by simp
  have hnodup := firstSeen_nodup (cs.map ask)
  have hkey : ∀ i : Fin 16, i.val < w.used → ∃ q, (firstSeen (cs.map ask))[i.val]? = some q ∧ w.slots[i].key = q := by
    intro i hi
    have hlt : i.val < (firstSeen (cs.map ask)).length := by omega
    exact ⟨_, List.getElem?_eq_getElem hlt, by rw [h4 i _ (List.getElem?_eq_getElem hlt)]⟩
  rw [hmap, firstSeen_append]
  by_cases hseen : ask c ∈ cs.map ask
  · have hin : ask c ∈ firstSeen (cs.map ask) := mem_firstSeen.mpr hseen
    have hidx : (firstSeen (cs.map ask)).idxOf (ask c) < (firstSeen (cs.map ask)).length :=
      List.idxOf_lt_length_of_mem hin
    refine ⟨fun _ => ?_, fun _ h => absurd hseen h⟩
    cases hs : slotOf w.slots w.used (ask c) with
    | none =>
      exfalso
      have hlt : (firstSeen (cs.map ask)).idxOf (ask c) < 16 := by omega
      refine slotOf_none hs ⟨_, hlt⟩ (by simp only; omega) ?_
      obtain ⟨q, hq, hk⟩ := hkey ⟨_, hlt⟩ (by simp only; omega)
      rw [hk]
      simp only [List.getElem?_eq_getElem hidx, List.getElem_idxOf, Option.some.injEq] at hq
      exact hq.symm
    | some i =>
      obtain ⟨hi, hik⟩ := slotOf_some hs
      obtain ⟨q, hq, hk⟩ := hkey i hi
      have hqc : q = ask c := hk.symm.trans hik
      subst hqc
      have hidxi : (firstSeen (cs.map ask)).idxOf (ask c) = i.val := by
        have hlt : i.val < (firstSeen (cs.map ask)).length := by omega
        rw [List.getElem?_eq_getElem hlt, Option.some.injEq] at hq
        rw [← hq]
        exact hnodup.idxOf_getElem _ hlt
      have hfs : firstSeen ((cs ++ [c]).map ask) = firstSeen (cs.map ask) := by
        rw [hmap, firstSeen_append, if_pos hin]
      have huniq : ∀ (j : Fin 16) (q' : Color), (firstSeen (cs.map ask))[j.val]? = some q' → (i = j ↔ ask c = q') := by
        intro j q' hq'
        constructor
        · rintro rfl
          rw [hq] at hq'
          exact Option.some.inj hq'
        · rintro rfl
          have hlt : j.val < (firstSeen (cs.map ask)).length := (List.getElem?_eq_some_iff.mp hq').1
          rw [List.getElem?_eq_getElem hlt, Option.some.injEq] at hq'
          have : (firstSeen (cs.map ask)).idxOf (ask c) = j.val := by
            rw [← hq']; exact hnodup.idxOf_getElem _ hlt
          exact Fin.ext (by omega)
      rw [sweepSample_seen h1 hs]
      refine ⟨h1, by rw [hfs]; exact h2, h3, ?_, ?_, ?_, ?_, ?_⟩
      · intro j q' hq'
        rw [hfs] at hq'
        rw [tally_slots, samplesOf_append]
        by_cases hij : i = j
        · have hcq := (huniq j q' hq').mp hij
          subst hij
          rw [if_pos rfl, if_pos hcq, h4 i q' hq']
          simp [BitVec.ofNat_add]
        · rw [if_neg hij, if_neg (fun h => hij ((huniq j q' hq').mpr h)), h4 j q' hq']
      · intro j hj
        have hij : i ≠ j := by rintro rfl; have : w.used ≤ i.val := hj; omega
        rw [tally_slots, if_neg hij]
        exact h5 j hj
      · intro j q' hq'
        rw [hfs] at hq'
        rw [tally_sums, samplesOf_append]
        by_cases hij : i = j
        · have hcq := (huniq j q' hq').mp hij
          subst hij
          rw [if_pos rfl, if_pos hcq, h6 i q' hq', levelSums_append]
        · rw [if_neg hij, if_neg (fun h => hij ((huniq j q' hq').mpr h)), h6 j q' hq']
      · intro j hj
        have hij : i ≠ j := by rintro rfl; have : w.used ≤ i.val := hj; omega
        rw [tally_sums, if_neg hij]
        exact h7 j hj
      · rw [hfs]
        simp only [Sweep.tally, List.reverse_cons, h8, List.map_append, List.map_cons, List.map_nil, hidxi]
  · have hnot : ask c ∉ firstSeen (cs.map ask) := fun h => hseen (mem_firstSeen.mp h)
    rw [if_neg hnot, List.length_append, List.length_singleton]
    have hs : slotOf w.slots w.used (ask c) = none := by
      cases hs : slotOf w.slots w.used (ask c) with
      | none => rfl
      | some i =>
        obtain ⟨hi, hik⟩ := slotOf_some hs
        obtain ⟨q, hq, hk⟩ := hkey i hi
        exact absurd (List.mem_of_getElem? (by rw [hq, ← hk, hik] : _ = some (ask c))) hnot
    constructor
    · rintro (hle | h)
      · have hroom : w.used < 16 ∧ w.used < cap := by omega
        rw [sweepSample_new h1 hs hroom]
        have hfs : firstSeen ((cs ++ [c]).map ask) = firstSeen (cs.map ask) ++ [ask c] := by
          rw [hmap, firstSeen_append, if_neg hnot]
        have hnil : samplesOf ask cs (ask c) = [] := samplesOf_eq_nil hseen
        have hempty : w.slots[w.used] = MapSlot.empty := h5 ⟨w.used, hroom.1⟩ (Nat.le_refl _)
        have hsum0 : w.sums[w.used] = Rgb.all 0 := h7 ⟨w.used, hroom.1⟩ (Nat.le_refl _)
        have hlook : ∀ (j : Fin 16) (q' : Color), (firstSeen (cs.map ask) ++ [ask c])[j.val]? = some q' →
            (j.val = w.used ∧ q' = ask c) ∨ (j.val < w.used ∧ (firstSeen (cs.map ask))[j.val]? = some q' ∧
              ask c ≠ q') := by
          intro j q' hq'
          by_cases hj : j.val < (firstSeen (cs.map ask)).length
          · rw [List.getElem?_append_left hj] at hq'
            refine .inr ⟨by omega, hq', ?_⟩
            rintro rfl
            exact hnot (List.mem_of_getElem? hq')
          · rw [List.getElem?_append_right (by omega)] at hq'
            have hlt := (List.getElem?_eq_some_iff.mp hq').1
            have hz : j.val - (firstSeen (cs.map ask)).length = 0 := by simpa using hlt
            rw [hz] at hq'
            simp only [List.getElem?_cons_zero, Option.some.injEq] at hq'
            exact .inl ⟨by omega, hq'.symm⟩
        refine ⟨h1, by rw [hfs, List.length_append, List.length_singleton, ← h2]; rfl, hroom.1, ?_, ?_, ?_, ?_, ?_⟩
        · intro j q' hq'
          rw [hfs] at hq'
          rw [tally_slots, samplesOf_append]
          rcases hlook j q' hq' with ⟨hj, rfl⟩ | ⟨hj, hq', hne⟩
          · have : (⟨w.used, hroom.1⟩ : Fin 16) = j := Fin.ext hj.symm
            rw [if_pos this, if_pos rfl, allot_slots, if_pos rfl, hempty, hnil]
            rfl
          · have h1 : (⟨w.used, hroom.1⟩ : Fin 16) ≠ j := by rintro rfl; simp at hj
            have h2 : w.used ≠ j.val := by omega
            rw [if_neg h1, if_neg hne, allot_slots, if_neg h2, h4 j q' hq']
        · intro j hj
          have hj : w.used + 1 ≤ j.val := hj
          have hne : (⟨w.used, hroom.1⟩ : Fin 16) ≠ j := by rintro rfl; simp at hj
          have h2 : w.used ≠ j.val := by omega
          rw [tally_slots, if_neg hne, allot_slots, if_neg h2]
          exact h5 j (by omega)
        · intro j q' hq'
          rw [hfs] at hq'
          rw [tally_sums, samplesOf_append]
          rcases hlook j q' hq' with ⟨hj, rfl⟩ | ⟨hj, hq', hne⟩
          · have : (⟨w.used, hroom.1⟩ : Fin 16) = j := Fin.ext hj.symm
            rw [if_pos this, if_pos rfl, levelSums_append, hnil]
            have hsum : (w.allot (ask c) hroom.1).sums[(⟨w.used, hroom.1⟩ : Fin 16)] = Rgb.all 0 := hsum0
            rw [hsum]
            rfl
          · have h1 : (⟨w.used, hroom.1⟩ : Fin 16) ≠ j := by rintro rfl; simp at hj
            rw [if_neg h1, if_neg hne]
            exact h6 j q' hq'
        · intro j hj
          have hj : w.used + 1 ≤ j.val := hj
          have hne : (⟨w.used, hroom.1⟩ : Fin 16) ≠ j := by rintro rfl; simp at hj
          rw [tally_sums, if_neg hne]
          exact h7 j (by omega)
        · rw [hfs]
          have hcells : (w.allot (ask c) hroom.1).cells = w.cells := rfl
          simp only [Sweep.tally, List.reverse_cons, hcells, h8, List.map_append, List.map_cons, List.map_nil]
          congr 1
          · apply List.map_congr_left
            intro x hx
            rw [List.idxOf_append_of_mem (mem_firstSeen.mpr (List.mem_map_of_mem hx))]
          · rw [List.idxOf_append_of_notMem hnot]
            simp [h2]
      · exact absurd h hseen
    · intro hlt _
      have hroom : ¬ (w.used < 16 ∧ w.used < cap) := by omega
      exact sweepSample_full h1 hs hroom

theorem sweepStart_spec (ask : Color → Color) : SweepOf ask [] Sweep.start := by
  refine ⟨rfl, rfl, Nat.zero_le _, ?_, ?_, ?_, ?_, rfl⟩
  · intro i q hq; simp [firstSeen] at hq
  · intro i _; simp [Sweep.start]
  · intro i q hq; simp [firstSeen] at hq
  · intro i _; simp [Sweep.start]

/-- The sweep over any samples: its description, or the capacity failure, as the number of distinct colours decides. -/
theorem foldl_sweepSample_spec (ask : Color → Color) (cap : Nat) (cs : List Color) :
    ((firstSeen (cs.map ask)).length ≤ min cap 16 → SweepOf ask cs (cs.foldl (sweepSample ask cap) Sweep.start)) ∧
    (min cap 16 < (firstSeen (cs.map ask)).length →
      (cs.foldl (sweepSample ask cap) Sweep.start).overflow = true) := by
  induction cs using List.reverseRecOn with
  | nil => exact ⟨fun _ => sweepStart_spec ask, fun h => by simp [firstSeen] at h⟩
  | append_singleton cs c ih =>
    obtain ⟨ih1, ih2⟩ := ih
    rw [List.foldl_append, List.foldl_cons, List.foldl_nil]
    have hmap : (cs ++ [c]).map ask = cs.map ask ++ [ask c] := by simp
    have hlen : (firstSeen (cs.map ask)).length ≤ (firstSeen ((cs ++ [c]).map ask)).length := by
      rw [hmap, firstSeen_append]
      split
      · exact Nat.le_refl _
      · simp
    constructor
    · intro h
      exact (sweepSample_spec (ih1 (by omega)) c).1 (.inl h)
    · intro h
      by_cases hle : (firstSeen (cs.map ask)).length ≤ min cap 16
      · refine (sweepSample_spec (ih1 hle) c).2 h ?_
        intro hin
        rw [hmap, firstSeen_append, if_pos (mem_firstSeen.mpr hin)] at h
        omega
      · have hov := ih2 (by omega)
        exact sweepSample_overflow hov

/-- SWEEP(k) (43_quantizer.md R205). -/
theorem sweep_spec (ask : Color → Color) (cap k : Nat) :
    ((buildKeys ask k).length ≤ min cap 16 → SweepOf ask (samples k) (sweep ask cap k)) ∧
    (min cap 16 < (buildKeys ask k).length → (sweep ask cap k).overflow = true) :=
  foldl_sweepSample_spec ask cap (samples k)

/-! ### The samples and the cells -/

theorem samples_length (k : Nat) : (samples k).length = 2 ^ (3 * k) := by
  have h : 2 ^ (3 * k) = 2 ^ k * (2 ^ k * 2 ^ k) := by rw [← Nat.pow_add, ← Nat.pow_add]; congr 1; omega
  rw [h]
  simp [samples, List.length_flatMap]

theorem cells_length_le (ask : Color → Color) (cap : Nat) (cs : List Color) (w : Sweep) :
    (cs.foldl (sweepSample ask cap) w).cells.length ≤ w.cells.length + cs.length := by
  induction cs generalizing w with
  | nil => simp
  | cons c cs ih =>
    have one : (sweepSample ask cap w c).cells.length ≤ w.cells.length + 1 := by
      unfold sweepSample
      split
      · omega
      · split
        · simp [Sweep.tally]
        · split <;> simp [Sweep.tally, Sweep.allot]
    have := ih (sweepSample ask cap w c)
    rw [List.foldl_cons, List.length_cons]
    omega

/-- The sweep writes at most the cells 0..2^(3k)-1. -/
theorem sweep_cells_length_le (ask : Color → Color) (cap k : Nat) :
    (sweep ask cap k).cells.length ≤ 2 ^ (3 * k) := by
  have := cells_length_le ask cap (samples k) Sweep.start
  rw [samples_length] at this
  simpa [sweep, Sweep.start] using this

theorem samples_length_lt {k : Nat} (h : k ≤ 8) : (samples k).length < 2 ^ 25 := by
  rw [samples_length]
  calc 2 ^ (3 * k) ≤ 2 ^ 24 := Nat.pow_le_pow_right (by decide) (by omega)
    _ < 2 ^ 25 := by decide

theorem getElem?_flatMap_range {α : Type} (n m : Nat) (f : Nat → List α) (hf : ∀ i, (f i).length = m) {i j : Nat}
    (hi : i < n) (hj : j < m) : ((List.range n).flatMap f)[i * m + j]? = (f i)[j]? := by
  induction n with
  | zero => omega
  | succ n ih =>
    rw [List.range_succ, List.flatMap_append]
    have hl : ((List.range n).flatMap f).length = n * m := by simp [List.length_flatMap, hf]
    by_cases h : i < n
    · rw [List.getElem?_append_left, ih h]
      rw [hl]
      nlinarith
    · have hin : i = n := by omega
      subst hin
      rw [List.getElem?_append_right (by rw [hl]; omega), hl]
      simp

/-- The sample of lattice point (r, g, b) stands at its cell's place in the sweep (43_quantizer.md R205). -/
theorem getElem?_samples {k r g b : Nat} (hr : r < 2 ^ k) (hg : g < 2 ^ k) (hb : b < 2 ^ k) :
    (samples k)[r * (2 ^ k * 2 ^ k) + (g * 2 ^ k + b)]? =
      some ⟨sampleLevel k r, sampleLevel k g, sampleLevel k b⟩ := by
  unfold samples
  rw [getElem?_flatMap_range (2 ^ k) (2 ^ k * 2 ^ k) _ (by intro i; simp [List.length_flatMap]) hr (by nlinarith),
    getElem?_flatMap_range (2 ^ k) (2 ^ k) _ (by intro i; simp) hg hb]
  simp [hb]

/-- CELL of a colour in arithmetic, with its three lattice coordinates in range (43_quantizer.md R202). -/
theorem cellOf_eq {k : Nat} (hk : k ≤ 8) (c : Color) :
    cellOf k c = (c.r.toNat >>> (8 - k)) * (2 ^ k * 2 ^ k) + ((c.g.toNat >>> (8 - k)) * 2 ^ k + (c.b.toNat >>> (8 - k))) ∧
      c.r.toNat >>> (8 - k) < 2 ^ k ∧ c.g.toNat >>> (8 - k) < 2 ^ k ∧ c.b.toNat >>> (8 - k) < 2 ^ k := by
  have hs : ∀ x : BitVec 8, x.toNat >>> (8 - k) < 2 ^ k := by
    intro x
    rw [Nat.shiftRight_eq_div_pow, Nat.div_lt_iff_lt_mul (by positivity), ← Nat.pow_add]
    have := x.isLt
    rwa [show k + (8 - k) = 8 by omega]
  refine ⟨?_, hs _, hs _, hs _⟩
  have hor : ∀ a b : Nat, b < 2 ^ k → a <<< k ||| b = a * 2 ^ k + b := by
    intro a b hb
    rw [Nat.shiftLeft_eq, Nat.mul_comm, Nat.two_pow_add_eq_or_of_lt hb]
  have hrg : (c.r.toNat >>> (8 - k)) <<< (2 * k) ||| (c.g.toNat >>> (8 - k)) <<< k =
      ((c.r.toNat >>> (8 - k)) <<< k ||| (c.g.toNat >>> (8 - k))) <<< k := by
    rw [Nat.shiftLeft_or_distrib, ← Nat.shiftLeft_add]
    congr 2
    omega
  unfold cellOf
  rw [hrg, hor _ _ (hs _), hor _ _ (hs _)]
  ring

/-- The map scan finds a colour exactly where some sample so far had it. -/
theorem slotOf_isSome_iff {ask : Color → Color} {cs : List Color} {w : Sweep} (hw : SweepOf ask cs w) (q : Color) :
    (slotOf w.slots w.used q).isSome = true ↔ q ∈ firstSeen (cs.map ask) := by
  constructor
  · intro h
    obtain ⟨i, hi⟩ := Option.isSome_iff_exists.mp h
    obtain ⟨h1, h2⟩ := slotOf_some hi
    have hlt : i.val < (firstSeen (cs.map ask)).length := by rw [← hw.usedEq]; exact h1
    rw [hw.slotEq i _ (List.getElem?_eq_getElem hlt)] at h2
    rw [← h2]
    exact List.getElem_mem _
  · intro h
    by_contra hc
    have hn : slotOf w.slots w.used q = none := by simpa using hc
    have hlt := List.idxOf_lt_length_iff.mpr h
    have h16 : (firstSeen (cs.map ask)).idxOf q < 16 := by
      have := hw.usedLe
      have := hw.usedEq
      omega
    refine slotOf_none hn ⟨_, h16⟩ (by rw [hw.usedEq]; exact hlt) ?_
    have hq : (firstSeen (cs.map ask))[(firstSeen (cs.map ask)).idxOf q]? = some q := by
      rw [List.getElem?_eq_getElem hlt]
      simp
    rw [hw.slotEq ⟨_, h16⟩ q hq]

/-- ASSERT_PALETTE holds exactly where every configured palette colour was some sample's (43_quantizer.md R207). -/
theorem palettePresent_iff {ask : Color → Color} {cs : List Color} {w : Sweep} (hw : SweepOf ask cs w) (s : State) :
    palettePresent s w = true ↔ ∀ j : Fin 16, j.val < s.palcnt.toNat → s.pal[j] ∈ firstSeen (cs.map ask) := by
  unfold palettePresent
  rw [List.all_eq_true]
  constructor
  · intro h j hj
    rw [← slotOf_isSome_iff hw]
    apply h
    rw [List.mem_take_iff_getElem]
    exact ⟨j.val, by simp; omega, by simp⟩
  · intro h c hc
    rw [List.mem_take_iff_getElem] at hc
    obtain ⟨j, hj, rfl⟩ := hc
    simp only [Vector.length_toList, lt_inf_iff] at hj
    rw [slotOf_isSome_iff hw]
    have := h ⟨j, hj.2⟩ hj.1
    simpa using this

theorem samplesOf_length_le (ask : Color → Color) (cs : List Color) (q : Color) :
    (samplesOf ask cs q).length ≤ cs.length :=
  List.length_filter_le _ _

/-- CENTROIDS (43_quantizer.md R206): each used slot becomes the palette entry of its key, the others stay clear. -/
theorem centroids_spec {ask : Color → Color} {cs : List Color} {w : Sweep} (hw : SweepOf ask cs w)
    (hlen : cs.length < 2 ^ 25) (i : Fin 16) :
    w.centroids[i] = match (firstSeen (cs.map ask))[i.val]? with
      | some q => paletteEntry ask cs q
      | none => MapSlot.empty := by
  have hcent : w.centroids[i] = if i.val < w.used then
      { w.slots[i] with cent := w.sums[i].map fun sum => BitVec.ofNat 8 (sum / w.slots[i].count.toNat) }
      else w.slots[i] := by
    simp [Sweep.centroids]
  rw [hcent]
  have hu := hw.usedEq
  by_cases hi : i.val < w.used
  · have hlt : i.val < (firstSeen (cs.map ask)).length := by omega
    have hq := List.getElem?_eq_getElem hlt
    have hcount : (samplesOf ask cs (firstSeen (cs.map ask))[i.val]).length < 2 ^ 25 :=
      Nat.lt_of_le_of_lt (samplesOf_length_le _ _ _) hlen
    rw [if_pos hi, hq, hw.slotEq i _ hq, hw.sumEq i _ hq]
    simp only [paletteEntry, BitVec.toNat_ofNat, Nat.mod_eq_of_lt hcount]
  · have hge : (firstSeen (cs.map ask)).length ≤ i.val := by omega
    rw [if_neg hi, List.getElem?_eq_none hge, hw.slotClear i (by omega)]

end Sys2Proof.Machine
end

