-- ==== Sys2Proof/Laws/Exec.lean ====
section
/-!
SUPPORT. Once for all commands: everything `exec` can answer. Statements about every command are proved by cases on it.
-/

namespace Sys2Proof.Machine

/-- What a command that succeeds has done to the state, its response apart. -/
def Done : Instr → State → State → Prop
  | .nop, s, u => u = s
  | .wrReg addr d, s, u => s.Resting ∧ ∃ r, regAt s.params addr = some r ∧ r.writable = true ∧
      u = if r.invalidates then (storeReg s r d).invalidateBuild else storeReg s r d
  | .rdReg addr, s, u => u = s ∧ (regAt s.params addr).isSome
  | .errClear, s, u => u = { s with err := 0, ofsWrap := false }
  | .abort, s, u => u = { s with mode := .idle }
  | .build, s, u => s.Resting ∧ 1 ≤ s.latLog2.toNat ∧ s.latLog2.toNat ≤ s.params.latLog2Max ∧
      s.palcnt.toNat ≤ s.params.palCap ∧
      (sweep s.ask s.params.palCap s.latLog2.toNat).overflow = false ∧
      palettePresent s (sweep s.ask s.params.palCap s.latLog2.toNat) = true ∧
      u = { s with
        cube := s.cube.writeRun 0 (sweep s.ask s.params.palCap s.latLog2.toNat).cells.reverse
        used := BitVec.ofNat 5 (sweep s.ask s.params.palCap s.latLog2.toNat).used
        slots := (sweep s.ask s.params.palCap s.latLog2.toNat).centroids
        built := true }
  | .query _, s, u => s.built = true ∧ u = s
  | .start, s, u => s.Resting ∧ s.WidthLegal ∧ (s.kmode = true → s.kcount.toNat ≤ s.params.kmax) ∧ s.KernelInWindow ∧
      s.built = true ∧
      u = { s.sizeRing with
        fill := 0
        kactLen := BitVec.ofNat 4 s.effectiveKernel.length
        kact := latchKernel s.kact s.effectiveKernel
        inCount := 0
        outCount := 0
        shortPrime := false
        mode := .filling }
  | .pixel x, s, u => (s.mode = .filling ∧ u = primePixel x s) ∨
      (s.mode = .streaming ∧ u = stepPixel x { s with inCount := s.inCount + 1 })
  | .endImage, s, u => (s.mode = .filling ∧ u = drain s.fill.toNat { s with shortPrime := true }) ∨
      (s.mode = .streaming ∧ u = drain s.ringLen s)
  | .ringReset, s, u => s.Resting ∧ s.WidthLegal ∧ u = s.sizeRing
  | .ringRd off, s, u => s.Resting ∧ u = ((s.ringIndex off).2.ringRead (s.ringIndex off).1).2
  | .ringLd off c, s, u => s.Resting ∧ u = (s.ringIndex off).2.ringWrite (s.ringIndex off).1 (accFrom c)
  | .ringWrc off ch v, s, u =>
      ch ≠ 3 ∧ s.Resting ∧ u = (s.ringIndex off).2.ringWriteChannel (s.ringIndex off).1 ch.toNat v
  | .ringPush c, s, u => s.Resting ∧ u = s.ringPush (accFrom c)

/-- BUILD's failures after its first check: the map is clear and some cells may have been written. -/
def BuildFailed (s u : State) (code : ErrorCode) : Prop :=
  s.Resting ∧ (code = .cfgLattice ∨ code = .cfgPalCapacity ∨ code = .cfgPalMiss) ∧
    ∃ vs : List (BitVec 4), (vs = [] ∨
        (1 ≤ s.latLog2.toNat ∧ s.latLog2.toNat ≤ s.params.latLog2Max ∧ vs.length ≤ 2 ^ (3 * s.latLog2.toNat))) ∧
      u = { s.invalidateBuild with cube := s.cube.writeRun 0 vs }

/-- Everything a command can answer: a failure that changes nothing else, BUILD's failures, or success. -/
inductive Answer (i : Instr) (s : State) : Host.Outcome State Fault Refusal → Prop where
  | failed (code : ErrorCode) (h : i ≠ .errClear) (hb : i = .build → code = .illegalState) :
    Answer i s (.next (s.raise code))
  | buildFailed (code : ErrorCode) (u : State) (hi : i = .build) (h : BuildFailed s u code) :
    Answer i s (.next (u.raise code))
  | done (u : State) (d : BitVec 64) (h : Done i s u) : Answer i s (.next (u.respond d))

theorem answer_build (s : State) : Answer .build s (execBuild s) := by
  unfold execBuild
  by_cases hr : s.Resting
  · rw [if_neg (not_not.mpr hr)]
    simp only
    have hnil : s.invalidateBuild = { s.invalidateBuild with cube := s.cube.writeRun 0 [] } := by
      rw [writeRun_nil]
      rfl
    by_cases hk : s.latLog2.toNat < 1 ∨ s.params.latLog2Max < s.latLog2.toNat
    · rw [if_pos (by exact hk)]
      exact .buildFailed _ _ rfl ⟨hr, .inl rfl, [], .inl rfl, hnil⟩
    · rw [if_neg (by exact hk)]
      by_cases hp : s.params.palCap < s.palcnt.toNat
      · rw [if_pos (by exact hp)]
        exact .buildFailed _ _ rfl ⟨hr, .inr (.inl rfl), [], .inl rfl, hnil⟩
      · rw [if_neg (by exact hp)]
        have hlen := sweep_cells_length_le s.ask s.params.palCap s.latLog2.toNat
        have failed : ∀ code, code = ErrorCode.cfgPalCapacity ∨ code = .cfgPalMiss →
            Answer .build s (.next (State.raise { s.invalidateBuild with
              cube := s.cube.writeRun 0 (sweep s.ask s.params.palCap s.latLog2.toNat).cells.reverse } code)) := by
          intro code hcode
          refine .buildFailed _ _ rfl ⟨hr, .inr hcode,
            (sweep s.ask s.params.palCap s.latLog2.toNat).cells.reverse, .inr ⟨by omega, by omega, by simpa using hlen⟩, rfl⟩
        by_cases ho : (sweep s.ask s.params.palCap s.latLog2.toNat).overflow = true
        · rw [if_pos (by exact ho)]
          exact failed _ (.inl rfl)
        · rw [if_neg (by exact ho)]
          by_cases hm : palettePresent s (sweep s.ask s.params.palCap s.latLog2.toNat) = false
          · rw [if_pos (by exact hm)]
            exact failed _ (.inr rfl)
          · rw [if_neg (by exact hm)]
            exact .done _ _ ⟨hr, by omega, by omega, by omega, by simpa using ho, by simpa using hm, rfl⟩
  · rw [if_pos (by exact hr)]
    exact .failed _ (by simp) (by simp)

/-- Everything `exec` can answer. -/
theorem exec_answer (i : Instr) (s : State) : Answer i s (exec i s) := by
  cases i with
  | nop => exact .done _ _ rfl
  | wrReg addr d =>
    simp only [exec, execWrReg]
    split
    · exact .failed _ (by simp) (by simp)
    · rename_i r hr
      by_cases hw : r.writable = false
      · rw [if_pos hw]
        exact .failed _ (by simp) (by simp)
      · rw [if_neg hw]
        by_cases hs : s.Resting
        · rw [if_neg (not_not.mpr hs)]
          by_cases hv : r.invalidates = true
          · rw [if_pos hv]
            exact .done _ _ ⟨hs, r, hr, by simpa using hw, by rw [if_pos hv]⟩
          · rw [if_neg hv]
            exact .done _ _ ⟨hs, r, hr, by simpa using hw, by rw [if_neg hv]⟩
        · rw [if_pos hs]
          exact .failed _ (by simp) (by simp)
  | rdReg addr =>
    simp only [exec, execRdReg]
    split
    · exact .failed _ (by simp) (by simp)
    · rename_i r hr
      exact .done _ _ ⟨rfl, by rw [hr]; rfl⟩
  | errClear => exact .done _ _ rfl
  | abort => exact .done _ _ rfl
  | build => exact answer_build s
  | query c =>
    simp only [exec, execQuery]
    split
    · exact .failed _ (by simp) (by simp)
    · rename_i h
      exact .done _ _ ⟨by simpa using h, rfl⟩
  | start =>
    simp only [exec, execStart]
    by_cases hr : s.Resting
    · rw [if_neg (not_not.mpr hr)]
      by_cases hw : s.WidthLegal
      · rw [if_neg (not_not.mpr hw)]
        split
        · exact .failed _ (by simp) (by simp)
        · rename_i hk
          by_cases hv : s.KernelInWindow
          · rw [if_neg (not_not.mpr hv)]
            split
            · exact .failed _ (by simp) (by simp)
            · rename_i hb
              refine .done _ _ ⟨hr, hw, fun h => ?_, hv, by simpa using hb, rfl⟩
              exact Nat.not_lt.mp fun h' => hk ⟨h, h'⟩
          · rw [if_pos hv]
            exact .failed _ (by simp) (by simp)
      · rw [if_pos hw]
        exact .failed _ (by simp) (by simp)
    · rw [if_pos hr]
      exact .failed _ (by simp) (by simp)
  | pixel x =>
    simp only [exec, execPixel]
    split
    · rename_i h; exact .done _ _ (.inl ⟨h, rfl⟩)
    · rename_i h; exact .done _ _ (.inr ⟨h, rfl⟩)
    all_goals exact .failed _ (by simp) (by simp)
  | endImage =>
    simp only [exec, execEndImage]
    split
    · rename_i h; exact .done _ _ (.inl ⟨h, rfl⟩)
    · rename_i h; exact .done _ _ (.inr ⟨h, rfl⟩)
    all_goals exact .failed _ (by simp) (by simp)
  | ringReset =>
    simp only [exec, execRingReset]
    by_cases hr : s.Resting
    · rw [if_neg (not_not.mpr hr)]
      by_cases hw : s.WidthLegal
      · rw [if_neg (not_not.mpr hw)]
        exact .done _ _ ⟨hr, hw, rfl⟩
      · rw [if_pos hw]
        exact .failed _ (by simp) (by simp)
    · rw [if_pos hr]
      exact .failed _ (by simp) (by simp)
  | ringRd off =>
    simp only [exec, execRingRd]
    by_cases hr : s.Resting
    · rw [if_neg (not_not.mpr hr)]
      exact .done _ _ ⟨hr, rfl⟩
    · rw [if_pos hr]
      exact .failed _ (by simp) (by simp)
  | ringLd off c =>
    simp only [exec, execRingLd]
    by_cases hr : s.Resting
    · rw [if_neg (not_not.mpr hr)]
      exact .done _ _ ⟨hr, rfl⟩
    · rw [if_pos hr]
      exact .failed _ (by simp) (by simp)
  | ringWrc off ch v =>
    simp only [exec, execRingWrc]
    split
    · exact .failed _ (by simp) (by simp)
    · rename_i hc
      by_cases hr : s.Resting
      · rw [if_neg (not_not.mpr hr)]
        exact .done _ _ ⟨hc, hr, rfl⟩
      · rw [if_pos hr]
        exact .failed _ (by simp) (by simp)
  | ringPush c =>
    simp only [exec, execRingPush]
    by_cases hr : s.Resting
    · rw [if_neg (not_not.mpr hr)]
      exact .done _ _ ⟨hr, rfl⟩
    · rw [if_pos hr]
      exact .failed _ (by simp) (by simp)

/-- The same as equations. -/
theorem exec_cases (i : Instr) (s : State) :
    (∃ code, i ≠ .errClear ∧ (i = .build → code = .illegalState) ∧ exec i s = .next (s.raise code)) ∨
    (∃ code u, i = .build ∧ BuildFailed s u code ∧ exec i s = .next (u.raise code)) ∨
    ∃ u d, Done i s u ∧ exec i s = .next (u.respond d) := by
  have h := exec_answer i s
  generalize exec i s = o at h
  cases h with
  | failed code h hb => exact .inl ⟨code, h, hb, rfl⟩
  | buildFailed code u hi h => exact .inr (.inl ⟨code, u, hi, h, rfl⟩)
  | done u d h => exact .inr (.inr ⟨u, d, h, rfl⟩)

end Sys2Proof.Machine
end

