-- ==== Sys2Proof/Laws/PerInstr.lean ====
section
/-!
SUPPORT. Per command: its word carries its opcode, and every must-be-zero bit of its format is 0 (30_encoding.md R103
to R108, R111).
-/

namespace Sys2Proof.Laws.Encoding

/-- A command's opcode and format (30_encoding.md R111). -/
def row : Instr → BitVec 8 × Format
  | .nop => (0x00#8, .z)
  | .wrReg _ _ => (0x01#8, .rWrite)
  | .rdReg _ => (0x02#8, .rRead)
  | .errClear => (0x03#8, .z)
  | .abort => (0x04#8, .z)
  | .build => (0x10#8, .z)
  | .query _ => (0x11#8, .c)
  | .start => (0x20#8, .z)
  | .pixel _ => (0x21#8, .c)
  | .endImage => (0x22#8, .z)
  | .ringReset => (0x30#8, .z)
  | .ringRd _ => (0x31#8, .o)
  | .ringLd _ _ => (0x32#8, .co)
  | .ringWrc _ _ _ => (0x33#8, .w)
  | .ringPush _ => (0x34#8, .c)

/-- The word of a command has its opcode in [63:56] and no must-be-zero bit set. -/
def Statement (i : Instr) : Prop :=
  (encode i).extractLsb' 56 8 = (row i).1 ∧ encode i &&& zeroMask (row i).2 = 0#64

theorem nop : Statement .nop := ⟨by decide, by decide⟩

theorem errClear : Statement .errClear := ⟨by decide, by decide⟩

theorem abort : Statement .abort := ⟨by decide, by decide⟩

theorem build : Statement .build := ⟨by decide, by decide⟩

theorem start : Statement .start := ⟨by decide, by decide⟩

theorem endImage : Statement .endImage := ⟨by decide, by decide⟩

theorem ringReset : Statement .ringReset := ⟨by decide, by decide⟩

theorem wrReg (addr : BitVec 16) (data : BitVec 32) : Statement (.wrReg addr data) := by
  constructor
  · unfold encode
    erw [extract_left _ data _ _ (by decide), extract_left _ addr _ _ (by decide)]
    rfl
  · rw [show zeroMask (row (.wrReg addr data)).2 = 0#8 ++ 0xFF#8 ++ 0#16 ++ 0#32 from rfl]
    unfold encode
    erw [BitVec.and_append, BitVec.and_append]
    simp

theorem rdReg (addr : BitVec 16) : Statement (.rdReg addr) := by
  constructor
  · unfold encode
    erw [extract_left _ (0#32) _ _ (by decide), extract_left _ addr _ _ (by decide)]
    rfl
  · rw [show zeroMask (row (.rdReg addr)).2 = 0#8 ++ 0xFF#8 ++ 0#16 ++ 0xFFFFFFFF#32 from rfl]
    unfold encode
    erw [BitVec.and_append, BitVec.and_append]
    simp

theorem query (c : Color) : Statement (.query c) := by
  constructor
  · unfold encode
    erw [extract_left _ (packColor c) _ _ (by decide)]
    rfl
  · rw [show zeroMask (row (.query c)).2 = 0#8 ++ 0xFFFFFFFF#32 ++ 0#24 from rfl]
    unfold encode
    erw [BitVec.and_append]
    simp

theorem pixel (x : Color) : Statement (.pixel x) := by
  constructor
  · unfold encode
    erw [extract_left _ (packColor x) _ _ (by decide)]
    rfl
  · rw [show zeroMask (row (.pixel x)).2 = 0#8 ++ 0xFFFFFFFF#32 ++ 0#24 from rfl]
    unfold encode
    erw [BitVec.and_append]
    simp

theorem ringPush (c : Color) : Statement (.ringPush c) := by
  constructor
  · unfold encode
    erw [extract_left _ (packColor c) _ _ (by decide)]
    rfl
  · rw [show zeroMask (row (.ringPush c)).2 = 0#8 ++ 0xFFFFFFFF#32 ++ 0#24 from rfl]
    unfold encode
    erw [BitVec.and_append]
    simp

theorem ringRd (off : BitVec 16) : Statement (.ringRd off) := by
  constructor
  · unfold encode
    erw [extract_left _ off _ _ (by decide)]
    rfl
  · rw [show zeroMask (row (.ringRd off)).2 = 0#8 ++ 0xFFFFFFFFFF#40 ++ 0#16 from rfl]
    unfold encode
    erw [BitVec.and_append]
    simp

theorem ringLd (off : BitVec 16) (c : Color) : Statement (.ringLd off c) := by
  constructor
  · unfold encode
    erw [extract_left _ off _ _ (by decide), extract_left _ (0#8) _ _ (by decide),
      extract_left _ (packColor c) _ _ (by decide)]
    rfl
  · rw [show zeroMask (row (.ringLd off c)).2 = 0#8 ++ 0xFF#8 ++ 0#24 ++ 0xFF#8 ++ 0#16 from rfl]
    unfold encode
    erw [BitVec.and_append, BitVec.and_append, BitVec.and_append]
    simp

theorem ringWrc (off : BitVec 16) (ch : BitVec 2) (val : BitVec 16) : Statement (.ringWrc off ch val) := by
  constructor
  · unfold encode
    erw [extract_left _ off _ _ (by decide), extract_left _ (0#16) _ _ (by decide),
      extract_left _ val _ _ (by decide), extract_left _ ch _ _ (by decide)]
    rfl
  · rw [show zeroMask (row (.ringWrc off ch val)).2 = 0#8 ++ 0x3F#6 ++ 0#2 ++ 0#16 ++ 0xFFFF#16 ++ 0#16 from rfl]
    unfold encode
    erw [BitVec.and_append, BitVec.and_append, BitVec.and_append, BitVec.and_append]
    simp

end Sys2Proof.Laws.Encoding
end

