-- ==== Sys2Proof/Laws/Registers.lean ====
section
/-!
SUPPORT. The register map as one equivalence: which address names which register.
-/

namespace Sys2Proof.Machine

/-- The address of a register (10_state.md R50). -/
def Reg.address : Reg → Nat
  | .caps => 0x000
  | .status => 0x001
  | .width => 0x002
  | .lat => 0x003
  | .defaultColor => 0x004
  | .kctrl => 0x005
  | .palcnt => 0x006
  | .inCount => 0x007
  | .outCount => 0x008
  | .ringInfo => 0x009
  | .mapUsed => 0x00A
  | .kernel i => 0x010 + i.val
  | .pal i => 0x020 + i.val
  | .key i => 0x040 + i.val
  | .cent i => 0x050 + i.val
  | .count i => 0x060 + i.val

/-- A bank's registers exist up to KMAX or PAL_CAP (10_state.md R62-R66). -/
def Reg.present (p : Params) : Reg → Prop
  | .kernel i => i.val < p.kmax
  | .pal i => i.val < p.palCap
  | .key i => i.val < p.palCap
  | .cent i => i.val < p.palCap
  | .count i => i.val < p.palCap
  | _ => True

theorem bankIndex_eq_some {base size limit n : Nat} {i : Fin size} :
    bankIndex base size limit n = some i ↔ n = base + i.val ∧ i.val < limit := by
  have := i.isLt
  unfold bankIndex
  split
  · split
    · rw [Option.some.injEq, Fin.ext_iff]
      simp only
      omega
    · simp only [reduceCtorEq, false_iff]
      omega
  · simp only [reduceCtorEq, false_iff]
    omega

theorem bankIndex_eq_none {base size limit n : Nat} :
    bankIndex base size limit n = none ↔ ¬ (base ≤ n ∧ n - base < size ∧ n - base < limit) := by
  unfold bankIndex
  split
  · split
    · simp only [reduceCtorEq, false_iff]
      omega
    · simp only [true_iff]
      omega
  · simp only [true_iff]
    omega

/-- The registers past the single ones, by their banks. -/
theorem regAt_bank {p : Params} {addr : BitVec 16} (h : 0x00A < addr.toNat) :
    regAt p addr =
      (((bankIndex 0x010 8 p.kmax addr.toNat).map Reg.kernel) <|> ((bankIndex 0x020 16 p.palCap addr.toNat).map Reg.pal) <|>
        ((bankIndex 0x040 16 p.palCap addr.toNat).map Reg.key) <|>
        ((bankIndex 0x050 16 p.palCap addr.toNat).map Reg.cent) <|>
        ((bankIndex 0x060 16 p.palCap addr.toNat).map Reg.count)) := by
  unfold regAt
  split
  all_goals first | omega | rfl

/-- `regAt` names exactly the registers of the map (10_state.md R50). -/
theorem regAt_eq_some {p : Params} {addr : BitVec 16} {r : Reg} :
    regAt p addr = some r ↔ addr.toNat = r.address ∧ r.present p := by
  by_cases hlo : 0x00A < addr.toNat
  · rw [regAt_bank hlo]
    constructor
    · intro h
      simp only [Option.orElse_eq_orElse, Option.orElse_eq_or, Option.or_eq_some_iff, Option.map_eq_some_iff,
        bankIndex_eq_some] at h
      rcases h with ⟨i, h, rfl⟩ | ⟨-, ⟨i, h, rfl⟩ | ⟨-, ⟨i, h, rfl⟩ | ⟨-, ⟨i, h, rfl⟩ | ⟨-, ⟨i, h, rfl⟩⟩⟩⟩⟩ <;> exact h
    · rintro ⟨ha, hp⟩
      simp only [Option.orElse_eq_orElse, Option.orElse_eq_or, Option.or_eq_some_iff, Option.map_eq_some_iff,
        Option.map_eq_none_iff, bankIndex_eq_some, bankIndex_eq_none]
      cases r <;> simp only [Reg.address, Reg.present] at ha hp <;> try omega
      · rename_i i; exact .inl ⟨i, ⟨ha, hp⟩, rfl⟩
      · rename_i i; exact .inr ⟨by omega, .inl ⟨i, ⟨ha, hp⟩, rfl⟩⟩
      · rename_i i; exact .inr ⟨by omega, .inr ⟨by omega, .inl ⟨i, ⟨ha, hp⟩, rfl⟩⟩⟩
      · rename_i i; exact .inr ⟨by omega, .inr ⟨by omega, .inr ⟨by omega, .inl ⟨i, ⟨ha, hp⟩, rfl⟩⟩⟩⟩
      · rename_i i; exact .inr ⟨by omega, .inr ⟨by omega, .inr ⟨by omega, .inr ⟨by omega, i, ⟨ha, hp⟩, rfl⟩⟩⟩⟩
  · have hn : addr.toNat < 11 := by omega
    unfold regAt
    generalize addr.toNat = n at hn hlo
    constructor
    · intro h
      interval_cases n <;> cases h <;> exact ⟨rfl, trivial⟩
    · rintro ⟨ha, hp⟩
      cases r <;> simp only [Reg.address] at ha <;> first | omega | (subst ha; rfl)

/-- A store changes no sizing parameter. -/
theorem storeReg_params (s : State) (r : Reg) (d : BitVec 32) : (storeReg s r d).params = s.params := by
  cases r <;> rfl

end Sys2Proof.Machine
end

