-- ==== Sys2Proof/Tests/Slice0.lean ====
section
/-!
SUPPORT. Small tests, with expected values from spec/95_test_vectors.md (its section is named), and a witness for the
hypotheses of every statement that has some.
-/

namespace Sys2Proof.Tests

open Sys2Proof.Machine

/-- What `f` says of the next state, none where there is none. -/
def after {α : Type} (o : Host.Outcome State Fault Refusal) (f : State → α) : Option α :=
  match o with
  | .next t => some (f t)
  | .fault _ => none
  | .refused _ => none

/-- Code and data of the response. -/
def answer (s : State) : Option (Nat × Nat) :=
  s.response.map fun r => (r.code.toNat, r.data.toNat)

/-- A state in which the host is about to send the word `w`. -/
def sending (w : BitVec 64) (s : State) : State :=
  { s with inputs := [.command w] }

def black : Color := ⟨0x00, 0x00, 0x00⟩
def grey : Color := ⟨0xAA, 0xAA, 0xAA⟩
def white : Color := ⟨0xFF, 0xFF, 0xFF⟩

/-- The answers of spec/95's fixture for black and 0xAAAAAA at the eight samples of lattice exponent 1. -/
def corners : List (Color × Color) :=
  [(⟨0, 0, 0⟩, black), (⟨0, 0, 255⟩, black), (⟨0, 255, 0⟩, black), (⟨0, 255, 255⟩, grey), (⟨255, 0, 0⟩, black),
   (⟨255, 0, 255⟩, grey), (⟨255, 255, 0⟩, grey), (⟨255, 255, 255⟩, grey)]

/-- Reset, then the palette and LAT of spec/95 section 3.4 at k = 1: ready for BUILD. -/
def unbuiltDemo : State :=
  { State.reset with
    latLog2 := 1, palcnt := 2, pal := (Vector.replicate 16 black).set 1 grey, member := corners }

/-- The map and the lattice that spec/95 section 3.4 gives for them. -/
def demo : State :=
  { unbuiltDemo with
    built := true
    used := 2
    slots := ((Vector.replicate 16 MapSlot.empty).set 0 ⟨true, black, ⟨0x3F, 0x3F, 0x3F⟩, 4⟩).set 1
      ⟨true, grey, ⟨0xBF, 0xBF, 0xBF⟩, 4⟩
    cube := [(0, 0), (1, 0), (2, 0), (3, 1), (4, 0), (5, 1), (6, 1), (7, 1)] }

/-- A ring of one value per slot, in all three channels. -/
def ringOf (vs : List (BitVec 16)) : Memory 16 :=
  cellsFrom 0 (vs.flatMap fun v => [v, v, v])

/-- The Floyd-Steinberg latch of width `w`. -/
def latchOf (w : Nat) : Vector KernelTerm 8 :=
  ((((Vector.replicate 8 { off := 0, num := 0 }).set 0 ⟨1, 7⟩).set 1 ⟨w - 1, 3⟩).set 2 ⟨w, 5⟩).set 3 ⟨w + 1, 1⟩

/-- A running image of width 2 with DEFAULT 0x555555 (spec/95 section 3.5), one pixel 0xFFFFFF in. -/
def filling : State :=
  { demo with
    mode := .filling, width := 2, ringN := 2, defaultColor := ⟨0x55, 0x55, 0x55⟩, fill := 1, inCount := 1,
    ringRam := ringOf [255, 85, 85], kactLen := 4, kact := latchOf 2 }

/-- The same ring full, and the host about to send PIXEL 0xFFFFFF, which steps. -/
def streaming : State :=
  { filling with mode := .streaming, fill := 3, inCount := 3, inputs := [.command 0x2100000000FFFFFF] }

/-! ### Well-formedness, decoding, encoding -/

theorem test_wellFormed_rejects_channel_3 : (Instr.ringWrc 0 3 0).wellFormed = false := by decide

theorem test_wellFormed_accepts_channel_2 : (Instr.ringWrc 0 2 0).wellFormed = true := by decide

/-- spec/95 section 3.1. -/
theorem test_decode_nop : decode 0x0000000000000000#64 = .command .nop := by decide
theorem test_decode_wrReg : decode 0x0100012389ABCDEF#64 = .command (.wrReg 0x123 0x89ABCDEF) := by decide
theorem test_decode_rdReg : decode 0x0200000A00000000#64 = .command (.rdReg 0x00A) := by decide
theorem test_decode_errClear : decode 0x0300000000000000#64 = .command .errClear := by decide
theorem test_decode_abort : decode 0x0400000000000000#64 = .command .abort := by decide
theorem test_decode_build : decode 0x1000000000000000#64 = .command .build := by decide
theorem test_decode_query : decode 0x1100000000123456#64 = .command (.query ⟨0x12, 0x34, 0x56⟩) := by decide
theorem test_decode_start : decode 0x2000000000000000#64 = .command .start := by decide
theorem test_decode_pixel : decode 0x2100000000CC00FF#64 = .command (.pixel ⟨0xCC, 0x00, 0xFF⟩) := by decide
theorem test_decode_end : decode 0x2200000000000000#64 = .command .endImage := by decide
theorem test_decode_ringReset : decode 0x3000000000000000#64 = .command .ringReset := by decide
theorem test_decode_ringRd : decode 0x310000000000FFFF#64 = .command (.ringRd 0xFFFF) := by decide
theorem test_decode_ringLd : decode 0x3200ABCDEF000003#64 = .command (.ringLd 3 ⟨0xAB, 0xCD, 0xEF⟩) := by decide
theorem test_decode_ringWrc : decode 0x3302FFFF00000002#64 = .command (.ringWrc 2 2 0xFFFF) := by decide
theorem test_decode_ringPush : decode 0x3400000000090909#64 = .command (.ringPush ⟨9, 9, 9⟩) := by decide

/-- Reserved opcodes, at the ends of their ranges (30_encoding.md R113). -/
theorem test_reserved_opcodes :
    ([0x05, 0x0F, 0x12, 0x1F, 0x23, 0x2F, 0x35, 0xFF].map fun op : BitVec 8 => decode (op ++ 0#56)) =
      List.replicate 8 .badOpcode := by decide

/-- Reserved operand bits (spec/95 section 3.1). -/
theorem test_reserved_bits :
    ([0x0000000000000001, 0x0001000000000000, 0x0200000000000001, 0x0280000000000000, 0x1100000001000000,
      0x3100000000010000, 0x3200000000010000, 0x3300000000010000, 0x3304000000000000, 0x3303000000000000,
      0x3400000001000000, 0x1000000000000001, 0x2200800000000000] : List (BitVec 64)).map decode =
      List.replicate 13 .badFormat := by decide

theorem test_encode_words :
    ([.wrReg 0x123 0x89ABCDEF, .rdReg 0x00A, .query ⟨0x12, 0x34, 0x56⟩, .ringRd 0xFFFF, .ringLd 3 ⟨0xAB, 0xCD, 0xEF⟩,
      .ringWrc 2 2 0xFFFF, .endImage] : List Instr).map encode =
      [0x0100012389ABCDEF, 0x0200000A00000000, 0x1100000000123456, 0x310000000000FFFF, 0x3200ABCDEF000003,
       0x3302FFFF00000002, 0x2200000000000000] := by decide

theorem test_decodeTableWord : decodeTableWord 64 0x3400000000090909 = some (.ringPush ⟨9, 9, 9⟩) := by decide

theorem test_withFetchWord :
    after (step (State.reset.withFetchWord 64 0x3100000000010000)) answer = some (some (9, 0)) := by decide

/-! ### Arithmetic (spec/95 section 3.2) -/

theorem test_accAdd_saturates : sat16 (32767 + 1) = 32767 ∧ sat16 (-32768 + -1) = -32768 := by decide
theorem test_sra : [sra (-1) 4, sra (-15) 4, sra (-16) 4, sra (-17) 4, sra 15 4, sra 16 4] = [-1, -1, -1, -2, 0, 1] := by
  decide
theorem test_accShr_saturates : accShr ⟨1048576, -8355840, 238⟩ 4 = ⟨32767, -32768, 14⟩ := by decide
theorem test_term : term ⟨34, -34, 0⟩ 7 = ⟨14, -15, 0⟩ := by decide
theorem test_term_bounds : (term ⟨-255, 255, -1⟩ 255).map BitVec.toInt = ⟨-4065, 4064, -16⟩ := by decide
theorem test_narrow : narrow ⟨300, -5, 128⟩ = ⟨0xFF, 0x00, 0x80⟩ := by decide
theorem test_narrow_ends : narrow ⟨-32768, 256, 32767⟩ = ⟨0, 255, 255⟩ := by decide

/-! ### Control commands -/

/-- spec/95 section 3.6. -/
theorem test_caps : after (exec (.rdReg 0x000) State.reset) answer = some (some (0, 0x11051000)) := by decide

theorem test_nop : after (exec .nop State.reset) answer = some (some (0, 0)) := by decide

/-- spec/95 program P3: 0x00B is reserved. -/
theorem test_rdReg_reserved : after (exec (.rdReg 0x00B) State.reset) answer = some (some (10, 0)) := by decide

/-- The reserved bits of KCTRL read 0, and a write to LAT makes the build stale. -/
theorem test_wrReg_stores :
    after (exec (.wrReg 0x005 0xFFFFFFFF) State.reset) (fun t => after (exec (.rdReg 0x005) t) answer) =
      some (some (some (0, 0xF01))) ∧
    after (exec (.wrReg 0x003 1) demo) (fun t => (t.built, t.used, t.slots[0].valid)) = some (false, 0, false) := by decide

/-- spec/95 program P3: STATUS is read-only, and no register can be written while an image runs. -/
theorem test_wrReg_fails :
    after (exec (.wrReg 0x001 0) filling) answer = some (some (10, 0)) ∧
    after (exec (.wrReg 0x002 5) filling) answer = some (some (7, 0)) := by decide

theorem test_errClear :
    after (exec .errClear { State.reset with err := 6, ofsWrap := true, shortPrime := true })
      (fun t => (t.err, t.ofsWrap, t.shortPrime)) = some (0, false, true) := by decide

/-- spec/95 program P3: ABORT keeps IN_COUNT. -/
theorem test_abort : after (exec .abort filling) (fun t => (t.mode, t.inCount)) = some (.idle, 1) := by decide

/-! ### The quantiser (spec/95 section 3.4) -/

theorem test_sampleLevel : (List.range 8).map (sampleLevel 3) = [0, 36, 72, 109, 145, 182, 218, 255] := by decide

theorem test_cellOf :
    [cellOf 1 ⟨0xCC, 0xCC, 0xCC⟩, cellOf 4 ⟨0xCC, 0xCC, 0xCC⟩, cellOf 4 ⟨0x12, 0x34, 0x56⟩, cellOf 1 ⟨0x7F, 0x7F, 0x7F⟩] =
      [7, 3276, 309, 0] := by decide

theorem test_build :
    after (exec .build unbuiltDemo) (fun t => (t.used.toNat, t.slots[0], t.slots[1])) =
      some (2, demo.slots[0], demo.slots[1]) ∧
    after (exec .build unbuiltDemo) (fun t => t.cube) = some demo.cube := by decide

theorem test_build_without_lattice : after (exec .build State.reset) answer = some (some (5, 0)) := by decide

theorem test_query : after (exec (.query ⟨0xCC, 0xCC, 0xCC⟩) demo) answer = some (some (0, 0xAAAAAA000D00D00D)) := by decide

theorem test_query_unbuilt : after (exec (.query black) State.reset) answer = some (some (6, 0)) := by decide

/-! ### The ring commands (spec/95 section 3.3) -/

/-- N = 2, CURSOR = 0, DEFAULT = 0x102030. -/
def ringDemo : State :=
  { State.reset with
    width := 2, ringN := 2, defaultColor := ⟨0x10, 0x20, 0x30⟩,
    ringRam := cellsFrom 0 [0x10, 0x20, 0x30, 0x10, 0x20, 0x30, 0x10, 0x20, 0x30] }

theorem test_ringReset_without_width : after (exec .ringReset State.reset) answer = some (some (1, 0)) := by decide

theorem test_ringReset :
    after (exec .ringReset { ringDemo with ringRam := [], ringN := 0 }) (fun t => (t.ringRam, t.ringN)) =
      some (ringDemo.ringRam, 2) := by decide

theorem test_ringRd : after (exec (.ringRd 0) ringDemo) answer = some (some (0, 0x0000001000200030)) := by decide

/-- RING_RD past N wraps and sets OFS_WRAP: N = 2, CURSOR = 1, offset 5 is slot 0. -/
theorem test_ringRd_wraps :
    after (exec (.ringRd 5) { ringDemo with cursor := 1, ringRam := ringOf [1, 2, 3] })
      (fun t => (answer t, t.ofsWrap)) = some (some (0, 0x0000000100010001), true) := by decide

theorem test_ringLd :
    after (exec (.ringLd 2 white) ringDemo) (fun t => t.ringRam.drop 6) = some [(6, 255), (7, 255), (8, 255)] := by decide

/-- RING_WRC 1, r, -300 leaves the other channels. -/
theorem test_ringWrc :
    after (exec (.ringWrc 1 0 0xFED4) ringDemo) (fun t => after (exec (.ringRd 1) t) answer) =
      some (some (some (0, 0x0000FED400200030))) := by decide

/-- The head slot takes the colour, and CURSOR wraps from N to 0. -/
theorem test_ringPush :
    after (exec (.ringPush ⟨1, 2, 3⟩) ringDemo) (fun t => (t.cursor, t.ringRam.take 3)) =
      some (1, [(0, 1), (1, 2), (2, 3)]) ∧
    after (exec (.ringPush black) { ringDemo with cursor := 2 }) (fun t => t.cursor) = some 0 := by decide

theorem test_ring_owned : after (exec (.ringPush black) filling) answer = some (some (7, 0)) := by decide

/-! ### The engine (spec/95 section 3.5) -/

theorem test_start_without_width : after (exec .start State.reset) answer = some (some (1, 0)) := by decide

theorem test_start :
    after (exec .start { demo with width := 2 }) (fun t => (t.mode, t.ringN, t.kact, t.ringRam)) =
      some (.filling, 2, latchOf 2, ringOf [0, 0, 0]) := by decide

theorem test_pixel_primes :
    after (exec (.pixel black) { filling with fill := 2 }) (fun t => (t.mode, t.fill, t.out)) =
      some (.streaming, 3, []) := by decide

/-- The head 0xFFFFFF is grey with error 64; the new pixel takes its slot. -/
theorem test_pixel_steps :
    after (exec (.pixel ⟨0x55, 0x55, 0x55⟩) streaming) (fun t => (t.ringRam, t.cursor, t.out)) =
      some (ringOf [89, 125, 105], 1, [grey]) := by decide

/-- The one-pixel image: END runs one step, and RING_RD 0 then reads 125. -/
theorem test_end :
    after (exec .endImage filling) (fun t => (t.mode, t.shortPrime)) = some (.done, true) ∧
    after (exec .endImage filling) (fun t => (t.out, t.ringRam)) = some ([grey], ringOf [89, 125, 105]) := by decide

theorem test_end_idle : after (exec .endImage demo) answer = some (some (7, 0)) := by decide

/-! ### Reset -/

theorem test_reset_memories_wf : State.reset.ringRam.wf ∧ State.reset.cube.wf := by decide

theorem test_reset_input :
    after (step { filling with inputs := [.reset] }) (fun t => (t.mode, t.built, t.width, t.ringRam)) =
      some (.idle, false, 0, []) := by decide

/-! ### Witnesses: states and operands that meet the hypotheses of the statements -/

theorem next_of_after {α : Type} {o : Host.Outcome State Fault Refusal} {f : State → α} {x : α}
    (h : after o f = some x) : ∃ t, o = .next t ∧ f t = x := by
  cases o with
  | next t => exact ⟨t, rfl, by simpa [after] using h⟩
  | fault c => cases h
  | refused c => cases h

theorem test_witness_DecodeOfEncode : (Instr.ringWrc 0xFFFF 2 0x8000).wellFormed = true := by decide

theorem test_witness_EncodeOfDecode : decode 0x3302FFFF00000002#64 = .command (.ringWrc 2 2 0xFFFF) := by decide

/-- A reserved opcode at each end of a range; a must-be-zero bit; RING_WRC's channel 3 with no other bit set. -/
theorem test_witness_ReservedEncodingsFail :
    (sending 0x0500000000000000 State.reset).inputs = [.command 0x0500000000000000] ∧
    (∀ op ∈ [0x05, 0x0F, 0x12, 0x1F, 0x23, 0x2F, 0x35, 0xFF],
      (0x05 ≤ op ∧ op ≤ 0x0F) ∨ (0x12 ≤ op ∧ op ≤ 0x1F) ∨ (0x23 ≤ op ∧ op ≤ 0x2F) ∨ 0x35 ≤ op) ∧
    (0x2200800000000000#64).extractLsb' 56 8 = 0x22#8 ∧ 0x2200800000000000#64 &&& 0x00FFFFFFFFFFFFFF#64 ≠ 0 ∧
    (0x3303000000000000#64).extractLsb' 48 2 = 3#2 ∧ 0x3303000000000000#64 &&& 0x00FC0000FFFF0000#64 = 0 := by decide

theorem test_witness_StepRunsDecodedCommand :
    (sending 0x0400000000000000 filling).inputs = [.command 0x0400000000000000] ∧
    decode 0x0400000000000000#64 = .command .abort := by decide

theorem test_witness_ResetRestoresEveryItem : { filling with inputs := [.reset, .command 0] }.inputs = .reset :: [.command 0] :=
  rfl

/-- A command that fails, one that succeeds, and ERR_CLEAR. -/
theorem test_witness_FirstErrorSticks :
    after (step (sending 0x0500000000000000 State.reset)) answer = some (some (8, 0)) ∧
    after (step (sending 0x0000000000000000 { demo with err := 6 })) (fun t => (answer t, t.err)) = some (some (0, 0), 6) ∧
    after (step (sending 0x0300000000000000 { demo with err := 6 })) (fun t => (answer t, t.err)) = some (some (0, 0), 0) := by
  decide

/-- BUILD with an illegal LAT; BUILD while an image runs; a word that does not decode. -/
theorem test_witness_FailureHasNoOtherEffect :
    after (step (sending 0x1000000000000000 { demo with latLog2 := 0 })) answer = some (some (5, 0)) ∧
    after (step (sending 0x1000000000000000 filling)) answer = some (some (7, 0)) ∧
    after (step (sending 0x1000000000000001 demo)) answer = some (some (9, 0)) := by decide

/-- OFS_WRAP at the boundary: offset N does not wrap, N + 1 does. -/
theorem test_witness_FlagsChangeOnlyAsListed :
    after (exec (.ringRd 2) ringDemo) (fun t => t.ofsWrap) = some false ∧
    after (exec (.ringRd 3) ringDemo) (fun t => t.ofsWrap) = some true ∧
    after (exec .start { demo with width := 1, shortPrime := true }) (fun t => (answer t, t.shortPrime)) =
      some (some (0, 0), false) := by decide

theorem test_witness_CommandWritesOnlyItsRow : ∃ t, exec (.wrReg 0x017 0) State.reset = .next t := ⟨_, rfl⟩

/-- N = 3, so that a pixel in STREAMING reaches every slot but those of logical offsets 4 and up. -/
def wide : State :=
  { streaming with width := 3, ringN := 3, fill := 4, ringRam := ringOf [255, 85, 85, 0], kact := latchOf 3, inCount := 4 }

theorem test_witness_MemoriesOutsideStoresUnchanged :
    (∃ t, exec (.pixel white) wide = .next t) ∧
    (wide.cursor.toNat ≠ 12 / 3 ∧ ∀ t ∈ wide.activeTerms, t.off ≠ 0 → 12 / 3 ≠ wide.phys t.off) := by
  exact ⟨⟨_, rfl⟩, by decide⟩

theorem test_witness_ParametersNeverChange : ∃ t, step (sending 0x2200000000000000 filling) = .next t := ⟨_, rfl⟩

/-- The last register of each bank, and a value for it. -/
theorem test_witness_WrRegStoresOrFails :
    State.reset.params.Legal ∧
    StoredAs State.reset 0x006 0xFFFFFFFF (unbuilt { State.reset with palcnt := 0x1F }) ∧
    StoredAs State.reset 0x017 0x10FFFFFF
      { State.reset with kernel := State.reset.kernel.set 7 { offset := 0xFFFFFF, num := 0x10 } } ∧
    StoredAs State.reset 0x02F 0x01ABCDEF
      (unbuilt { State.reset with pal := State.reset.pal.set 15 ⟨0xAB, 0xCD, 0xEF⟩ }) := by
  refine ⟨by decide, ?_, ?_, ?_⟩
  · exact .inr (.inr (.inr (.inr (.inl ⟨rfl, rfl⟩))))
  · exact .inr (.inr (.inr (.inr (.inr (.inl ⟨7, by decide, rfl, rfl⟩)))))
  · exact .inr (.inr (.inr (.inr (.inr (.inr ⟨15, by decide, rfl, rfl⟩)))))

/-- The addresses at which the register map's clauses meet. -/
theorem test_witness_register_addresses :
    (∀ a ∈ [0x002, 0x006, 0x010, 0x017, 0x020, 0x02F], IsReadWrite Params.reference a ∧ ¬ IsReadOnly Params.reference a) ∧
    (∀ a ∈ [0x000, 0x001, 0x007, 0x00A, 0x040, 0x04F, 0x050, 0x05F, 0x060, 0x06F],
      ¬ IsReadWrite Params.reference a ∧ IsReadOnly Params.reference a) ∧
    (∀ a ∈ [0x00B, 0x00F, 0x018, 0x01F, 0x030, 0x03F, 0x070, 0xFFFF],
      ¬ IsReadWrite Params.reference a ∧ ¬ IsReadOnly Params.reference a) := by
  simp only [List.forall_mem_cons, List.not_mem_nil, false_imp_iff, implies_true, and_true, IsReadWrite, IsReadOnly,
    Params.reference]
  omega

theorem test_witness_RdRegShowsOrFails :
    demo.params.Legal ∧ ShownAt demo 0x00A 2 ∧ ShownAt demo 0x041 0x80AAAAAA ∧ ShownAt demo 0x04F 0 := by
  refine ⟨by decide, ?_, ?_, ?_⟩
  · exact .inr (.inr (.inr (.inr (.inr (.inr (.inr (.inr (.inr (.inr (.inl ⟨rfl, by decide⟩))))))))))
  · exact .inr (.inr (.inr (.inr (.inr (.inr (.inr (.inr (.inr (.inr (.inr (.inr (.inr (.inl
      ⟨1, by decide, rfl, by decide⟩)))))))))))))
  · exact .inr (.inr (.inr (.inr (.inr (.inr (.inr (.inr (.inr (.inr (.inr (.inr (.inr (.inl
      ⟨15, by decide, rfl, by decide⟩)))))))))))))

theorem test_witness_ReservedBitsReadZero :
    State.reset.params.Legal ∧ (State.reset.mode = .idle ∨ State.reset.mode = .done) ∧
      IsReadWrite State.reset.params (0x005#16).toNat ∧ IsReadOnly State.reset.params (0x06F#16).toNat := by
  unfold IsReadWrite IsReadOnly
  decide

theorem test_witness_SamplesLieInTheirCells : 1 ≤ 8 ∧ 8 ≤ 8 ∧ 255 < 2 ^ 8 := by decide

theorem test_witness_BuildComputesEntriesAndLattice :
    unbuiltDemo.params.Legal ∧ (unbuiltDemo.mode = .idle ∨ unbuiltDemo.mode = .done) ∧
      1 ≤ unbuiltDemo.latLog2.toNat ∧ unbuiltDemo.latLog2.toNat ≤ unbuiltDemo.params.latLog2Max ∧
      unbuiltDemo.palcnt.toNat ≤ unbuiltDemo.params.palCap ∧
      (buildKeys unbuiltDemo.ask unbuiltDemo.latLog2.toNat).length ≤ unbuiltDemo.params.palCap ∧
      ∀ j : Fin 16, j.val < unbuiltDemo.palcnt.toNat → unbuiltDemo.pal[j] ∈ buildKeys unbuiltDemo.ask unbuiltDemo.latLog2.toNat := by
  decide

/-- A map of one slot, and a configured colour that no sample has. -/
theorem test_witness_BuildFailsInOrder :
    { unbuiltDemo with params := { Params.reference with palCap := 1 }, palcnt := 1 }.params.Legal ∧
    1 < (buildKeys unbuiltDemo.ask 1).length ∧
    { unbuiltDemo with pal := unbuiltDemo.pal.set 1 white }.pal[1] ∉ buildKeys unbuiltDemo.ask 1 := by decide

theorem test_witness_successful_build : ∃ t, exec .build unbuiltDemo = .next t ∧ t.response = some ⟨0, 0⟩ :=
  next_of_after (f := fun t => t.response) (by decide)

theorem demo_mapInv : demo.MapInv := by
  constructor <;> decide

theorem test_witness_WithErrorRoundTrip : demo.MapInv ∧ demo.built = true := ⟨demo_mapInv, rfl⟩

theorem test_witness_QueryAnswersOrFails : demo.built = true ∧ State.reset.built = false := by decide

theorem test_witness_TermIsFloorOfSixteenth :
    (⟨-255, 255, 0⟩ : Err).Each fun x => -255 ≤ x.toInt ∧ x.toInt ≤ 255 := by decide

theorem test_witness_TruncationLoss : (([7, 3, 5, 1] : List (BitVec 8)).map BitVec.toNat).sum = 16 := by decide

theorem test_witness_RingResetSizesAndFills :
    (State.reset.mode = .idle ∨ State.reset.mode = .done) ∧
    (∀ w ∈ [1, 4096], 1 ≤ w ∧ w ≤ State.reset.params.wmax) ∧
    (∀ w ∈ [0, 4097], w < 1 ∨ State.reset.params.wmax < w) ∧ filling.mode ≠ .idle ∧ filling.mode ≠ .done := by decide

theorem test_witness_RingRdReadsTheSlot :
    (ringDemo.mode = .idle ∨ ringDemo.mode = .done) ∧ ringDemo.SlotHolds 2 ⟨0x10, 0x20, 0x30⟩ := by decide

theorem test_witness_PushShiftsTheWindow :
    ringDemo.cursor.toNat ≤ ringDemo.ringN.toNat ∧ (ringDemo.mode = .idle ∨ ringDemo.mode = .done) ∧
      (∃ t, exec (.ringPush white) ringDemo = .next t) ∧ ringDemo.SlotHolds (ringDemo.phys 1) ⟨0x10, 0x20, 0x30⟩ ∧
      ringDemo.SlotHolds (ringDemo.phys 2) ⟨0x10, 0x20, 0x30⟩ :=
  ⟨by decide, by decide, ⟨_, rfl⟩, by decide, by decide⟩

theorem test_witness_EngineOwnsTheRing :
    (filling.mode = .filling ∨ filling.mode = .streaming ∨ filling.mode = .draining) ∧
      (Instr.ringWrc 0 2 1).wellFormed = true := by decide

/-- Built, with the smallest and the largest width. -/
theorem test_witness_StartConstructsOrFails :
    demo.params.Legal ∧ (demo.mode = .idle ∨ demo.mode = .done) ∧ demo.built = true ∧
      (∀ w ∈ [1, 4096], 1 ≤ w ∧ w ≤ demo.params.wmax) ∧ demo.kmode = false := by decide

/-- A custom kernel of width 2 with one term at `off`. -/
def customKernel (off : BitVec 24) : State :=
  { demo with width := 2, kmode := true, kcount := 1, kernel := demo.kernel.set 0 { offset := off, num := 16 } }

/-- A term one past the window's end, and one at -1. -/
theorem test_witness_kernel_outside : KernelOutsideWindow (customKernel 4) ∧ KernelOutsideWindow (customKernel 0xFFFFFF) :=
  ⟨⟨rfl, 0, by decide, by decide⟩, ⟨rfl, 0, by decide, by decide⟩⟩

/-- A term at the window's end. -/
theorem test_witness_kernel_inside : ¬ KernelOutsideWindow (customKernel 3) := by
  rintro ⟨-, i, hi, h⟩
  have h0 : i = 0 := by
    have : i.val < 1 := hi
    omega
  subst h0
  exact h (by decide)

theorem test_witness_kernel_length :
    KernelTooLong { demo with kmode := true, kcount := 9 } ∧ ¬ KernelTooLong { demo with kmode := true, kcount := 8 } := by
  unfold KernelTooLong
  decide

/-- The ring of `filling` and `streaming` as a function of the slot. -/
def demoRing (j : Nat) : Acc :=
  if j = 0 then ⟨255, 255, 255⟩ else ⟨85, 85, 85⟩

theorem filling_ringIs : filling.RingIs demoRing := by
  intro j hj
  have h : j ≤ 2 := hj
  interval_cases j <;> decide

theorem streaming_ringIs : streaming.RingIs demoRing := filling_ringIs

theorem test_witness_PixelStepsTheEngine :
    streaming.mode = .streaming ∧ streaming.RingIs demoRing ∧ streaming.cursor.toNat ≤ streaming.ringN.toNat :=
  ⟨rfl, streaming_ringIs, by decide⟩

theorem test_witness_PixelPrimesTheRing : filling.mode = .filling ∧ demo.mode = .idle := by decide

theorem test_witness_FloydSteinbergNeighbours :
    wide.mode = .streaming ∧ (∃ f, wide.RingIs f) ∧ wide.cursor.toNat ≤ wide.ringN.toNat ∧ 3 ≤ wide.ringN.toNat ∧
      wide.activeTerms = [⟨1, 7⟩, ⟨wide.ringN.toNat - 1, 3⟩, ⟨wide.ringN.toNat, 5⟩, ⟨wide.ringN.toNat + 1, 1⟩] := by
  refine ⟨rfl, ⟨fun j => if j = 3 then ⟨0, 0, 0⟩ else demoRing j, ?_⟩, by decide, by decide, by decide⟩
  intro j hj
  have h : j ≤ 3 := hj
  interval_cases j <;> decide

/-- From FILLING with FILL = 1, and from STREAMING. -/
theorem test_witness_EndDrainsTheRing :
    filling.RingIs demoRing ∧ filling.cursor.toNat ≤ filling.ringN.toNat ∧
      (filling.mode = .filling ∧ 1 = filling.fill.toNat) ∧
      (streaming.mode = .streaming ∧ 3 = streaming.ringN.toNat + 1) :=
  ⟨filling_ringIs, by decide, by decide, by decide⟩

theorem filling_runInv : filling.RunInv := by
  refine ⟨by decide, by decide, fun _ => rfl, fun _ => by decide, fun _ => by decide, fun _ => ⟨_, filling_ringIs⟩,
    fun _ => by decide, fun _ => by decide, ?_, ?_⟩
  · intro h; cases h
  · intro h; cases h

theorem streaming_runInv : streaming.RunInv := by
  refine ⟨by decide, by decide, fun _ => rfl, fun _ => by decide, fun _ => by decide, fun _ => ⟨_, streaming_ringIs⟩,
    fun _ => by decide, ?_, fun _ => by decide, ?_⟩
  · intro h; cases h
  · intro h; cases h

theorem streaming_accInv : streaming.AccInv := by
  intro _ d hd a ha
  have h : d ≤ 2 := hd
  obtain ⟨h0, h1, h2⟩ := ha
  cases a
  interval_cases d <;> simp only [] at h0 h1 h2 <;> cases h0 <;> cases h1 <;> cases h2 <;> unfold WithinTerms <;> decide

theorem filling_accInv : filling.AccInv := by
  intro _ d hd a ha
  have h : d ≤ 2 := hd
  obtain ⟨h0, h1, h2⟩ := ha
  cases a
  interval_cases d <;> simp only [] at h0 h1 h2 <;> cases h0 <;> cases h1 <;> cases h2 <;> unfold WithinTerms <;> decide

/-- Two states that differ in ERR, the counters and the output so far. -/
theorem test_witness_EmissionDependsOnlyOnTheEngine :
    SameEngine streaming { streaming with err := 3, inCount := 7, out := [grey] } demoRing ∧ streaming.mode = .streaming :=
  ⟨⟨rfl, streaming_ringIs, streaming_ringIs, rfl, rfl, rfl, by decide, rfl, rfl, fun _ => rfl⟩, rfl⟩

theorem test_witness_EndBalancesTheCounters :
    (filling.RunInv ∧ filling.mode = .filling) ∧ (streaming.RunInv ∧ streaming.mode = .streaming) :=
  ⟨⟨filling_runInv, rfl⟩, ⟨streaming_runInv, rfl⟩⟩

theorem test_witness_RunningImageNeverFails : filling.mode = .filling ∧ streaming.mode = .streaming := by decide

/-- Each listed change of MODE is taken by some command. -/
theorem test_witness_ModeChangesOnlyAsListed :
    after (exec .start { demo with width := 1 }) (fun t => t.mode) = some .filling ∧
    after (exec (.pixel white) { filling with fill := 2 }) (fun t => t.mode) = some .streaming ∧
    after (exec .endImage streaming) (fun t => t.mode) = some .done ∧
    after (exec .abort streaming) (fun t => t.mode) = some .idle := by decide

theorem test_witness_OutOnlyGrows : ∃ t, exec (.pixel black) streaming = .next t := ⟨_, rfl⟩

theorem test_witness_OnlyBuildAsksThePort : Instr.query white ≠ .build := by decide

theorem test_witness_ConfigurationFrozenWhileRunning :
    streaming.mode = .streaming ∧ ∃ t, exec (.wrReg 0x003 1) streaming = .next t := ⟨rfl, ⟨_, rfl⟩⟩

/-- The state that is about to take one more pixel meets every invariant. -/
theorem test_witness_StepKeepsStoreInv :
    streaming.StoreInv ∧ ∃ t, step streaming = .next t := by
  refine ⟨?_, ⟨_, rfl⟩⟩
  constructor <;> decide

theorem test_witness_StepKeepsMapInv :
    (sending 0x1000000000000000 demo).MapInv ∧ ∃ t, step (sending 0x1000000000000000 demo) = .next t := by
  refine ⟨⟨demo_mapInv.legal, demo_mapInv.usedLe, demo_mapInv.validIff, demo_mapInv.clearAbove, demo_mapInv.keysDistinct,
    demo_mapInv.countPos, demo_mapInv.unbuiltClear, demo_mapInv.builtLattice, demo_mapInv.builtCells⟩, ?_⟩
  obtain ⟨t, h, -⟩ := next_of_after
    (show after (step (sending 0x1000000000000000 demo)) (fun t => t.built) = some true by decide)
  exact ⟨t, h⟩

theorem test_witness_StepKeepsRunInv :
    streaming.RunInv ∧ streaming.AccInv ∧ ∃ t, step streaming = .next t :=
  ⟨streaming_runInv, streaming_accInv, ⟨_, rfl⟩⟩

/-- A PIXEL in STREAMING, an END in FILLING with FILL = 1, and an END in STREAMING with N + 1 = 3. -/
theorem test_witness_EngineAddsExactly :
    (streaming.RunInv ∧ streaming.AccInv ∧ streaming.RingIs demoRing ∧ streaming.mode = .streaming) ∧
    (filling.RunInv ∧ filling.AccInv ∧ filling.RingIs demoRing ∧ filling.mode = .filling ∧ 1 = filling.fill.toNat) ∧
    3 = streaming.ringN.toNat + 1 :=
  ⟨⟨streaming_runInv, streaming_accInv, streaming_ringIs, rfl⟩,
    ⟨filling_runInv, filling_accInv, filling_ringIs, rfl, by decide⟩, by decide⟩

end Sys2Proof.Tests
end

section
/-!
SUPPORT. What one step can do, said once for every statement about `step`; and the first statement settled with it, that
the sizing parameters and the membership port stay as they are.
-/

namespace Sys2Proof.Machine

/-! ### One step -/

/-- Everything a step that answers `t` can be: idle, reset, a word that does not decode, or a command. -/
theorem step_cases {s t : State} (h : step s = .next t) :
    (s.inputs = [] ∧ t = s) ∨
    (∃ rest, s.inputs = .reset :: rest ∧ t = resetBlock { s with inputs := rest }) ∨
    (∃ w rest, s.inputs = .command w :: rest ∧ decode w = .badOpcode ∧
      t = State.raise { s with inputs := rest } .badOpcode) ∨
    (∃ w rest, s.inputs = .command w :: rest ∧ decode w = .badFormat ∧
      t = State.raise { s with inputs := rest } .badFormat) ∨
    ∃ w rest i, s.inputs = .command w :: rest ∧ decode w = .command i ∧ exec i { s with inputs := rest } = .next t := by
  unfold step fetch at h
  rcases hin : s.inputs with _ | ⟨w | _, rest⟩ <;> simp only [hin] at h
  · cases h
    exact .inl ⟨rfl, rfl⟩
  · rcases hw : decode w with i | _ | _ <;> simp only [hw] at h
    · exact .inr (.inr (.inr (.inr ⟨w, rest, i, rfl, hw, h⟩)))
    · cases h
      exact .inr (.inr (.inl ⟨w, rest, rfl, hw, rfl⟩))
    · cases h
      exact .inr (.inr (.inr (.inl ⟨w, rest, rfl, hw, rfl⟩)))
  · cases h
    exact .inr (.inl ⟨rest, rfl, rfl⟩)

/-! ### What is fixed for the run -/

/-- `t` has the sizing parameters and the membership port of `s` (00_scope.md R9, 20_memory.md R90). -/
abbrev SameInstance (s t : State) : Prop :=
  t.params = s.params ∧ t.member = s.member

/-- A store changes no answer of the membership port. -/
@[simp] theorem storeReg_member (s : State) (r : Reg) (d : BitVec 32) : (storeReg s r d).member = s.member := by
  cases r <;> rfl

theorem stepPixel_sameInstance (x : Color) (s : State) : SameInstance s (stepPixel x s) := by
  obtain ⟨p, hp⟩ := stepPixel_frame x s
  rw [hp]
  exact ⟨rfl, rfl⟩

theorem drain_sameInstance (n : Nat) (s : State) : SameInstance s (drain n s) := by
  obtain ⟨ps, -, hps⟩ := stepTimes_frame s.defaultColor n { s with mode := .draining }
  unfold drain
  rw [hps]
  exact ⟨rfl, rfl⟩

/-- A command that succeeds keeps what is fixed for the run. -/
theorem Done.sameInstance {i : Instr} {s u : State} (h : Done i s u) : SameInstance s u := by
  cases i with
  | nop | errClear | abort => cases h; exact ⟨rfl, rfl⟩
  | wrReg addr d =>
    obtain ⟨-, r, -, -, rfl⟩ := h
    split <;> exact ⟨storeReg_params s r d, storeReg_member s r d⟩
  | rdReg addr => obtain ⟨rfl, -⟩ := h; exact ⟨rfl, rfl⟩
  | build => obtain ⟨-, -, -, -, -, -, rfl⟩ := h; exact ⟨rfl, rfl⟩
  | query c => obtain ⟨-, rfl⟩ := h; exact ⟨rfl, rfl⟩
  | start => obtain ⟨-, -, -, -, -, rfl⟩ := h; exact ⟨rfl, rfl⟩
  | pixel x =>
    obtain ⟨-, rfl⟩ | ⟨-, rfl⟩ := h
    · exact ⟨rfl, rfl⟩
    · exact stepPixel_sameInstance x { s with inCount := s.inCount + 1 }
  | endImage =>
    obtain ⟨-, rfl⟩ | ⟨-, rfl⟩ := h
    · exact drain_sameInstance s.fill.toNat { s with shortPrime := true }
    · exact drain_sameInstance s.ringLen s
  | ringReset => obtain ⟨-, -, rfl⟩ := h; exact ⟨rfl, rfl⟩
  | ringRd off => obtain ⟨-, rfl⟩ := h; rw [ringRead_snd]; exact ⟨rfl, rfl⟩
  | ringLd off c => obtain ⟨-, rfl⟩ := h; exact ⟨rfl, rfl⟩
  | ringWrc off ch v => obtain ⟨-, -, rfl⟩ := h; exact ⟨rfl, rfl⟩
  | ringPush c => obtain ⟨-, rfl⟩ := h; exact ⟨rfl, rfl⟩

/-- Every command keeps what is fixed for the run, whether it succeeds or fails. -/
theorem exec_sameInstance {i : Instr} {s t : State} (h : exec i s = .next t) : SameInstance s t := by
  obtain ⟨code, -, -, he⟩ | ⟨code, u, -, ⟨-, -, vs, -, rfl⟩, he⟩ | ⟨u, d, hd, he⟩ := exec_cases i s <;>
    cases he.symm.trans h
  · exact ⟨rfl, rfl⟩
  · exact ⟨rfl, rfl⟩
  · exact hd.sameInstance

/-- Settles O15: each kind of step keeps them, a command by `exec_sameInstance`. -/
theorem parametersNeverChange : Obligations.ParametersNeverChange := by
  intro s t h
  obtain ⟨-, rfl⟩ | ⟨rest, -, rfl⟩ | ⟨w, rest, -, -, rfl⟩ | ⟨w, rest, -, -, rfl⟩ | ⟨w, rest, i, -, -, he⟩ := step_cases h
  · exact ⟨rfl, rfl⟩
  · exact ⟨rfl, rfl⟩
  · exact ⟨rfl, rfl⟩
  · exact ⟨rfl, rfl⟩
  · exact exec_sameInstance (s := { s with inputs := rest }) he

end Sys2Proof.Machine
end

section
/-!
What a command writes. A store leaves every other ring channel as it was; every command writes its row of 10_state.md
R44 and nothing else; with these the statements about rows and memories are settled.
-/

namespace Sys2Proof.Machine

/-! ### Ring channels that a store leaves alone -/

theorem read?_ringWrite_of_ne {s : State} {j k : Nat} (a : Acc) (h : k / 3 ≠ j) :
    (s.ringWrite j a).ringRam.read? k = s.ringRam.read? k := by
  rw [read?_ringWrite, if_neg (by omega), if_neg (by omega), if_neg (by omega)]

theorem read?_ringFill_above {s : State} {n k : Nat} (a : Acc) (h : n < k / 3) :
    (s.ringFill n a).ringRam.read? k = s.ringRam.read? k := by
  rw [read?_ringFill, if_neg (by omega)]

theorem read?_sizeRing_above {s : State} {k : Nat} (h : s.width.toNat < k / 3) :
    s.sizeRing.ringRam.read? k = s.ringRam.read? k :=
  read?_ringFill_above _ h

theorem read?_ringAddTo_of_ne {s : State} {j k : Nat} (t : Acc) (h : k / 3 ≠ j) :
    (s.ringAddTo j t).ringRam.read? k = s.ringRam.read? k := by
  unfold State.ringAddTo
  rw [read?_ringWrite_of_ne _ h, ringRead_snd]

theorem ringLen_diffuseTerm (h : Nat) (e : Err) (s : State) (t : KernelTerm) :
    (diffuseTerm h e s t).ringLen = s.ringLen := by
  rw [diffuseTerm_frame]
  rfl

theorem read?_diffuseTerm_of_ne {h k : Nat} {s : State} {t : KernelTerm} (e : Err)
    (hk : t.off ≠ 0 → k / 3 ≠ (h + t.off) % s.ringLen) :
    (diffuseTerm h e s t).ringRam.read? k = s.ringRam.read? k := by
  unfold diffuseTerm
  split
  · rfl
  · rename_i h0
    exact read?_ringAddTo_of_ne _ (hk h0)

theorem read?_diffuse_of_ne {h k : Nat} {s : State} {terms : List KernelTerm} (e : Err)
    (hk : ∀ t ∈ terms, t.off ≠ 0 → k / 3 ≠ (h + t.off) % s.ringLen) :
    (terms.foldl (diffuseTerm h e) s).ringRam.read? k = s.ringRam.read? k := by
  induction terms generalizing s with
  | nil => rfl
  | cons t terms ih =>
    rw [List.foldl_cons, ih, read?_diffuseTerm_of_ne e (hk t List.mem_cons_self)]
    intro u hu
    rw [ringLen_diffuseTerm]
    exact hk u (List.mem_cons_of_mem _ hu)

/-- The ring RAM that STEP leaves (44_engine.md R246): the head slot refilled, then the kernel's terms. -/
theorem stepPixel_ringRam (x : Color) (s : State) :
    ∃ e d, (stepPixel x s).ringRam = (s.activeTerms.foldl (diffuseTerm s.cursor.toNat e)
      (State.ringWrite { s with draws := d } s.cursor.toNat (accFrom x))).ringRam := by
  refine ⟨(s.withError (narrow (s.ringRead s.cursor.toNat).1)).2, (s.ringRead s.cursor.toNat).2.draws, ?_⟩
  unfold stepPixel
  simp only
  rw [ringRead_snd]
  rfl

theorem read?_stepPixel_of_ne {s : State} {k : Nat} (x : Color) (hc : k / 3 ≠ s.cursor.toNat)
    (ht : ∀ t ∈ s.activeTerms, t.off ≠ 0 → k / 3 ≠ s.phys t.off) :
    (stepPixel x s).ringRam.read? k = s.ringRam.read? k := by
  obtain ⟨e, d, he⟩ := stepPixel_ringRam x s
  rw [he, read?_diffuse_of_ne e (by exact ht), read?_ringWrite_of_ne _ hc]

@[simp] theorem stepPixel_ringN (x : Color) (s : State) : (stepPixel x s).ringN = s.ringN := by
  obtain ⟨p, hp⟩ := stepPixel_frame x s
  rw [hp]

/-- An advanced head is a live slot (42_ring_fifo.md R173). -/
theorem advance_cursor_le (s : State) : s.advance.cursor.toNat ≤ s.ringN.toNat := by
  have hlt : (s.cursor.toNat + 1) % s.ringLen < s.ringLen := Nat.mod_lt _ (Nat.succ_pos _)
  rw [advance_cursor, BitVec.toNat_ofNat]
  exact (Nat.mod_le _ _).trans (Nat.le_of_lt_succ hlt)

theorem stepPixel_cursor_le (x : Color) (s : State) : (stepPixel x s).cursor.toNat ≤ s.ringN.toNat := by
  obtain ⟨p, hp⟩ := stepPixel_frame x s
  rw [hp]
  exact advance_cursor_le s

/-- The drain stores to live slots only. -/
theorem read?_stepTimes_above (x : Color) (n : Nat) {s : State} {k : Nat} (hc : s.cursor.toNat ≤ s.ringN.toNat)
    (hk : s.ringN.toNat < k / 3) : (stepTimes x n s).ringRam.read? k = s.ringRam.read? k := by
  induction n generalizing s with
  | zero => rfl
  | succ n ih =>
    rw [stepTimes, ih (by simpa using stepPixel_cursor_le x s) (by simpa using hk)]
    refine read?_stepPixel_of_ne x (by omega) fun t _ _ => ?_
    have := phys_le s t.off
    omega

/-- Everything END's drain can change. -/
theorem drain_frame (n : Nat) (s : State) :
    ∃ ps : List Color, ps.length = n ∧ drain n s =
      { s with
        mode := .done
        ringRam := (drain n s).ringRam
        cursor := (drain n s).cursor
        out := s.out ++ ps
        outCount := s.outCount + BitVec.ofNat 32 n
        draws := (drain n s).draws } := by
  obtain ⟨ps, hlen, hps⟩ := stepTimes_frame s.defaultColor n { s with mode := .draining }
  refine ⟨ps, hlen, ?_⟩
  unfold drain
  rw [hps]

/-! ### Every command writes its row -/

/-- RING_WRC's channel is one of the three. -/
theorem channel_lt {ch : BitVec 2} (h : ch ≠ 3) : ch.toNat < 3 := by
  have hne : ch.toNat ≠ 3 := fun he => h (BitVec.eq_of_toNat_eq he)
  omega

/-- WR_REG's store, with R67's INVALIDATE_BUILD, writes the register at the address and nothing else. -/
theorem storeReg_writesOnlyItsRow (s : State) {addr : BitVec 16} (d : BitVec 32) {r : Reg}
    (hr : regAt s.params addr = some r) (hw : r.writable = true) :
    WritesOnlyItsRow (.wrReg addr d) s
      (if r.invalidates then (storeReg s r d).invalidateBuild else storeReg s r d) := by
  obtain ⟨ha, -⟩ := regAt_eq_some.mp hr
  have own : ∀ {a : BitVec 16} {P : Prop}, a.toNat = r.address → addr ≠ a → P :=
    fun h hne => absurd (BitVec.eq_of_toNat_eq (ha.trans h.symm)) hne
  cases r with
  | caps | status | inCount | outCount | ringInfo | mapUsed | key | cent | count => cases hw
  | width =>
    exact ⟨rfl, own rfl, fun _ => rfl, fun _ => rfl, fun _ => ⟨rfl, rfl⟩, fun _ => rfl, fun _ _ => rfl, fun _ _ => rfl,
      fun _ _ _ => ⟨rfl, rfl, rfl⟩⟩
  | lat =>
    exact ⟨rfl, fun _ => rfl, own rfl, fun _ => rfl, fun _ => ⟨rfl, rfl⟩, fun _ => rfl, fun _ _ => rfl, fun _ _ => rfl,
      own rfl⟩
  | defaultColor =>
    exact ⟨rfl, fun _ => rfl, fun _ => rfl, own rfl, fun _ => ⟨rfl, rfl⟩, fun _ => rfl, fun _ _ => rfl, fun _ _ => rfl,
      fun _ _ _ => ⟨rfl, rfl, rfl⟩⟩
  | kctrl =>
    exact ⟨rfl, fun _ => rfl, fun _ => rfl, fun _ => rfl, own rfl, fun _ => rfl, fun _ _ => rfl, fun _ _ => rfl,
      fun _ _ _ => ⟨rfl, rfl, rfl⟩⟩
  | palcnt =>
    exact ⟨rfl, fun _ => rfl, fun _ => rfl, fun _ => rfl, fun _ => ⟨rfl, rfl⟩, own rfl, fun _ _ => rfl, fun _ _ => rfl,
      fun _ => own rfl⟩
  | kernel j =>
    have away : ∀ i : Fin 8, addr ≠ BitVec.ofNat 16 (0x010 + i.val) → j ≠ i := by
      rintro i hne rfl
      refine own ?_ hne
      simp [Reg.address]
      omega
    refine ⟨rfl, fun _ => rfl, fun _ => rfl, fun _ => rfl, fun _ => ⟨rfl, rfl⟩, fun _ => rfl, fun i hne => ?_,
      fun _ _ => rfl, fun _ _ _ => ⟨rfl, rfl, rfl⟩⟩
    exact Vector.getElem_set_ne j.isLt i.isLt (Fin.val_ne_of_ne (away i hne))
  | pal j =>
    have away : ∀ i : Fin 16, addr ≠ BitVec.ofNat 16 (0x020 + i.val) → j ≠ i := by
      rintro i hne rfl
      refine own ?_ hne
      simp [Reg.address]
      omega
    refine ⟨rfl, fun _ => rfl, fun _ => rfl, fun _ => rfl, fun _ => ⟨rfl, rfl⟩, fun _ => rfl, fun _ _ => rfl,
      fun i hne => ?_, fun _ _ hne => absurd rfl (away j (hne j))⟩
    exact Vector.getElem_set_ne j.isLt i.isLt (Fin.val_ne_of_ne (away i hne))

/-- A command that succeeds writes its row of R44. -/
theorem Done.writesOnlyItsRow {i : Instr} {s u : State} (h : Done i s u) : WritesOnlyItsRow i s u := by
  cases i with
  | nop | errClear | abort => cases h; rfl
  | wrReg addr d =>
    obtain ⟨-, r, hr, hw, rfl⟩ := h
    exact storeReg_writesOnlyItsRow s d hr hw
  | rdReg addr => obtain ⟨rfl, -⟩ := h; rfl
  | build => obtain ⟨-, -, -, -, -, -, rfl⟩ := h; rfl
  | query c => obtain ⟨-, rfl⟩ := h; rfl
  | start =>
    obtain ⟨-, -, -, -, -, rfl⟩ := h
    exact ⟨rfl, fun _ hk => read?_sizeRing_above hk⟩
  | pixel x =>
    obtain ⟨-, rfl⟩ | ⟨-, rfl⟩ := h
    · rfl
    · obtain ⟨p, hp⟩ := stepPixel_frame x { s with inCount := s.inCount + 1 }
      unfold WritesOnlyItsRow
      rw [hp]
  | endImage =>
    obtain ⟨-, rfl⟩ | ⟨-, rfl⟩ := h
    · obtain ⟨ps, -, hps⟩ := drain_frame s.fill.toNat { s with shortPrime := true }
      unfold WritesOnlyItsRow
      rw [hps]
    · obtain ⟨ps, -, hps⟩ := drain_frame s.ringLen s
      unfold WritesOnlyItsRow
      rw [hps]
  | ringReset =>
    obtain ⟨-, -, rfl⟩ := h
    exact ⟨rfl, fun _ hk => read?_sizeRing_above hk⟩
  | ringRd off => obtain ⟨-, rfl⟩ := h; rw [ringRead_snd]; rfl
  | ringLd off c =>
    obtain ⟨-, rfl⟩ := h
    exact ⟨rfl, fun _ hk => read?_ringWrite_of_ne _ hk⟩
  | ringWrc off ch v =>
    obtain ⟨hch, -, rfl⟩ := h
    refine ⟨rfl, fun k hk => ?_⟩
    rw [read?_ringWriteChannel, if_neg]
    · rfl
    · have := channel_lt hch
      change k / 3 ≠ (s.ringIndex off).1 at hk
      omega
  | ringPush c =>
    obtain ⟨-, rfl⟩ := h
    exact ⟨rfl, fun _ hk => read?_ringWrite_of_ne _ hk⟩

theorem WritesOnlyItsRow.refl (i : Instr) (s : State) : WritesOnlyItsRow i s s := by
  cases i with
  | nop | rdReg | errClear | abort | build | query | pixel | endImage | ringRd => rfl
  | wrReg addr d =>
    exact ⟨rfl, fun _ => rfl, fun _ => rfl, fun _ => rfl, fun _ => ⟨rfl, rfl⟩, fun _ => rfl, fun _ _ => rfl,
      fun _ _ => rfl, fun _ _ _ => ⟨rfl, rfl, rfl⟩⟩
  | start | ringReset | ringLd | ringWrc | ringPush => exact ⟨rfl, fun _ _ => rfl⟩

/-- The response is in every row. -/
theorem WritesOnlyItsRow.respond {i : Instr} {s u : State} (h : WritesOnlyItsRow i s u) (d : BitVec 64) :
    WritesOnlyItsRow i s (u.respond d) := by
  cases i with
  | nop | rdReg | errClear | abort | build | query | pixel | endImage | ringRd =>
    exact congrArg (State.respond · d) h
  | wrReg | start | ringReset | ringLd | ringWrc | ringPush =>
    obtain ⟨hu, hrest⟩ := h
    exact ⟨congrArg (State.respond · d) hu, hrest⟩

/-- ERR is in every row but ABORT's, which cannot fail. -/
theorem WritesOnlyItsRow.raise {i : Instr} {s u : State} (h : WritesOnlyItsRow i s u) (hi : i ≠ .abort)
    (code : ErrorCode) : WritesOnlyItsRow i s (u.raise code) := by
  cases i with
  | abort => exact absurd rfl hi
  | nop | rdReg | errClear | build | query | pixel | endImage | ringRd => exact congrArg (State.raise · code) h
  | wrReg | start | ringReset | ringLd | ringWrc | ringPush =>
    obtain ⟨hu, hrest⟩ := h
    exact ⟨congrArg (State.raise · code) hu, hrest⟩

/-- Every command writes its row of R44, whether it succeeds or fails. -/
theorem exec_writesOnlyItsRow {i : Instr} {s t : State} (h : exec i s = .next t) : WritesOnlyItsRow i s t := by
  by_cases hi : i = .abort
  · subst hi
    cases h
    rfl
  obtain ⟨code, -, -, he⟩ | ⟨code, u, rfl, ⟨-, -, vs, -, rfl⟩, he⟩ | ⟨u, d, hd, he⟩ := exec_cases i s <;>
    cases he.symm.trans h
  · exact (WritesOnlyItsRow.refl i s).raise hi code
  · rfl
  · exact hd.writesOnlyItsRow.respond d

/-! ### ERR -/

/-- An error code is 1 to 10 (60_exceptions.md R311). -/
theorem errorNumber_bounds (code : ErrorCode) : 1 ≤ (errorNumber code).toNat ∧ (errorNumber code).toNat ≤ 10 := by
  cases code <;> decide

theorem errorNumber_ne_zero (code : ErrorCode) : errorNumber code ≠ 0 := by
  cases code <;> decide

/-- A failure's response is no success. -/
theorem raise_response_ne (s : State) (code : ErrorCode) (d : BitVec 64) :
    (s.raise code).response ≠ some ⟨0, d⟩ :=
  fun h => errorNumber_ne_zero code (congrArg Response.code (Option.some.inj h))

/-- Of the commands that succeed only ERR_CLEAR writes ERR. -/
theorem Done.err_eq {i : Instr} {s u : State} (h : Done i s u) (hi : i ≠ .errClear) : u.err = s.err := by
  cases i with
  | errClear => exact absurd rfl hi
  | nop | abort => cases h; rfl
  | wrReg addr d =>
    obtain ⟨-, r, -, -, rfl⟩ := h
    cases r <;> rfl
  | rdReg addr => obtain ⟨rfl, -⟩ := h; rfl
  | build => obtain ⟨-, -, -, -, -, -, rfl⟩ := h; rfl
  | query c => obtain ⟨-, rfl⟩ := h; rfl
  | start => obtain ⟨-, -, -, -, -, rfl⟩ := h; rfl
  | pixel x =>
    obtain ⟨-, rfl⟩ | ⟨-, rfl⟩ := h
    · rfl
    · obtain ⟨p, hp⟩ := stepPixel_frame x { s with inCount := s.inCount + 1 }
      rw [hp]
  | endImage =>
    obtain ⟨-, rfl⟩ | ⟨-, rfl⟩ := h
    · obtain ⟨ps, -, hps⟩ := drain_frame s.fill.toNat { s with shortPrime := true }
      rw [hps]
    · obtain ⟨ps, -, hps⟩ := drain_frame s.ringLen s
      rw [hps]
  | ringReset => obtain ⟨-, -, rfl⟩ := h; rfl
  | ringRd off => obtain ⟨-, rfl⟩ := h; rw [ringRead_snd]; rfl
  | ringLd off c => obtain ⟨-, rfl⟩ := h; rfl
  | ringWrc off ch v => obtain ⟨-, -, rfl⟩ := h; rfl
  | ringPush c => obtain ⟨-, rfl⟩ := h; rfl

/-- Settles O13: the rows by `exec_writesOnlyItsRow`, and ERR because a success other than ERR_CLEAR's keeps it. -/
theorem commandWritesOnlyItsRow : Obligations.CommandWritesOnlyItsRow := by
  intro i s t h
  refine ⟨exec_writesOnlyItsRow h, fun hi ⟨d, hd⟩ => ?_⟩
  obtain ⟨code, -, -, he⟩ | ⟨code, u, -, -, he⟩ | ⟨u, d', hu, he⟩ := exec_cases i s <;> cases he.symm.trans h
  · exact absurd hd (raise_response_ne _ _ _)
  · exact absurd hd (raise_response_ne _ _ _)
  · exact hu.err_eq hi

/-! ### The memories outside the stores -/

/-- A command that succeeds leaves every ring channel outside its stores. -/
theorem Done.read?_ringRam {i : Instr} {s u : State} (h : Done i s u) {key : Nat} (hk : RingChannelSpared i s key) :
    u.ringRam.read? key = s.ringRam.read? key := by
  cases i with
  | nop | rdReg | errClear | abort | build | query | ringRd =>
    have row : u = _ := h.writesOnlyItsRow
    rw [row]
  | wrReg =>
    obtain ⟨row, -⟩ := h.writesOnlyItsRow
    rw [row]
  | start => obtain ⟨-, -, -, -, -, rfl⟩ := h; exact read?_sizeRing_above hk
  | pixel x =>
    obtain ⟨hfilling, hstreaming⟩ := hk
    obtain ⟨hm, rfl⟩ | ⟨hm, rfl⟩ := h
    · exact read?_ringWrite_of_ne _ (hfilling hm)
    · obtain ⟨hc, ht⟩ := hstreaming hm
      exact read?_stepPixel_of_ne x hc ht
  | endImage =>
    obtain ⟨hc, hN⟩ := hk
    obtain ⟨-, rfl⟩ | ⟨-, rfl⟩ := h
    · exact read?_stepTimes_above _ s.fill.toNat (s := { s with shortPrime := true, mode := .draining }) hc hN
    · exact read?_stepTimes_above _ s.ringLen (s := { s with mode := .draining }) hc hN
  | ringReset => obtain ⟨-, -, rfl⟩ := h; exact read?_sizeRing_above hk
  | ringLd off c => obtain ⟨-, rfl⟩ := h; exact read?_ringWrite_of_ne _ hk
  | ringWrc off ch v =>
    obtain ⟨-, -, rfl⟩ := h
    exact (read?_ringWriteChannel _ _ _ _ _).trans (if_neg hk)
  | ringPush c => obtain ⟨-, rfl⟩ := h; exact read?_ringWrite_of_ne _ hk

/-- No command but BUILD writes the lattice. -/
theorem WritesOnlyItsRow.cube_eq {i : Instr} {s u : State} (h : WritesOnlyItsRow i s u) (hi : i ≠ .build) :
    u.cube = s.cube := by
  cases i with
  | build => exact absurd rfl hi
  | nop | rdReg | errClear | abort | query | pixel | endImage | ringRd =>
    have row : u = _ := h
    rw [row]
  | wrReg | start | ringReset | ringLd | ringWrc | ringPush =>
    obtain ⟨row, -⟩ := h
    rw [row]

/-- Cells above a run written from cell 0 read as before. -/
theorem read?_writeRun_above {w : Nat} {m : Memory w} {vs : List (BitVec w)} {bound idx : Nat}
    (hlen : vs.length ≤ bound) (hi : bound ≤ idx) : (m.writeRun 0 vs).read? idx = m.read? idx := by
  rw [read?_writeRun, if_neg (by omega)]

/-- The cells that a failed BUILD may have written lie inside its lattice and inside the largest one. -/
theorem BuildFailed.cells {s u : State} {code : ErrorCode} (h : BuildFailed s u code) :
    ∃ vs : List (BitVec 4), vs.length ≤ 2 ^ (3 * s.latLog2.toNat) ∧ vs.length ≤ 2 ^ (3 * s.params.latLog2Max) ∧
      u = { s.invalidateBuild with cube := s.cube.writeRun 0 vs } := by
  obtain ⟨-, -, vs, rfl | ⟨-, hk, hlen⟩, rfl⟩ := h
  · exact ⟨[], Nat.zero_le _, Nat.zero_le _, rfl⟩
  · exact ⟨vs, hlen, hlen.trans (Nat.pow_le_pow_right (by decide) (by omega)), rfl⟩

/-- So do the cells that BUILD writes where it succeeds. -/
theorem Done.build_cells {s u : State} (h : Done .build s u) :
    ∃ vs : List (BitVec 4), vs.length ≤ 2 ^ (3 * s.latLog2.toNat) ∧ vs.length ≤ 2 ^ (3 * s.params.latLog2Max) ∧
      u.cube = s.cube.writeRun 0 vs := by
  obtain ⟨-, -, hk, -, -, -, rfl⟩ := h
  have hlen : (sweep s.ask s.params.palCap s.latLog2.toNat).cells.reverse.length ≤ 2 ^ (3 * s.latLog2.toNat) := by
    rw [List.length_reverse]
    exact sweep_cells_length_le _ _ _
  exact ⟨_, hlen, hlen.trans (Nat.pow_le_pow_right (by decide) (by omega)), rfl⟩

/-- Settles O14: a failure writes no memory but for BUILD's cells, a success what its stores write. -/
theorem memoriesOutsideStoresUnchanged : Obligations.MemoriesOutsideStoresUnchanged := by
  intro i s t h
  obtain ⟨code, -, -, he⟩ | ⟨code, u, rfl, hb, he⟩ | ⟨u, d, hd, he⟩ := exec_cases i s <;> cases he.symm.trans h
  · exact ⟨fun _ _ => rfl, fun _ _ => rfl⟩
  · obtain ⟨vs, hlen, -, rfl⟩ := hb.cells
    exact ⟨fun _ _ => rfl, fun idx hi => read?_writeRun_above hlen (hi rfl)⟩
  · refine ⟨fun key hk => hd.read?_ringRam hk, fun idx hi => ?_⟩
    by_cases hbuild : i = .build
    · subst hbuild
      obtain ⟨vs, hlen, -, hcube⟩ := hd.build_cells
      rw [respond_cube, hcube, read?_writeRun_above hlen (hi rfl)]
    · rw [respond_cube, hd.writesOnlyItsRow.cube_eq hbuild]

end Sys2Proof.Machine
end

section
/-!
ERR, the two flags and OUT: what each command does to them (10_state.md R34, R36, R37, R43).
-/

namespace Sys2Proof.Machine

/-! ### ERR -/

/-- A failure answers its code, 1 to 10, and ERR takes it where it was 0. -/
theorem raise_sticks (s : State) (code : ErrorCode) :
    ∃ r, (s.raise code).response = some r ∧ 1 ≤ r.code.toNat ∧ r.code.toNat ≤ 10 ∧ r.data = 0 ∧
      (s.raise code).err = if s.err = 0 then r.code else s.err := by
  obtain ⟨hlo, hhi⟩ := errorNumber_bounds code
  exact ⟨⟨errorNumber code, 0⟩, rfl, hlo, hhi, rfl, rfl⟩

/-- A command either fails with a code 1 to 10 that ERR takes where it was 0, or succeeds and leaves ERR, which only
ERR_CLEAR sets to 0. -/
theorem exec_err {i : Instr} {s t : State} (h : exec i s = .next t) :
    ∃ r, t.response = some r ∧
      ((1 ≤ r.code.toNat ∧ r.code.toNat ≤ 10 ∧ r.data = 0 ∧ t.err = if s.err = 0 then r.code else s.err) ∨
       (r.code = 0 ∧ t.err = if i = .errClear then 0 else s.err)) := by
  obtain ⟨code, -, -, he⟩ | ⟨code, u, -, ⟨-, -, vs, -, rfl⟩, he⟩ | ⟨u, d, hd, he⟩ := exec_cases i s <;>
    cases he.symm.trans h
  · obtain ⟨r, hr, hs⟩ := raise_sticks s code
    exact ⟨r, hr, .inl hs⟩
  · obtain ⟨r, hr, hs⟩ := raise_sticks { s.invalidateBuild with cube := s.cube.writeRun 0 vs } code
    exact ⟨r, hr, .inl hs⟩
  · refine ⟨⟨0, d⟩, rfl, .inr ⟨rfl, ?_⟩⟩
    split
    · rename_i hi
      subst hi
      cases hd
      rfl
    · rename_i hi
      exact hd.err_eq hi

/-- Settles O9: each kind of step by itself, a command by `exec_err`. -/
theorem firstErrorSticks : Obligations.FirstErrorSticks := by
  refine ⟨rfl, ?_, ?_, ?_⟩
  · intro s t w rest hin h
    obtain ⟨hq, -⟩ | ⟨r, hq, -⟩ | ⟨v, r, -, -, rfl⟩ | ⟨v, r, -, -, rfl⟩ | ⟨v, r, i, hq, hv, he⟩ := step_cases h
    · cases hin.symm.trans hq
    · cases hin.symm.trans hq
    · obtain ⟨q, hr, hs⟩ := raise_sticks { s with inputs := r } .badOpcode
      exact ⟨q, hr, .inl hs⟩
    · obtain ⟨q, hr, hs⟩ := raise_sticks { s with inputs := r } .badFormat
      exact ⟨q, hr, .inl hs⟩
    · cases hin.symm.trans hq
      rw [hv]
      simpa only [Decoded.command.injEq] using exec_err he
  · intro s t rest hin h
    simp only [step, fetch, hin] at h
    cases h
    rfl
  · intro s t hin h
    simp only [step, fetch, hin] at h
    cases h
    rfl

/-! ### SHORT_PRIME and OFS_WRAP -/

/-- START and END apart, no command writes SHORT_PRIME. -/
theorem WritesOnlyItsRow.shortPrime_eq {i : Instr} {s t : State} (h : WritesOnlyItsRow i s t) (hs : i ≠ .start)
    (he : i ≠ .endImage) : t.shortPrime = s.shortPrime := by
  cases i with
  | start => exact absurd rfl hs
  | endImage => exact absurd rfl he
  | nop | rdReg | errClear | abort | build | query | pixel | ringRd =>
    have row : t = _ := h
    rw [row]
  | wrReg | ringReset | ringLd | ringWrc | ringPush =>
    obtain ⟨row, -⟩ := h
    rw [row]

/-- ERR_CLEAR and the commands that name an offset apart, no command writes OFS_WRAP. -/
theorem WritesOnlyItsRow.ofsWrap_eq {i : Instr} {s t : State} (h : WritesOnlyItsRow i s t) (hc : i ≠ .errClear)
    (hn : namedOffset i = none) : t.ofsWrap = s.ofsWrap := by
  cases i with
  | errClear => exact absurd rfl hc
  | ringRd | ringLd | ringWrc => cases hn
  | nop | rdReg | abort | build | query | pixel | endImage =>
    have row : t = _ := h
    rw [row]
  | wrReg | start | ringReset | ringPush =>
    obtain ⟨row, -⟩ := h
    rw [row]

/-- START fails and changes nothing else, or it clears SHORT_PRIME and answers 0. -/
theorem exec_start_shortPrime {s t : State} (h : exec .start s = .next t) :
    (∃ code, t = s.raise code) ∨ (t.shortPrime = false ∧ t.response = some ⟨0, 0⟩) := by
  simp only [exec, execStart] at h
  iterate 5
    split at h
    · cases h
      exact .inl ⟨_, rfl⟩
  cases h
  exact .inr ⟨rfl, rfl⟩

@[simp] theorem drain_shortPrime (n : Nat) (s : State) : (drain n s).shortPrime = s.shortPrime := by
  obtain ⟨ps, -, hps⟩ := drain_frame n s
  rw [hps]

/-- END sets SHORT_PRIME in FILLING and keeps it elsewhere. -/
theorem exec_endImage_shortPrime {s t : State} (h : exec .endImage s = .next t) :
    t.shortPrime = if s.mode = .filling then true else s.shortPrime := by
  simp only [exec, execEndImage] at h
  split at h <;> rename_i hm <;> cases h <;> simp [hm]

/-- A success that names an offset sets OFS_WRAP where the offset exceeds N (42_ring_fifo.md R175). -/
theorem Done.ofsWrap_eq {i : Instr} {s u : State} (h : Done i s u) {off : BitVec 16} (hn : namedOffset i = some off) :
    u.ofsWrap = (s.ofsWrap || decide (s.ringN.toNat < off.toNat)) := by
  cases i with
  | ringRd => cases hn; obtain ⟨-, rfl⟩ := h; rw [ringRead_snd]; rfl
  | ringLd => cases hn; obtain ⟨-, rfl⟩ := h; rfl
  | ringWrc => cases hn; obtain ⟨-, -, rfl⟩ := h; rfl
  | nop | wrReg | rdReg | errClear | abort | build | query | start | pixel | endImage | ringReset | ringPush => cases hn

/-- Settles O12: the commands that write a flag by their own lemmas, all others by their rows. -/
theorem flagsChangeOnlyAsListed : Obligations.FlagsChangeOnlyAsListed := by
  refine ⟨rfl, rfl, fun i s t h => ⟨?_, ?_, ?_, ?_⟩⟩
  · by_cases hs : i = .start
    · subst hs
      obtain ⟨code, rfl⟩ | ⟨hf, hr⟩ := exec_start_shortPrime h
      · rw [if_neg fun hr => raise_response_ne _ _ _ hr.2, if_neg (by simp), raise_shortPrime]
      · rw [if_pos ⟨rfl, hr⟩, hf]
    · rw [if_neg fun hi => hs hi.1]
      by_cases he : i = .endImage
      · subst he
        simpa using exec_endImage_shortPrime h
      · rw [if_neg fun hi => he hi.1, (exec_writesOnlyItsRow h).shortPrime_eq hs he]
  · rintro rfl
    cases h
    rfl
  · rintro off hn ⟨d, hd⟩
    obtain ⟨code, -, -, he⟩ | ⟨code, u, -, -, he⟩ | ⟨u, d', hu, he⟩ := exec_cases i s <;> cases he.symm.trans h
    · exact absurd hd (raise_response_ne _ _ _)
    · exact absurd hd (raise_response_ne _ _ _)
    · exact hu.ofsWrap_eq hn
  · rintro hc (hn | ⟨c, d, hr, hne⟩)
    · exact (exec_writesOnlyItsRow h).ofsWrap_eq hc hn
    · obtain ⟨code, -, -, he⟩ | ⟨code, u, -, ⟨-, -, vs, -, rfl⟩, he⟩ | ⟨u, d', -, he⟩ := exec_cases i s <;>
        cases he.symm.trans h
      · rfl
      · rfl
      · cases hr
        exact absurd rfl hne

/-! ### OUT -/

/-- PIXEL and END apart, no command writes OUT, and but for START none writes OUT_COUNT. -/
theorem WritesOnlyItsRow.out_eq {i : Instr} {s t : State} (h : WritesOnlyItsRow i s t) (hp : ∀ x, i ≠ .pixel x)
    (he : i ≠ .endImage) : t.out = s.out ∧ (i ≠ .start → t.outCount = s.outCount) := by
  cases i with
  | pixel x => exact absurd rfl (hp x)
  | endImage => exact absurd rfl he
  | start =>
    obtain ⟨row, -⟩ := h
    exact ⟨by rw [row], fun hs => absurd rfl hs⟩
  | nop | rdReg | errClear | abort | build | query | ringRd =>
    have row : t = _ := h
    rw [row]
    exact ⟨rfl, fun _ => rfl⟩
  | wrReg | ringReset | ringLd | ringWrc | ringPush =>
    obtain ⟨row, -⟩ := h
    rw [row]
    exact ⟨rfl, fun _ => rfl⟩

/-- A PIXEL or END that succeeds appends to OUT and adds as many to OUT_COUNT. -/
theorem Done.emits {i : Instr} {s u : State} (h : Done i s u) (hi : (∃ x, i = .pixel x) ∨ i = .endImage) :
    ∃ ps : List Color, u.out = s.out ++ ps ∧ u.outCount = s.outCount + BitVec.ofNat 32 ps.length := by
  obtain ⟨x, rfl⟩ | rfl := hi
  · obtain ⟨-, rfl⟩ | ⟨-, rfl⟩ := h
    · exact ⟨[], (List.append_nil _).symm, (BitVec.add_zero _).symm⟩
    · obtain ⟨p, hp⟩ := stepPixel_frame x { s with inCount := s.inCount + 1 }
      rw [hp]
      exact ⟨[p], rfl, rfl⟩
  · obtain ⟨-, rfl⟩ | ⟨-, rfl⟩ := h
    · obtain ⟨ps, hlen, hps⟩ := drain_frame s.fill.toNat { s with shortPrime := true }
      rw [hps]
      exact ⟨ps, rfl, by rw [hlen]⟩
    · obtain ⟨ps, hlen, hps⟩ := drain_frame s.ringLen s
      rw [hps]
      exact ⟨ps, rfl, by rw [hlen]⟩

/-- Settles O47: PIXEL and END append what they emit, and every other command's row leaves OUT out. -/
theorem outOnlyGrows : Obligations.OutOnlyGrows := by
  refine ⟨rfl, fun i s t h => ?_⟩
  have silent : t.out = s.out ∧ (i ≠ .start → t.outCount = s.outCount) → ∃ ps : List Color, t.out = s.out ++ ps ∧
      (ps ≠ [] → (∃ x, i = .pixel x) ∨ i = .endImage) ∧
      (i ≠ .start → t.outCount = s.outCount + BitVec.ofNat 32 ps.length) := by
    rintro ⟨hout, hcount⟩
    exact ⟨[], by rw [hout, List.append_nil], fun h => absurd rfl h, fun hs => (hcount hs).trans (BitVec.add_zero _).symm⟩
  by_cases hi : (∃ x, i = .pixel x) ∨ i = .endImage
  · obtain ⟨code, -, -, he⟩ | ⟨code, u, -, ⟨-, -, vs, -, rfl⟩, he⟩ | ⟨u, d, hd, he⟩ := exec_cases i s <;>
      cases he.symm.trans h
    · exact silent ⟨rfl, fun _ => rfl⟩
    · exact silent ⟨rfl, fun _ => rfl⟩
    · obtain ⟨ps, hout, hcount⟩ := hd.emits hi
      exact ⟨ps, hout, fun _ => hi, fun _ => hcount⟩
  · exact silent ((exec_writesOnlyItsRow h).out_eq (fun x hx => hi (.inl ⟨x, hx⟩)) fun he => hi (.inr he))

end Sys2Proof.Machine
end

section
/-!
The invariants of Safety.lean over a step: the induction step said once, then the memories and the pointers (StoreInv).
-/

namespace Sys2Proof.Machine

/-! ### What a step has to keep -/

/-- A step keeps what is kept by taking an input off the port, by reset, by a response, by a failure, by what a failed
BUILD leaves and by what a success does. -/
theorem step_keeps {P : State → Prop} (hport : ∀ s rest, P s → P { s with inputs := rest })
    (hreset : ∀ s, P s → P (resetBlock s)) (hraise : ∀ s code, P s → P (s.raise code))
    (hrespond : ∀ s d, P s → P (s.respond d)) (hbuild : ∀ s u code, P s → BuildFailed s u code → P u)
    (hdone : ∀ i s u, P s → Done i s u → P u) {s t : State} (hs : P s) (h : step s = .next t) : P t := by
  obtain ⟨-, rfl⟩ | ⟨rest, -, rfl⟩ | ⟨w, rest, -, -, rfl⟩ | ⟨w, rest, -, -, rfl⟩ | ⟨w, rest, i, -, -, h⟩ := step_cases h
  · exact hs
  · exact hreset _ (hport s rest hs)
  · exact hraise _ _ (hport s rest hs)
  · exact hraise _ _ (hport s rest hs)
  · obtain ⟨code, -, -, he⟩ | ⟨code, u, -, hb, he⟩ | ⟨u, d, hd, he⟩ := exec_cases i { s with inputs := rest } <;>
      cases he.symm.trans h
    · exact hraise _ _ (hport s rest hs)
    · exact hraise _ _ (hbuild _ _ _ (hport s rest hs) hb)
    · exact hrespond _ _ (hdone _ _ _ (hport s rest hs) hd)

/-! ### Memories in canonical form and inside their range -/

/-- A memory in canonical form with every listed address below a bound. -/
structure Memory.Fits {w : Nat} (m : Memory w) (bound : Nat) : Prop where
  wf : m.wf
  below : m.Below bound

theorem Memory.Fits.writeRun {w : Nat} {m : Memory w} {bound base : Nat} {vs : List (BitVec w)} (h : m.Fits bound)
    (hb : base + vs.length ≤ bound) : Memory.Fits (m.writeRun base vs) bound :=
  ⟨wf_writeRun h.wf _ _, below_writeRun h.below hb⟩

theorem ringWrite_fits {s : State} {bound j : Nat} (h : s.ringRam.Fits bound) (hj : 3 * (j + 1) ≤ bound) (a : Acc) :
    (s.ringWrite j a).ringRam.Fits bound :=
  h.writeRun hj

theorem ringAddTo_fits {s : State} {bound j : Nat} (h : s.ringRam.Fits bound) (hj : 3 * (j + 1) ≤ bound) (t : Acc) :
    (s.ringAddTo j t).ringRam.Fits bound := by
  refine ringWrite_fits ?_ hj _
  rw [ringRead_snd]
  exact h

theorem diffuseTerm_fits {s : State} {bound : Nat} (h : s.ringRam.Fits bound) (hb : 3 * s.ringLen ≤ bound) (j : Nat)
    (e : Err) (t : KernelTerm) : (diffuseTerm j e s t).ringRam.Fits bound := by
  unfold diffuseTerm
  split
  · exact h
  · have : (j + t.off) % s.ringLen < s.ringLen := Nat.mod_lt _ (Nat.succ_pos _)
    exact ringAddTo_fits h (by omega) _

theorem diffuse_fits {s : State} {bound : Nat} (h : s.ringRam.Fits bound) (hb : 3 * s.ringLen ≤ bound) (j : Nat)
    (e : Err) (terms : List KernelTerm) : (terms.foldl (diffuseTerm j e) s).ringRam.Fits bound := by
  induction terms generalizing s with
  | nil => exact h
  | cons t terms ih => exact ih (diffuseTerm_fits h hb j e t) (by rwa [ringLen_diffuseTerm])

theorem stepPixel_fits {s : State} {bound : Nat} (h : s.ringRam.Fits bound) (hb : 3 * s.ringLen ≤ bound)
    (hc : s.cursor.toNat ≤ s.ringN.toNat) (x : Color) : (stepPixel x s).ringRam.Fits bound := by
  obtain ⟨e, d, he⟩ := stepPixel_ringRam x s
  rw [he]
  unfold State.ringLen at hb
  have hpushed : (State.ringWrite { s with draws := d } s.cursor.toNat (accFrom x)).ringRam.Fits bound :=
    ringWrite_fits (s := { s with draws := d }) h (by omega) _
  exact diffuse_fits hpushed hb _ _ _

theorem stepTimes_fits {s : State} {bound : Nat} (h : s.ringRam.Fits bound) (hb : 3 * s.ringLen ≤ bound)
    (hc : s.cursor.toNat ≤ s.ringN.toNat) (x : Color) (n : Nat) : (stepTimes x n s).ringRam.Fits bound := by
  induction n generalizing s with
  | zero => exact h
  | succ n ih =>
    refine ih (stepPixel_fits h hb hc x) ?_ ?_
    · rwa [State.ringLen, stepPixel_ringN]
    · rw [stepPixel_ringN]
      exact stepPixel_cursor_le x s

theorem stepTimes_cursor_le {s : State} (hc : s.cursor.toNat ≤ s.ringN.toNat) (x : Color) (n : Nat) :
    (stepTimes x n s).cursor.toNat ≤ s.ringN.toNat := by
  induction n generalizing s with
  | zero => exact hc
  | succ n ih =>
    have := ih (s := stepPixel x s) (by rw [stepPixel_ringN]; exact stepPixel_cursor_le x s)
    rwa [stepPixel_ringN] at this

/-- The active kernel is no longer than KMAX (44_engine.md R242). -/
theorem effectiveKernel_length_le {s : State} (hp : s.params.Legal)
    (hk : s.kmode = true → s.kcount.toNat ≤ s.params.kmax) : s.effectiveKernel.length ≤ s.params.kmax := by
  obtain ⟨-, -, hkmax, -⟩ := hp
  unfold State.effectiveKernel
  split
  · exact hkmax
  · rename_i hm
    have := hk (by simpa using hm)
    simp
    omega

/-! ### StoreInv -/

theorem stickyErr_le {err : BitVec 8} (h : err.toNat ≤ 10) (code : ErrorCode) : (stickyErr err code).toNat ≤ 10 := by
  obtain ⟨-, hhi⟩ := errorNumber_bounds code
  unfold stickyErr
  split
  · exact hhi
  · exact h

theorem State.StoreInv.ringFits {s : State} (h : s.StoreInv) : s.ringRam.Fits (3 * (s.params.wmax + 1)) :=
  ⟨h.ringWf, h.ringBelow⟩

theorem State.StoreInv.cubeFits {s : State} (h : s.StoreInv) : s.cube.Fits (2 ^ (3 * s.params.latLog2Max)) :=
  ⟨h.cubeWf, h.cubeBelow⟩

theorem State.StoreInv.ringLen_le {s : State} (h : s.StoreInv) : 3 * s.ringLen ≤ 3 * (s.params.wmax + 1) :=
  Nat.mul_le_mul_left 3 (Nat.succ_le_succ h.capacity)

theorem State.StoreInv.slot_le {s : State} (h : s.StoreInv) {j : Nat} (hj : j ≤ s.ringN.toNat) :
    3 * (j + 1) ≤ 3 * (s.params.wmax + 1) :=
  Nat.mul_le_mul_left 3 (Nat.succ_le_succ (hj.trans h.capacity))

theorem State.StoreInv.resetBlock {s : State} (h : s.StoreInv) : (resetBlock s).StoreInv where
  legal := h.legal
  ringWf := List.Pairwise.nil
  ringBelow := nofun
  cubeWf := List.Pairwise.nil
  cubeBelow := nofun
  capacity := Nat.zero_le _
  cursorLe := Nat.zero_le _
  fillLe := nofun
  errLe := Nat.zero_le _
  kactLe := Nat.zero_le _
  notDraining := nofun

theorem State.StoreInv.buildFailed {s u : State} {code : ErrorCode} (h : s.StoreInv) (hb : BuildFailed s u code) :
    u.StoreInv := by
  obtain ⟨vs, -, hlen, rfl⟩ := hb.cells
  have hfits := h.cubeFits.writeRun (base := 0) (vs := vs) (by omega)
  exact { h with cubeWf := hfits.wf, cubeBelow := hfits.below }

/-- Sizing the ring to a legal WIDTH between images. -/
theorem State.StoreInv.sizeRing {s : State} (h : s.StoreInv) (hw : s.WidthLegal) (hr : s.Resting) :
    s.sizeRing.StoreInv := by
  obtain ⟨-, hw⟩ := hw
  have hfits : s.sizeRing.ringRam.Fits (3 * (s.params.wmax + 1)) :=
    h.ringFits.writeRun (by rw [length_flatten_triples]; omega)
  refine { h with ringWf := hfits.wf, ringBelow := hfits.below, capacity := hw, cursorLe := Nat.zero_le _, fillLe := ?_ }
  intro hm
  rcases hr with hr | hr <;> cases hr.symm.trans hm

theorem State.StoreInv.ringWrite {s : State} (h : s.StoreInv) {j : Nat} (hj : j ≤ s.ringN.toNat) (a : Acc) :
    (s.ringWrite j a).StoreInv :=
  have hfits := ringWrite_fits h.ringFits (h.slot_le hj) a
  { h with ringWf := hfits.wf, ringBelow := hfits.below }

theorem State.StoreInv.advance {s : State} (h : s.StoreInv) : s.advance.StoreInv :=
  { h with cursorLe := advance_cursor_le s }

theorem State.StoreInv.primePixel {s : State} (h : s.StoreInv) (hm : s.mode = .filling) (x : Color) :
    (primePixel x s).StoreInv := by
  have hfill := h.fillLe hm
  refine { h.ringWrite hfill (accFrom x) with fillLe := fun hm' => ?_, notDraining := fun hm' => ?_ }
  · have hne : s.fill.toNat + 1 ≠ s.ringLen := by
      intro heq
      simp [Machine.primePixel, heq] at hm'
    have hle : (s.fill + 1).toNat ≤ s.fill.toNat + 1 := by
      rw [BitVec.toNat_add]
      exact Nat.mod_le _ _
    unfold State.ringLen at hne
    change (s.fill + 1).toNat ≤ s.ringN.toNat
    omega
  · simp only [Machine.primePixel] at hm'
    split at hm' <;> cases hm'

theorem State.StoreInv.stepPixel {s : State} (h : s.StoreInv) (x : Color) : (stepPixel x s).StoreInv := by
  have hfits := stepPixel_fits h.ringFits h.ringLen_le h.cursorLe x
  obtain ⟨p, hp⟩ := stepPixel_frame x s
  rw [hp]
  exact { h with ringWf := hfits.wf, ringBelow := hfits.below, cursorLe := advance_cursor_le s }

theorem State.StoreInv.drain {s : State} (h : s.StoreInv) (n : Nat) : (drain n s).StoreInv := by
  have hfits : (Machine.drain n s).ringRam.Fits _ :=
    stepTimes_fits (s := { s with mode := .draining }) h.ringFits h.ringLen_le h.cursorLe s.defaultColor n
  have hcursor : (Machine.drain n s).cursor.toNat ≤ s.ringN.toNat :=
    stepTimes_cursor_le (s := { s with mode := .draining }) h.cursorLe s.defaultColor n
  obtain ⟨ps, -, hps⟩ := drain_frame n s
  rw [hps]
  exact { h with
    ringWf := hfits.wf, ringBelow := hfits.below, cursorLe := hcursor, fillLe := nofun, notDraining := nofun }

/-- Every command that succeeds keeps the memories and the pointers in range. -/
theorem Done.keepsStoreInv {i : Instr} {s u : State} (hd : Done i s u) (h : s.StoreInv) : u.StoreInv := by
  cases i with
  | nop => cases hd; exact h
  | wrReg addr d =>
    obtain ⟨row, -⟩ := hd.writesOnlyItsRow
    have herr := hd.err_eq nofun
    rw [row]
    exact { h with errLe := herr ▸ h.errLe }
  | rdReg addr => obtain ⟨rfl, -⟩ := hd; exact h
  | errClear => cases hd; exact { h with errLe := Nat.zero_le _ }
  | abort => cases hd; exact { h with fillLe := nofun, notDraining := nofun }
  | build =>
    obtain ⟨vs, -, hlen, hcube⟩ := hd.build_cells
    have hfits := h.cubeFits.writeRun (base := 0) (vs := vs) (by omega)
    have herr := hd.err_eq nofun
    have row : u = _ := hd.writesOnlyItsRow
    rw [row]
    exact { h with errLe := herr ▸ h.errLe, cubeWf := hcube ▸ hfits.wf, cubeBelow := hcube ▸ hfits.below }
  | query c => obtain ⟨-, rfl⟩ := hd; exact h
  | start =>
    obtain ⟨hr, hw, hk, -, -, rfl⟩ := hd
    refine { h.sizeRing hw hr with fillLe := fun _ => Nat.zero_le _, kactLe := ?_, notDraining := nofun }
    exact (Nat.mod_le _ _).trans (effectiveKernel_length_le h.legal hk)
  | pixel x =>
    obtain ⟨hm, rfl⟩ | ⟨-, rfl⟩ := hd
    · exact h.primePixel hm x
    · exact State.StoreInv.stepPixel (s := { s with inCount := s.inCount + 1 }) { h with } x
  | endImage =>
    obtain ⟨-, rfl⟩ | ⟨-, rfl⟩ := hd
    · exact State.StoreInv.drain (s := { s with shortPrime := true }) { h with } s.fill.toNat
    · exact h.drain s.ringLen
  | ringReset => obtain ⟨hr, hw, rfl⟩ := hd; exact h.sizeRing hw hr
  | ringRd off => obtain ⟨-, rfl⟩ := hd; rw [ringRead_snd]; exact { h with }
  | ringLd off c =>
    obtain ⟨-, rfl⟩ := hd
    exact State.StoreInv.ringWrite (s := (s.ringIndex off).2) { h with } (phys_le s _) (accFrom c)
  | ringWrc off ch v =>
    obtain ⟨hch, -, rfl⟩ := hd
    have := channel_lt hch
    have hphys := h.slot_le (phys_le s off.toNat)
    have hfits := h.ringFits.writeRun (base := ringKey (s.phys off.toNat) ch.toNat) (vs := [v]) (by
      unfold ringKey
      rw [List.length_singleton]
      omega)
    exact { h with ringWf := hfits.wf, ringBelow := hfits.below }
  | ringPush c => obtain ⟨-, rfl⟩ := hd; exact (h.ringWrite h.cursorLe (accFrom c)).advance

/-- Settles O51, by `step_keeps`: what a command stores lies inside the memories, and its pointers stay in range. -/
theorem stepKeepsStoreInv : Obligations.StepKeepsStoreInv := by
  intro s t
  refine step_keeps (fun s rest h => { h with }) (fun s h => h.resetBlock) (fun s code h => ?_) (fun s d h => { h with })
    (fun s u code h hb => h.buildFailed hb) (fun i s u h hd => hd.keepsStoreInv h)
  exact { h with errLe := stickyErr_le h.errLe code }

end Sys2Proof.Machine
end

section
/-!
The palette map and the lattice over a step (MapInv): BUILD that succeeds makes them consistent, everything that makes
the build stale clears the map, and no other command touches either.
-/

namespace Sys2Proof.Machine

/-! ### What a successful sweep leaves -/

/-- A sweep that did not overflow found at most PAL_CAP colours, and is described by them. -/
theorem sweepOf_of_noOverflow {ask : Color → Color} {cap k : Nat} (h : (sweep ask cap k).overflow = false) :
    (buildKeys ask k).length ≤ min cap 16 ∧ SweepOf ask (samples k) (sweep ask cap k) := by
  obtain ⟨hfit, hfull⟩ := sweep_spec ask cap k
  have hle : (buildKeys ask k).length ≤ min cap 16 := by
    by_contra hlt
    rw [hfull (by omega)] at h
    cases h
  exact ⟨hle, hfit hle⟩

/-- A used slot after CENTROIDS is the palette entry of its key. -/
theorem centroids_of_used {ask : Color → Color} {cs : List Color} {w : Sweep} (hw : SweepOf ask cs w)
    (hlen : cs.length < 2 ^ 25) {i : Fin 16} (hi : i.val < w.used) :
    ∃ q, (firstSeen (cs.map ask))[i.val]? = some q ∧ w.centroids[i] = paletteEntry ask cs q := by
  have hq := List.getElem?_eq_getElem (hw.usedEq ▸ hi : i.val < (firstSeen (cs.map ask)).length)
  exact ⟨_, hq, by rw [centroids_spec hw hlen, hq]⟩

/-- A slot not in use is clear after CENTROIDS. -/
theorem centroids_of_unused {ask : Color → Color} {cs : List Color} {w : Sweep} (hw : SweepOf ask cs w)
    (hlen : cs.length < 2 ^ 25) {i : Fin 16} (hi : w.used ≤ i.val) : w.centroids[i] = MapSlot.empty := by
  rw [centroids_spec hw hlen, List.getElem?_eq_none (hw.usedEq ▸ hi)]

/-- A colour that some sample maps to has a positive count. -/
theorem paletteEntry_count_ne_zero {ask : Color → Color} {cs : List Color} {q : Color} (hlen : cs.length < 2 ^ 25)
    (hq : q ∈ cs.map ask) : (paletteEntry ask cs q).count ≠ 0 := by
  obtain ⟨c, hc, rfl⟩ := List.mem_map.mp hq
  have hpos : 0 < (samplesOf ask cs (ask c)).length :=
    List.length_pos_of_mem (List.mem_filter.mpr ⟨hc, decide_eq_true rfl⟩)
  have hle := samplesOf_length_le ask cs (ask c)
  intro hz
  have hmod : (samplesOf ask cs (ask c)).length % 2 ^ 25 = 0 := congrArg BitVec.toNat hz
  omega

/-- Every cell of the swept lattice holds a used slot. -/
theorem read?_sweep_cells {ask : Color → Color} {cs : List Color} {w : Sweep} (hw : SweepOf ask cs w) (m : Memory 4)
    {idx : Nat} (hi : idx < cs.length) :
    ∃ v, Memory.read? (m.writeRun 0 w.cells.reverse) idx = some v ∧ v.toNat < w.used := by
  have hmem : ask cs[idx] ∈ firstSeen (cs.map ask) :=
    mem_firstSeen.mpr (List.mem_map_of_mem (List.getElem_mem hi))
  have hidx := List.idxOf_lt_length_of_mem hmem
  refine ⟨BitVec.ofNat 4 ((firstSeen (cs.map ask)).idxOf (ask cs[idx])), ?_, ?_⟩
  · rw [read?_writeRun, hw.cellsEq, if_pos (by simpa using hi)]
    simp [hi]
  · rw [BitVec.toNat_ofNat, hw.usedEq]
    exact (Nat.mod_le _ _).trans_lt hidx

/-! ### MapInv -/

/-- A clear map with BUILT = 0 is consistent whatever the lattice holds. -/
theorem State.MapInv.of_clear {s : State} (hp : s.params.Legal) (hb : s.built = false) (hu : s.used = 0)
    (hs : s.slots = Vector.replicate 16 MapSlot.empty) : s.MapInv := by
  have hslot : ∀ i : Fin 16, s.slots[i] = MapSlot.empty := fun i => by rw [hs]; simp
  refine ⟨hp, ?_, fun i => ?_, fun i _ => hslot i, fun i j hi => ?_, fun i hi => ?_, fun _ => hu, fun h => ?_, fun h => ?_⟩
  · rw [hu]
    exact Nat.zero_le _
  · rw [hslot, hu]
    exact ⟨nofun, nofun⟩
  · rw [hu] at hi
    exact absurd hi (Nat.not_lt_zero _)
  · rw [hu] at hi
    exact absurd hi (Nat.not_lt_zero _)
  · exact absurd (hb.symm.trans h) nofun
  · exact absurd (hb.symm.trans h) nofun

/-- BUILD that succeeds leaves a consistent map and lattice. -/
theorem Done.build_mapInv {s u : State} (hp : s.params.Legal) (h : Done .build s u) : u.MapInv := by
  obtain ⟨-, hk1, hk2, -, ho, -, rfl⟩ := h
  obtain ⟨hkeys, hw⟩ := sweepOf_of_noOverflow ho
  obtain ⟨-, -, -, -, -, -, -, hmax⟩ := id hp
  have hlen : (samples s.latLog2.toNat).length < 2 ^ 25 := samples_length_lt (by omega)
  generalize sweep s.ask s.params.palCap s.latLog2.toNat = w at *
  have hused : (BitVec.ofNat 5 w.used).toNat = w.used := by
    have := hw.usedLe
    rw [BitVec.toNat_ofNat]
    omega
  have entry := fun (i : Fin 16) (hi : i.val < (BitVec.ofNat 5 w.used).toNat) =>
    centroids_of_used hw hlen (i := i) (hused ▸ hi)
  have clear : ∀ i : Fin 16, (BitVec.ofNat 5 w.used).toNat ≤ i.val → w.centroids[i] = MapSlot.empty := fun i hi =>
    centroids_of_unused hw hlen (hused ▸ hi)
  refine ⟨hp, ?_, fun i => ⟨fun hv => ?_, fun hi => ?_⟩, clear, fun i j hi hj hkey => ?_, fun i hi => ?_, nofun,
    fun _ => ⟨hk1, hk2⟩, fun _ idx hidx => ?_⟩
  · change (BitVec.ofNat 5 w.used).toNat ≤ s.params.palCap
    have := hw.usedEq
    unfold buildKeys at hkeys
    omega
  · by_contra hi
    change w.centroids[i].valid = true at hv
    rw [clear i (Nat.not_lt.mp hi)] at hv
    cases hv
  · obtain ⟨q, -, hq⟩ := entry i hi
    exact congrArg MapSlot.valid hq
  · obtain ⟨q, hqi, hi'⟩ := entry i hi
    obtain ⟨r, hrj, hj'⟩ := entry j hj
    have hqr : q = r := ((congrArg MapSlot.key hi').symm.trans hkey).trans (congrArg MapSlot.key hj')
    subst hqr
    exact Fin.ext ((List.getElem?_inj (List.getElem?_eq_some_iff.mp hqi).1 (firstSeen_nodup _)).mp (hqi.trans hrj.symm))
  · obtain ⟨q, hqi, hi'⟩ := entry i hi
    change w.centroids[i].count ≠ 0
    rw [hi']
    exact paletteEntry_count_ne_zero hlen (mem_firstSeen.mp (List.mem_of_getElem? hqi))
  · obtain ⟨v, hv, hlt⟩ := read?_sweep_cells hw s.cube (idx := idx) (by rwa [samples_length])
    exact ⟨v, hv, hlt.trans_eq hused.symm⟩

/-- A store that does not make the build stale touches neither the map nor LAT. -/
theorem State.MapInv.storeReg {s : State} (h : s.MapInv) {r : Reg} (hr : r.invalidates = false) (d : BitVec 32) :
    (storeReg s r d).MapInv := by
  cases r with
  | lat | palcnt | pal => cases hr
  | caps | status | width | defaultColor | kctrl | inCount | outCount | ringInfo | mapUsed | kernel | key | cent | count =>
    exact { h with }

/-- Every command that succeeds keeps the map and the lattice consistent. -/
theorem Done.keepsMapInv {i : Instr} {s u : State} (hd : Done i s u) (h : s.MapInv) : u.MapInv := by
  cases i with
  | wrReg addr d =>
    obtain ⟨-, r, -, -, rfl⟩ := hd
    split
    · exact .of_clear (by rw [invalidateBuild_params, storeReg_params]; exact h.legal) rfl rfl rfl
    · rename_i hr
      exact h.storeReg (by simpa using hr) d
  | build => exact hd.build_mapInv h.legal
  | nop | rdReg | errClear | abort | query | pixel | endImage | ringRd =>
    have row : u = _ := hd.writesOnlyItsRow
    rw [row]
    exact { h with }
  | start | ringReset | ringLd | ringWrc | ringPush =>
    obtain ⟨row, -⟩ := hd.writesOnlyItsRow
    rw [row]
    exact { h with }

/-- Settles O52, by `step_keeps`: reset, a failed BUILD and a stale build clear the map, a BUILD fills it. -/
theorem stepKeepsMapInv : Obligations.StepKeepsMapInv := by
  intro s t
  refine step_keeps (fun s rest h => { h with }) (fun s h => .of_clear h.legal rfl rfl rfl) (fun s code h => { h with })
    (fun s d h => { h with }) (fun s u code h hb => ?_) (fun i s u h hd => hd.keepsMapInv h)
  obtain ⟨vs, -, -, rfl⟩ := hb.cells
  exact .of_clear h.legal rfl rfl rfl

end Sys2Proof.Machine
end

section
/-!
A running image over a step (RunInv): START sets it up, PIXEL keeps it, and every command that ends it or comes between
images leaves MODE in IDLE or DONE, where only the counters are left to compare.
-/

namespace Sys2Proof.Machine

/-- Between images only the counters are constrained, and those only in DONE. -/
theorem State.RunInv.of_resting {s : State} (hp : s.params.Legal) (hr : s.Resting)
    (hd : s.mode = .done → s.inCount = s.outCount) : s.RunInv := by
  have away : ∀ {m : Mode} {P : Prop}, s.mode = m → m ≠ .idle → m ≠ .done → P := by
    rintro m P rfl hi hdone
    exact absurd hr (not_or.mpr ⟨hi, hdone⟩)
  have still : ∀ {P : Prop}, s.Running → P := by
    rintro P (h | h | h)
    · exact away h nofun nofun
    · exact away h nofun nofun
    · exact away h nofun nofun
  exact ⟨hp, fun h => away h nofun nofun, still, still, still, still, still, fun h => away h nofun nofun,
    fun h => away h nofun nofun, hd⟩

/-- A 16-bit count added to a cleared 32-bit counter. -/
theorem zero_add_ofNat_toNat (v : BitVec 16) : (0 : BitVec 32) + BitVec.ofNat 32 v.toNat = v.setWidth 32 :=
  (BitVec.zero_add _).trans (BitVec.ofNat_toNat 32 v)

/-! ### START -/

/-- Every latched term lies in the window that the kernel's offsets lie in (44_engine.md R242, R243). -/
theorem latchKernel_off_le {old : Vector KernelTerm 8} {terms : List (Int × BitVec 8)} {m n : Nat}
    (hw : ∀ t ∈ terms, 0 ≤ t.1 ∧ t.1 ≤ (n : Int)) (hm : m ≤ terms.length) {t : KernelTerm}
    (ht : t ∈ (latchKernel old terms).toList.take m) : t.off ≤ n := by
  obtain ⟨i, hi, rfl⟩ := List.mem_take_iff_getElem.mp ht
  have hlt : i < terms.length := by omega
  obtain ⟨hlo, hhi⟩ := hw terms[i] (List.getElem_mem hlt)
  simp only [latchKernel, Vector.getElem_toList, Vector.getElem_ofFn, List.getElem?_eq_getElem hlt]
  omega

/-- The ring that START and RING_RESET leave is wholly written with DEFAULT (42_ring_fifo.md R177). -/
theorem sizeRing_ringIs (s : State) : s.sizeRing.RingIs fun _ => accFrom s.defaultColor :=
  fun _ hj => (holds_ringFill _ _ _ _ _).mpr (by rw [if_pos]; exact hj)

/-- START that succeeds sets up a running image. -/
theorem Done.start_runInv {s u : State} (hp : s.params.Legal) (h : Done .start s u) : u.RunInv := by
  obtain ⟨-, hwidth, hk, hw, hb, rfl⟩ := h
  have hlen := effectiveKernel_length_le hp hk
  refine ⟨hp, nofun, fun _ => hb, fun _ => ⟨rfl, hwidth⟩, fun _ => Nat.zero_le _, fun _ => ⟨_, sizeRing_ringIs s⟩,
    fun _ t ht => ?_, fun _ => ⟨rfl, Nat.zero_le _, rfl, rfl⟩, nofun, nofun⟩
  exact latchKernel_off_le hw (Nat.mod_le _ _) ht

/-! ### PIXEL -/

theorem State.RunInv.fill_succ {s : State} (h : s.RunInv) (hm : s.mode = .filling) :
    (s.fill + 1).toNat = s.fill.toNat + 1 ∧ s.inCount + 1 = (s.fill + 1).setWidth 32 := by
  obtain ⟨-, hwmax, -⟩ := h.legal
  obtain ⟨-, -, hN⟩ := h.sized (.inl hm)
  obtain ⟨-, hfill, -, hin⟩ := h.filling hm
  have hsucc : (s.fill + 1).toNat = s.fill.toNat + 1 := by
    rw [BitVec.toNat_add]
    exact Nat.mod_eq_of_lt (by simp; omega)
  refine ⟨hsucc, ?_⟩
  apply BitVec.eq_of_toNat_eq
  rw [BitVec.toNat_setWidth, hsucc, hin, BitVec.toNat_add, BitVec.toNat_setWidth]
  simp

/-- PIXEL in FILLING keeps the image, and fills the ring or leaves room for the next pixel. -/
theorem State.RunInv.primePixel {s : State} (h : s.RunInv) (hm : s.mode = .filling) (x : Color) :
    (primePixel x s).RunInv := by
  have hrun : s.Running := .inl hm
  obtain ⟨hcursor, hfill, hout, -⟩ := h.filling hm
  obtain ⟨hsucc, hin⟩ := h.fill_succ hm
  obtain ⟨f, hf⟩ := h.written hrun
  have hmode : (Machine.primePixel x s).mode = if s.fill.toNat + 1 = s.ringLen then .streaming else .filling := rfl
  refine ⟨h.legal, ?_, fun _ => h.built hrun, fun _ => h.sized hrun, fun _ => h.cursorLe hrun,
    fun _ => ⟨_, ringIs_ringWrite hf _ _⟩, fun _ => h.window hrun, fun hm' => ?_, fun hm' => ?_, fun hm' => ?_⟩
  · rw [hmode]
    split <;> nofun
  · refine ⟨hcursor, ?_, hout, hin⟩
    have hne : s.fill.toNat + 1 ≠ s.ringLen := by
      intro heq
      rw [hmode, if_pos heq] at hm'
      cases hm'
    unfold State.ringLen at hne
    change (s.fill + 1).toNat ≤ s.ringN.toNat
    omega
  · have heq : s.fill.toNat + 1 = s.ringLen := by
      by_contra hne
      rw [hmode, if_neg hne] at hm'
      cases hm'
    change s.inCount + 1 = s.outCount + BitVec.ofNat 32 s.ringLen
    rw [hin, hout, ← heq, ← hsucc, zero_add_ofNat_toNat]
  · rw [hmode] at hm'
    split at hm' <;> cases hm'

/-- PIXEL in STREAMING keeps the image: one pixel comes and one colour leaves. -/
theorem State.RunInv.streamPixel {s : State} (h : s.RunInv) (hm : s.mode = .streaming) (x : Color) :
    (stepPixel x { s with inCount := s.inCount + 1 }).RunInv := by
  have hrun : s.Running := .inr (.inl hm)
  obtain ⟨f, hf⟩ := h.written hrun
  obtain ⟨hstep, hring⟩ := stepPixel_of_ringIs (s := { s with inCount := s.inCount + 1 }) hf (h.cursorLe hrun) x
  rw [hstep]
  refine ⟨h.legal, h.notDraining, fun _ => h.built hrun, fun _ => h.sized hrun, fun _ => advance_cursor_le s,
    fun _ => ⟨_, fun j hj => hring j (by rwa [stepPixel_ringN])⟩, fun _ => h.window hrun, fun hm' => ?_, fun _ => ?_,
    fun hm' => ?_⟩
  · cases hm.symm.trans hm'
  · change s.inCount + 1 = s.outCount + 1 + BitVec.ofNat 32 s.ringLen
    rw [h.streaming hm, BitVec.add_assoc, BitVec.add_comm _ 1, BitVec.add_assoc]
  · cases hm.symm.trans hm'

/-! ### END -/

/-- END emits as many colours as pixels are held: FILL in FILLING, N + 1 in STREAMING. -/
theorem State.RunInv.drain {s : State} (h : s.RunInv) {n : Nat} (hn : s.inCount = s.outCount + BitVec.ofNat 32 n) :
    (drain n s).RunInv := by
  obtain ⟨ps, -, hps⟩ := drain_frame n s
  rw [hps]
  exact .of_resting h.legal (.inr rfl) fun _ => hn

/-- Every command that succeeds keeps a running image consistent. -/
theorem Done.keepsRunInv {i : Instr} {s u : State} (hd : Done i s u) (h : s.RunInv) : u.RunInv := by
  cases i with
  | nop => cases hd; exact h
  | rdReg | query | errClear =>
    have row : u = _ := hd.writesOnlyItsRow
    rw [row]
    exact { h with }
  | abort => cases hd; exact .of_resting h.legal (.inl rfl) nofun
  | start => exact hd.start_runInv h.legal
  | pixel x =>
    obtain ⟨hm, rfl⟩ | ⟨hm, rfl⟩ := hd
    · exact h.primePixel hm x
    · exact h.streamPixel hm x
  | endImage =>
    obtain ⟨hm, rfl⟩ | ⟨hm, rfl⟩ := hd
    · obtain ⟨-, -, hout, hin⟩ := h.filling hm
      refine State.RunInv.drain (s := { s with shortPrime := true }) { h with } ?_
      change s.inCount = s.outCount + BitVec.ofNat 32 s.fill.toNat
      rw [hin, hout, zero_add_ofNat_toNat]
    · exact h.drain (h.streaming hm)
  | build | ringRd =>
    have row : u = _ := hd.writesOnlyItsRow
    obtain ⟨hr, -⟩ := hd
    rw [row]
    exact .of_resting h.legal hr h.done
  | wrReg | ringReset | ringLd | ringPush =>
    obtain ⟨row, -⟩ := hd.writesOnlyItsRow
    obtain ⟨hr, -⟩ := hd
    rw [row]
    exact .of_resting h.legal hr h.done
  | ringWrc off ch v => obtain ⟨-, hr, rfl⟩ := hd; exact .of_resting h.legal hr h.done

/-- Settles O53, by `step_keeps`: a step between images leaves only the counters, one inside an image keeps it. -/
theorem stepKeepsRunInv : Obligations.StepKeepsRunInv := by
  intro s t
  refine step_keeps (fun s rest h => { h with }) (fun s h => .of_resting h.legal (.inl rfl) nofun)
    (fun s code h => { h with }) (fun s d h => { h with }) (fun s u code h hb => ?_) (fun i s u h hd => hd.keepsRunInv h)
  obtain ⟨hr, -, vs, -, rfl⟩ := hb
  exact .of_resting h.legal hr h.done

end Sys2Proof.Machine
end

section
/-!
What a register reads back after a write: its defined fields, and zeros elsewhere (10_state.md R68).
-/

namespace Sys2Proof.Machine

/-! ### The defined fields of a word -/

/-- A word's low field with zeros above it is the word under the field's mask. -/
theorem zero_append_low_field {m n : Nat} (d : BitVec (m + n)) :
    0#m ++ d.extractLsb' 0 n = d &&& BitVec.ofNat (m + n) (2 ^ n - 1) := by
  apply BitVec.eq_of_getLsbD_eq
  intro i hi
  simp only [BitVec.getLsbD_append, BitVec.getLsbD_and, BitVec.getLsbD_ofNat, Nat.testBit_two_pow_sub_one]
  by_cases h : i < n <;> simp [h, hi]

/-- KCTRL's two fields (10_state.md R56) are the word under their mask. -/
theorem kctrl_fields (d : BitVec 32) :
    0#20 ++ d.extractLsb' 8 4 ++ 0#7 ++ BitVec.ofBool (d.getLsbD 0) = d &&& 0x00000F01 := by
  apply BitVec.eq_of_getLsbD_eq
  intro i hi
  simp only [BitVec.getLsbD_append, BitVec.getLsbD_and, BitVec.getLsbD_extractLsb', BitVec.getLsbD_ofBool]
  interval_cases i <;> simp

/-- A KERNEL register's two fields (10_state.md R62) are the whole word. -/
theorem kernel_fields (d : BitVec 32) : d.extractLsb' 24 8 ++ d.extractLsb' 0 24 = d &&& 0xFFFFFFFF := by
  have hglue := BitVec.extractLsb'_append_extractLsb'_eq_extractLsb' (x := d) (start₂ := 24) (start₁ := 0)
    (len₁ := 24) (len₂ := 8) rfl
  rw [hglue, BitVec.extractLsb'_eq_self]
  exact (BitVec.and_allOnes).symm

theorem fieldMask_kernel : ∀ i : Fin 8, fieldMask (Reg.kernel i).address = 0xFFFFFFFF := by
  decide

theorem fieldMask_pal : ∀ i : Fin 16, fieldMask (Reg.pal i).address = 0x00FFFFFF := by
  decide

/-! ### A write and the read after it -/

theorem regAt_of_isReadWrite {p : Params} (hp : p.Legal) {a : BitVec 16} (h : IsReadWrite p a.toNat) :
    ∃ r, regAt p a = some r ∧ r.writable = true := by
  obtain ⟨-, -, -, hkmax, -, hcap, -⟩ := hp
  obtain ⟨hlo, hhi⟩ | ⟨hlo, hhi⟩ | ⟨hlo, hhi⟩ := h
  · have : a.toNat = 2 ∨ a.toNat = 3 ∨ a.toNat = 4 ∨ a.toNat = 5 ∨ a.toNat = 6 := by omega
    obtain ha | ha | ha | ha | ha := this
    · exact ⟨.width, regAt_eq_some.mpr ⟨ha, trivial⟩, rfl⟩
    · exact ⟨.lat, regAt_eq_some.mpr ⟨ha, trivial⟩, rfl⟩
    · exact ⟨.defaultColor, regAt_eq_some.mpr ⟨ha, trivial⟩, rfl⟩
    · exact ⟨.kctrl, regAt_eq_some.mpr ⟨ha, trivial⟩, rfl⟩
    · exact ⟨.palcnt, regAt_eq_some.mpr ⟨ha, trivial⟩, rfl⟩
  · exact ⟨.kernel ⟨a.toNat - 0x010, by omega⟩,
      regAt_eq_some.mpr ⟨by simp only [Reg.address]; omega, by simp only [Reg.present]; omega⟩, rfl⟩
  · exact ⟨.pal ⟨a.toNat - 0x020, by omega⟩,
      regAt_eq_some.mpr ⟨by simp only [Reg.address]; omega, by simp only [Reg.present]; omega⟩, rfl⟩

theorem not_writable_of_isReadOnly {p : Params} {a : BitVec 16} (h : IsReadOnly p a.toNat) {r : Reg}
    (hr : regAt p a = some r) : r.writable = false := by
  obtain ⟨ha, -⟩ := regAt_eq_some.mp hr
  rw [ha] at h
  cases r with
  | caps | status | inCount | outCount | ringInfo | mapUsed | key | cent | count => rfl
  | width | lat | defaultColor | kctrl | palcnt | kernel | pal =>
    exfalso
    simp only [IsReadOnly, Reg.address] at h
    omega

/-- WR_REG of a read-write register in IDLE or DONE stores, whatever the word's bits. -/
theorem exec_wrReg_of_writable {s : State} {a : BitVec 16} {r : Reg} (hr : regAt s.params a = some r)
    (hw : r.writable = true) (hs : s.Resting) (d : BitVec 32) :
    exec (.wrReg a d) s =
      .next (State.respond (if r.invalidates then (storeReg s r d).invalidateBuild else storeReg s r d) 0) := by
  simp only [exec, execWrReg, hr]
  rw [if_neg (by simp [hw]), if_neg (not_not.mpr hs)]
  split <;> rfl

theorem readReg_respond (s : State) (d : BitVec 64) (r : Reg) : readReg (s.respond d) r = readReg s r := by
  cases r <;> rfl

/-- INVALIDATE_BUILD shows in no read-write register. -/
theorem readReg_invalidateBuild (s : State) {r : Reg} (hw : r.writable = true) :
    readReg s.invalidateBuild r = readReg s r := by
  cases r with
  | caps | status | inCount | outCount | ringInfo | mapUsed | key | cent | count => cases hw
  | width | lat | defaultColor | kctrl | palcnt | kernel | pal => rfl

/-- What a read-write register reads after a store of `d`. -/
theorem readReg_storeReg (s : State) {r : Reg} (hw : r.writable = true) (d : BitVec 32) :
    readReg (storeReg s r d) r = d &&& fieldMask r.address := by
  cases r with
  | caps | status | inCount | outCount | ringInfo | mapUsed | key | cent | count => cases hw
  | width => exact zero_append_low_field (m := 16) (n := 16) d
  | lat => exact zero_append_low_field (m := 28) (n := 4) d
  | defaultColor =>
    simp only [readReg, storeReg, packColor_colorOf]
    exact zero_append_low_field (m := 8) (n := 24) d
  | kctrl => exact kctrl_fields d
  | palcnt => exact zero_append_low_field (m := 27) (n := 5) d
  | kernel i =>
    simp only [readReg, storeReg, fieldMask_kernel, Fin.getElem_fin, Vector.getElem_set_self]
    exact kernel_fields d
  | pal i =>
    simp only [readReg, storeReg, fieldMask_pal, Fin.getElem_fin, Vector.getElem_set_self, packColor_colorOf]
    exact zero_append_low_field (m := 8) (n := 24) d

/-- Settles O19: the store succeeds, and the read after it shows the defined fields. -/
theorem reservedBitsReadZero : Obligations.ReservedBitsReadZero := by
  intro s a d hp hs
  refine ⟨fun h => ?_, fun h => ?_⟩
  · obtain ⟨r, hr, hw⟩ := regAt_of_isReadWrite hp h
    obtain ⟨ha, -⟩ := regAt_eq_some.mp hr
    have hread : ∀ u : State, u.params = s.params → readReg u r = readReg (storeReg s r d) r →
        exec (.rdReg a) (u.respond 0) = finish (u.respond 0) (0#32 ++ (d &&& fieldMask a.toNat)) := by
      intro u hu hv
      simp only [exec, execRdReg, respond_params, hu, hr]
      rw [readReg_respond, hv, readReg_storeReg s hw, ha]
    refine ⟨_, _, exec_wrReg_of_writable hr hw hs d, rfl, hread _ ?_ ?_, rfl⟩
    · split <;> exact storeReg_params s r d
    · split
      · exact readReg_invalidateBuild _ hw
      · rfl
  · simp only [exec, execWrReg]
    split
    · rfl
    · rename_i r hr
      rw [if_pos (not_writable_of_isReadOnly h hr)]
      rfl

end Sys2Proof.Machine
end

section
/-!
Steps and configuration (20_memory.md R84, R89, R94): a step is its decoded command, BUILD repeats itself, and a running
image's configuration stays as it is.
-/

namespace Sys2Proof.Machine

/-! ### The decoded command -/

/-- Settles O6: the port delivers the word, and its decoding selects the command. -/
theorem stepRunsDecodedCommand : Obligations.StepRunsDecodedCommand := by
  intro s w rest i hin hw
  simp only [step, fetch, hin, hw]

/-! ### BUILD again -/

/-- Where BUILD's checks hold it succeeds: the converse of what `exec_answer` says of its success. -/
theorem Done.exec_build {s u : State} (h : Done .build s u) : exec .build s = .next (u.respond 0) := by
  obtain ⟨hr, hk1, hk2, hcount, hfit, hpal, rfl⟩ := h
  have hk : ¬ (s.latLog2.toNat < 1 ∨ s.params.latLog2Max < s.latLog2.toNat) := by omega
  simp only [exec, execBuild]
  rw [if_neg (not_not.mpr hr), if_neg (by exact hk), if_neg (by exact Nat.not_lt.mpr hcount),
    if_neg (by exact ne_true_of_eq_false hfit), if_neg (by exact ne_false_of_eq_true hpal)]
  rfl

/-- A success answer of BUILD comes from its success. -/
theorem done_of_exec_build {s t : State} (h : exec .build s = .next t) {d : BitVec 64}
    (ht : t.response = some ⟨0, d⟩) : ∃ u, Done .build s u ∧ t = u.respond 0 := by
  obtain ⟨code, -, -, he⟩ | ⟨code, u, -, -, he⟩ | ⟨u, _, hu, -⟩ := exec_cases .build s
  · cases he.symm.trans h
    exact absurd ht (raise_response_ne _ _ _)
  · cases he.symm.trans h
    exact absurd ht (raise_response_ne _ _ _)
  · cases hu.exec_build.symm.trans h
    exact ⟨u, hu, rfl⟩

/-- The same run written again changes no cell. -/
theorem read?_writeRun_writeRun {w : Nat} (m : Memory w) (base : Nat) (vs : List (BitVec w)) (a : Nat) :
    ((m.writeRun base vs).writeRun base vs).read? a = (m.writeRun base vs).read? a := by
  rw [read?_writeRun, read?_writeRun]
  split <;> rfl

/-- BUILD's success depends on nothing that BUILD writes: after it, BUILD succeeds again and only writes the same cells
once more. -/
theorem Done.build_again {s u : State} (h : Done .build s u) (d : BitVec 64) :
    ∃ vs : List (BitVec 4), u.cube = s.cube.writeRun 0 vs ∧
      Done .build (u.respond d) { u.respond d with cube := u.cube.writeRun 0 vs } := by
  obtain ⟨hr, hk1, hk2, hcount, hfit, hpal, rfl⟩ := h
  exact ⟨_, rfl, hr, hk1, hk2, hcount, hfit, hpal, rfl⟩

/-- Settles O23: the second BUILD sweeps the same samples with the same answers (`Done.build_again`). -/
theorem buildIsRepeatable : Obligations.BuildIsRepeatable := by
  intro s t h ht
  obtain ⟨u, hu, rfl⟩ := done_of_exec_build h ht
  obtain ⟨vs, hcube, hagain⟩ := hu.build_again 0
  refine ⟨_, hagain.exec_build, rfl, fun idx => ?_⟩
  simp only [respond_cube, hcube]
  exact read?_writeRun_writeRun _ _ _ _

/-! ### The configuration of a running image -/

/-- `t` has the configuration, the kernel latch, the map and the lattice of `s` (20_memory.md R94). -/
abbrev SameConfiguration (s t : State) : Prop :=
  t.width = s.width ∧ t.latLog2 = s.latLog2 ∧ t.defaultColor = s.defaultColor ∧ t.kmode = s.kmode ∧
    t.kcount = s.kcount ∧ t.palcnt = s.palcnt ∧ t.kernel = s.kernel ∧ t.pal = s.pal ∧ t.ringN = s.ringN ∧
    t.kactLen = s.kactLen ∧ t.kact = s.kact ∧ t.built = s.built ∧ t.used = s.used ∧ t.slots = s.slots ∧
    t.cube = s.cube

theorem SameConfiguration.refl (s : State) : SameConfiguration s s :=
  ⟨rfl, rfl, rfl, rfl, rfl, rfl, rfl, rfl, rfl, rfl, rfl, rfl, rfl, rfl, rfl⟩

theorem not_resting_of_running {s : State} (h : s.Running) : ¬ s.Resting := by
  rintro (hm | hm) <;> simp [State.Running, hm] at h

/-- Of the commands that succeed while an image runs, none has the configuration in its row of 10_state.md R44; the
others succeed only between images. -/
theorem Done.sameConfiguration {i : Instr} {s u : State} (h : Done i s u) (hrun : s.Running) :
    SameConfiguration s u := by
  have hnot := not_resting_of_running hrun
  cases i with
  | nop | rdReg | errClear | abort | query | pixel | endImage =>
    have row : u = _ := h.writesOnlyItsRow
    rw [row]
    exact SameConfiguration.refl s
  | wrReg | build | start | ringReset | ringRd | ringLd | ringPush =>
    obtain ⟨hr, -⟩ := h
    exact absurd hr hnot
  | ringWrc =>
    obtain ⟨-, hr, -⟩ := h
    exact absurd hr hnot

/-- Settles O49: a failure writes ERR at most, BUILD fails before its sweep, and a success keeps the configuration. -/
theorem configurationFrozenWhileRunning : Obligations.ConfigurationFrozenWhileRunning := by
  intro i s t hm h
  have hrun : s.Running := hm.imp_right .inl
  obtain ⟨code, -, -, he⟩ | ⟨code, u, -, ⟨hr, -⟩, he⟩ | ⟨u, d, hd, he⟩ := exec_cases i s <;> cases he.symm.trans h
  · exact SameConfiguration.refl s
  · exact absurd hr (not_resting_of_running hrun)
  · exact hd.sameConfiguration hrun

end Sys2Proof.Machine
end

section
/-!
The membership port (20_memory.md R90): every operation of the commands other than BUILD does the same with any other
table of answers.
-/

namespace Sys2Proof.Machine

/-! ### The operations with another port -/

/-- `s` with the membership port's answers `m`. -/
def State.withPort (s : State) (m : List (Color × Color)) : State :=
  { s with member := m }

section
variable (s : State) (m : List (Color × Color))

theorem withPort_mode : (s.withPort m).mode = s.mode := rfl

theorem withPort_params : (s.withPort m).params = s.params := rfl

theorem readReg_withPort (r : Reg) : readReg (s.withPort m) r = readReg s r := by
  cases r <;> rfl

theorem storeReg_withPort (r : Reg) (d : BitVec 32) : storeReg (s.withPort m) r d = (storeReg s r d).withPort m := by
  cases r <;> rfl

theorem invalidateBuild_withPort : (s.withPort m).invalidateBuild = s.invalidateBuild.withPort m := rfl

theorem ringIndex_withPort (off : BitVec 16) :
    (s.withPort m).ringIndex off = ((s.ringIndex off).1, (s.ringIndex off).2.withPort m) := rfl

theorem ringRead_withPort (j : Nat) :
    (s.withPort m).ringRead j = ((s.ringRead j).1, (s.ringRead j).2.withPort m) := by
  unfold State.ringRead
  simp only [State.withPort]
  split <;> rfl

theorem ringWrite_withPort (j : Nat) (a : Acc) : (s.withPort m).ringWrite j a = (s.ringWrite j a).withPort m := rfl

theorem activeTerms_withPort : (s.withPort m).activeTerms = s.activeTerms := rfl

theorem withError_withPort (c : Color) : (s.withPort m).withError c = s.withError c := rfl

theorem ringAddTo_withPort (j : Nat) (t : Acc) : (s.withPort m).ringAddTo j t = (s.ringAddTo j t).withPort m := by
  unfold State.ringAddTo
  rw [ringRead_withPort]
  rfl

theorem diffuseTerm_withPort (h : Nat) (e : Err) (t : KernelTerm) :
    diffuseTerm h e (s.withPort m) t = (diffuseTerm h e s t).withPort m := by
  unfold diffuseTerm
  split
  · rfl
  · exact ringAddTo_withPort s m _ _

theorem diffuse_withPort (h : Nat) (e : Err) (terms : List KernelTerm) :
    terms.foldl (diffuseTerm h e) (s.withPort m) = (terms.foldl (diffuseTerm h e) s).withPort m :=
  List.foldl_hom (State.withPort · m) fun u t => diffuseTerm_withPort u m h e t

theorem stepPixel_withPort (x : Color) : stepPixel x (s.withPort m) = (stepPixel x s).withPort m := by
  unfold stepPixel
  simp only [ringRead_withPort, withError_withPort, ringWrite_withPort, activeTerms_withPort, diffuse_withPort]
  rfl

theorem stepTimes_withPort (x : Color) (n : Nat) : stepTimes x n (s.withPort m) = (stepTimes x n s).withPort m := by
  induction n generalizing s with
  | zero => rfl
  | succ n ih => rw [stepTimes, stepPixel_withPort, ih, stepTimes]

theorem drain_withPort (n : Nat) : drain n (s.withPort m) = (drain n s).withPort m :=
  congrArg (fun u : State => { u with mode := .done })
    (stepTimes_withPort { s with mode := .draining } m s.defaultColor n)

end

/-! ### The commands with another port -/

/-- The two outcomes are next states that differ in the membership port at most, which the second has as `m`. -/
def SameButPort (m : List (Color × Color)) (o o' : Host.Outcome State Fault Refusal) : Prop :=
  ∃ t : State, o = .next t ∧ o' = .next (t.withPort m)

section
variable {s : State} {m : List (Color × Color)}

theorem SameButPort.fail (code : ErrorCode) : SameButPort m (fail s code) (fail (s.withPort m) code) :=
  ⟨s.raise code, rfl, rfl⟩

theorem SameButPort.finish {s' : State} (h : s' = s.withPort m) (d : BitVec 64) :
    SameButPort m (finish s d) (finish s' d) :=
  ⟨s.respond d, rfl, by rw [h]; rfl⟩

theorem SameButPort.ite {c : Prop} [Decidable c] {a a' b b' : Host.Outcome State Fault Refusal}
    (ha : SameButPort m a a') (hb : SameButPort m b b') :
    SameButPort m (if c then a else b) (if c then a' else b') := by
  split
  · exact ha
  · exact hb

end

theorem exec_pixel_of_filling {s : State} (h : s.mode = .filling) (x : Color) :
    exec (.pixel x) s = finish (primePixel x s) 0 := by
  simp only [exec, execPixel, h]

theorem exec_pixel_of_streaming {s : State} (h : s.mode = .streaming) (x : Color) :
    exec (.pixel x) s = finish (stepPixel x { s with inCount := s.inCount + 1 }) 0 := by
  simp only [exec, execPixel, h]

theorem exec_endImage_of_filling {s : State} (h : s.mode = .filling) :
    exec .endImage s = finish (drain s.fill.toNat { s with shortPrime := true }) 0 := by
  simp only [exec, execEndImage, h]

theorem exec_endImage_of_streaming {s : State} (h : s.mode = .streaming) :
    exec .endImage s = finish (drain s.ringLen s) 0 := by
  simp only [exec, execEndImage, h]

/-- Every command but BUILD does the same with another port: it makes the same checks and ends alike. -/
theorem exec_withPort {i : Instr} (hi : i ≠ .build) (s : State) (m : List (Color × Color)) :
    SameButPort m (exec i s) (exec i (s.withPort m)) := by
  cases i with
  | build => exact absurd rfl hi
  | nop | errClear | abort => exact .finish rfl _
  | wrReg addr d =>
    simp only [exec, execWrReg, withPort_params, storeReg_withPort, invalidateBuild_withPort]
    cases regAt s.params addr with
    | none => exact .fail _
    | some r => exact .ite (.fail _) (.ite (.fail _) (.ite (.finish rfl _) (.finish rfl _)))
  | rdReg addr =>
    simp only [exec, execRdReg, withPort_params, readReg_withPort]
    cases regAt s.params addr with
    | none => exact .fail _
    | some r => exact .finish rfl _
  | query c => exact .ite (.fail _) (.finish rfl _)
  | start => exact .ite (.fail _) (.ite (.fail _) (.ite (.fail _) (.ite (.fail _) (.ite (.fail _) (.finish rfl _)))))
  | pixel x =>
    cases hm : s.mode with
    | filling =>
      rw [exec_pixel_of_filling hm, exec_pixel_of_filling (s := s.withPort m) hm]
      exact .finish rfl _
    | streaming =>
      rw [exec_pixel_of_streaming hm, exec_pixel_of_streaming (s := s.withPort m) hm]
      exact .finish (stepPixel_withPort { s with inCount := s.inCount + 1 } m x) _
    | idle | draining | done =>
      simp only [exec, execPixel, withPort_mode, hm]
      exact .fail _
  | endImage =>
    cases hm : s.mode with
    | filling =>
      rw [exec_endImage_of_filling hm, exec_endImage_of_filling (s := s.withPort m) hm]
      exact .finish (drain_withPort { s with shortPrime := true } m s.fill.toNat) _
    | streaming =>
      rw [exec_endImage_of_streaming hm, exec_endImage_of_streaming (s := s.withPort m) hm]
      exact .finish (drain_withPort s m s.ringLen) _
    | idle | draining | done =>
      simp only [exec, execEndImage, withPort_mode, hm]
      exact .fail _
  | ringReset => exact .ite (.fail _) (.ite (.fail _) (.finish rfl _))
  | ringRd off =>
    simp only [exec, execRingRd, ringIndex_withPort, ringRead_withPort]
    exact .ite (.fail _) (.finish rfl _)
  | ringLd off c => exact .ite (.fail _) (.finish rfl _)
  | ringWrc off ch v => exact .ite (.fail _) (.ite (.fail _) (.finish rfl _))
  | ringPush c => exact .ite (.fail _) (.finish rfl _)

/-- Settles O48: `exec_withPort`. -/
theorem onlyBuildAsksThePort : Obligations.OnlyBuildAsksThePort :=
  fun _ s m hi => exec_withPort hi s m

end Sys2Proof.Machine
end

section
/-!
Decode and encode (30_encoding.md R102 to R109, R111): each is the other's inverse.
-/

namespace Sys2Proof

/-! ### From a command to its word and back -/

/-- The last field of a concatenation. -/
theorem extract_last {m n : Nat} (x : BitVec m) (v : BitVec n) : (x ++ v).extractLsb' 0 n = v :=
  (extract_right x v 0 n (by simp)).trans (by simp)

/-- The last field but one. -/
theorem extract_inner {l m n : Nat} (x : BitVec l) (v : BitVec m) (y : BitVec n) :
    (x ++ v ++ y).extractLsb' n m = v := by
  rw [extract_left _ y n m le_rfl, Nat.sub_self, extract_last]

/-- The colour in the last field, as QUERY, PIXEL and RING_PUSH carry it (30_encoding.md R105). -/
theorem colorOf_extract_last {m : Nat} (x : BitVec m) (c : Color) :
    colorOf ((x ++ packColor c).extractLsb' 0 24) = c := by
  rw [extract_last, colorOf_packColor]

/-- The opcode map's row of a command (30_encoding.md R111). -/
def mapRow (i : Instr) : OpcodeRow :=
  { code := (Laws.Encoding.row i).1
    format := (Laws.Encoding.row i).2
    op := match i with
      | .nop => .nop
      | .wrReg _ _ => .wrReg
      | .rdReg _ => .rdReg
      | .errClear => .errClear
      | .abort => .abort
      | .build => .build
      | .query _ => .query
      | .start => .start
      | .pixel _ => .pixel
      | .endImage => .endImage
      | .ringReset => .ringReset
      | .ringRd _ => .ringRd
      | .ringLd _ _ => .ringLd
      | .ringWrc _ _ _ => .ringWrc
      | .ringPush _ => .ringPush }

theorem mapRow_mem (i : Instr) : mapRow i ∈ opcodeMap := by
  cases i <;> simp [mapRow, Laws.Encoding.row, opcodeMap]

/-- No two rows have one opcode, so that a row is found by its opcode. -/
theorem opcodeRow_of_mem : ∀ row ∈ opcodeMap, opcodeRow row.code = some row := by
  decide

/-- Every command's word has its row's opcode and no must-be-zero bit set. -/
theorem encode_meets_row (i : Instr) : Laws.Encoding.Statement i := by
  cases i with
  | nop => exact Laws.Encoding.nop
  | wrReg addr data => exact Laws.Encoding.wrReg addr data
  | rdReg addr => exact Laws.Encoding.rdReg addr
  | errClear => exact Laws.Encoding.errClear
  | abort => exact Laws.Encoding.abort
  | build => exact Laws.Encoding.build
  | query c => exact Laws.Encoding.query c
  | start => exact Laws.Encoding.start
  | pixel x => exact Laws.Encoding.pixel x
  | endImage => exact Laws.Encoding.endImage
  | ringReset => exact Laws.Encoding.ringReset
  | ringRd off => exact Laws.Encoding.ringRd off
  | ringLd off c => exact Laws.Encoding.ringLd off c
  | ringWrc off ch val => exact Laws.Encoding.ringWrc off ch val
  | ringPush c => exact Laws.Encoding.ringPush c

/-- RING_WRC's CH field (30_encoding.md R108). -/
theorem extract_channel_encode (off : BitVec 16) (ch : BitVec 2) (val : BitVec 16) :
    (encode (.ringWrc off ch val)).extractLsb' 48 2 = ch :=
  ((extract_left _ off 48 2 (by decide)).trans (extract_left _ (0#16) 32 2 (by decide))).trans
    (extract_inner _ ch val)

/-- The fields that R109 names give back every operand. -/
theorem assemble_encode (i : Instr) : assemble (mapRow i).op (encode i) = i := by
  cases i with
  | nop | errClear | abort | build | start | endImage | ringReset => rfl
  | wrReg addr data => exact congrArg₂ Instr.wrReg (extract_inner _ addr data) (extract_last _ data)
  | rdReg addr => exact congrArg Instr.rdReg (extract_inner _ addr (0#32))
  | query c => exact congrArg Instr.query (colorOf_extract_last _ c)
  | pixel x => exact congrArg Instr.pixel (colorOf_extract_last _ x)
  | ringPush c => exact congrArg Instr.ringPush (colorOf_extract_last _ c)
  | ringRd off => exact congrArg Instr.ringRd (extract_last _ off)
  | ringLd off c =>
    have hc : (encode (.ringLd off c)).extractLsb' 24 24 = packColor c :=
      (extract_left _ off 24 24 (by decide)).trans (extract_inner _ (packColor c) (0#8))
    exact congrArg₂ Instr.ringLd (extract_last _ off) ((congrArg colorOf hc).trans (colorOf_packColor c))
  | ringWrc off ch val =>
    have hv : (encode (.ringWrc off ch val)).extractLsb' 32 16 = val :=
      (extract_left _ off 32 16 (by decide)).trans (extract_inner _ val (0#16))
    change Instr.ringWrc _ _ _ = _
    rw [extract_channel_encode, hv]
    exact congrArg (Instr.ringWrc · ch val) (extract_last _ off)

/-- Of the well-formed commands' words none has RING_WRC's reserved channel. -/
theorem channel_encode_ne {i : Instr} (hi : i.wellFormed = true) (ho : (mapRow i).op = .ringWrc) :
    (encode i).extractLsb' 48 2 ≠ 3#2 := by
  cases i with
  | ringWrc off ch val =>
    rw [extract_channel_encode]
    exact bne_iff_ne.mp hi
  | _ => cases ho

/-- Settles O1: the word meets every check of its command's row, and the row's fields are the operands. -/
theorem decodeOfEncode : Obligations.DecodeOfEncode := by
  intro i hi
  obtain ⟨hcode, hmask⟩ := encode_meets_row i
  have hrow : opcodeRow ((encode i).extractLsb' 56 8) = some (mapRow i) := by
    rw [hcode]
    exact opcodeRow_of_mem _ (mapRow_mem i)
  rw [decode_of_row hrow hmask (channel_encode_ne hi), assemble_encode]

/-! ### From a word to its command and back -/

/-- A field put below the ones above it. -/
theorem append_field {w : BitVec 64} (start : Nat) {len₁ len₂ : Nat} {x : BitVec len₁} {y : BitVec len₂}
    (hx : x = w.extractLsb' (start + len₂) len₁) (hy : y = w.extractLsb' start len₂) :
    x ++ y = w.extractLsb' start (len₁ + len₂) := by
  rw [hx, hy, extract_glue]

/-- The zeros that a format's mask calls for, put below the fields above them. -/
theorem append_zeros {w m : BitVec 64} (hm : w &&& m = 0#64) (start len : Nat) {len₁ : Nat} {x : BitVec len₁}
    (hx : x = w.extractLsb' (start + len) len₁) (hz : m.extractLsb' start len = BitVec.allOnes len) :
    x ++ 0#len = w.extractLsb' start (len₁ + len) :=
  append_field start hx (extract_of_mask hm start len hz).symm

theorem extract_whole (w : BitVec 64) : w.extractLsb' 0 64 = w := by
  simp

/-! A word of a format is its opcode, its operand fields and zeros (30_encoding.md R103 to R108). -/

section
variable {w : BitVec 64} {code : BitVec 8} (hc : code = w.extractLsb' 56 8)
include hc

theorem word_of_z (hm : w &&& zeroMask .z = 0#64) : code ++ 0#56 = w :=
  (append_zeros hm 0 56 hc (by decide)).trans (extract_whole w)

theorem word_of_rWrite (hm : w &&& zeroMask .rWrite = 0#64) :
    code ++ 0#8 ++ w.extractLsb' 32 16 ++ w.extractLsb' 0 32 = w :=
  (append_field 0 (append_field 32 (append_zeros hm 48 8 hc (by decide)) rfl) rfl).trans (extract_whole w)

theorem word_of_rRead (hm : w &&& zeroMask .rRead = 0#64) : code ++ 0#8 ++ w.extractLsb' 32 16 ++ 0#32 = w :=
  (append_zeros hm 0 32 (append_field 32 (append_zeros hm 48 8 hc (by decide)) rfl) (by decide)).trans
    (extract_whole w)

theorem word_of_c (hm : w &&& zeroMask .c = 0#64) :
    code ++ 0#32 ++ packColor (colorOf (w.extractLsb' 0 24)) = w :=
  (append_field 0 (append_zeros hm 24 32 hc (by decide)) (packColor_colorOf _)).trans (extract_whole w)

theorem word_of_o (hm : w &&& zeroMask .o = 0#64) : code ++ 0#40 ++ w.extractLsb' 0 16 = w :=
  (append_field 0 (append_zeros hm 16 40 hc (by decide)) rfl).trans (extract_whole w)

theorem word_of_co (hm : w &&& zeroMask .co = 0#64) :
    code ++ 0#8 ++ packColor (colorOf (w.extractLsb' 24 24)) ++ 0#8 ++ w.extractLsb' 0 16 = w := by
  have hcolor := append_field 24 (append_zeros hm 48 8 hc (by decide)) (packColor_colorOf (w.extractLsb' 24 24))
  exact (append_field 0 (append_zeros hm 16 8 hcolor (by decide)) rfl).trans (extract_whole w)

theorem word_of_w (hm : w &&& zeroMask .w = 0#64) :
    code ++ 0#6 ++ w.extractLsb' 48 2 ++ w.extractLsb' 32 16 ++ 0#16 ++ w.extractLsb' 0 16 = w := by
  have hch : code ++ 0#6 ++ w.extractLsb' 48 2 = w.extractLsb' 48 16 :=
    append_field 48 (append_zeros hm 50 6 hc (by decide)) rfl
  have hval : code ++ 0#6 ++ w.extractLsb' 48 2 ++ w.extractLsb' 32 16 = w.extractLsb' 32 32 :=
    append_field 32 hch rfl
  exact (append_field 0 (append_zeros hm 16 16 hval (by decide)) rfl).trans (extract_whole w)

end

/-- A word that meets the checks of a row is the word of the command that the row assembles from it. -/
theorem encode_assemble {w : BitVec 64} : ∀ row ∈ opcodeMap, row.code = w.extractLsb' 56 8 →
    w &&& zeroMask row.format = 0#64 → encode (assemble row.op w) = w := by
  simp only [opcodeMap, List.forall_mem_cons]
  exact ⟨word_of_z, word_of_rWrite, word_of_rRead, word_of_z, word_of_z, word_of_z, word_of_c, word_of_z, word_of_c,
    word_of_z, word_of_z, word_of_o, word_of_co, word_of_w, word_of_c, List.forall_mem_nil _⟩

/-- A command assembled from a word's fields is well formed where the word has not the reserved channel. -/
theorem wellFormed_assemble {op : Opcode} {w : BitVec 64} (hch : op = .ringWrc → w.extractLsb' 48 2 ≠ 3#2) :
    (assemble op w).wellFormed = true := by
  cases op with
  | ringWrc => exact bne_iff_ne.mpr (hch rfl)
  | _ => rfl

/-- Settles O2: by the row whose checks the word has met. -/
theorem encodeOfDecode : Obligations.EncodeOfDecode := by
  intro w i h
  obtain ⟨row, hrow, hcode, hmask, hch, rfl⟩ := decode_command h
  exact ⟨wellFormed_assemble hch, encode_assemble row hrow hcode hmask⟩

/-- Settles O5: fifteen fixed words, decoded by evaluation. -/
theorem sampleWordsDecode : Obligations.SampleWordsDecode := by
  unfold Obligations.SampleWordsDecode
  decide

end Sys2Proof
end

section
/-!
Which words are commands, and how the others fail (30_encoding.md R102, R111, R113).
-/

namespace Sys2Proof.Machine

/-! ### The opcode map as the spec's table -/

/-- A row of the model's map as `specTable` writes it: opcode, ZeroMask, operands. -/
def specRow (row : OpcodeRow) : BitVec 8 × BitVec 64 × (BitVec 64 → Instr) :=
  (row.code, zeroMask row.format, assemble row.op)

/-- A colour field of a word as its three bytes (20_memory.md R81). -/
theorem colorOf_extract (w : BitVec 64) (start : Nat) :
    colorOf (w.extractLsb' start 24) =
      ⟨w.extractLsb' (start + 16) 8, w.extractLsb' (start + 8) 8, w.extractLsb' start 8⟩ := by
  simp [colorOf, extract_extract]

/-- The spec's table, row by row, is the model's map. -/
theorem specTable_eq_map : specTable = opcodeMap.map specRow := by
  simp [specTable, opcodeMap, specRow, zeroMask, assemble, colorOf_extract, funext_iff]

theorem exists_mem_specTable {P : BitVec 8 × BitVec 64 × (BitVec 64 → Instr) → Prop} :
    (∃ row ∈ specTable, P row) ↔ ∃ row ∈ opcodeMap, P (specRow row) := by
  simp only [specTable_eq_map, List.mem_map, exists_exists_and_eq_and]

/-- RING_WRC is the command of opcode 0x33 and of no other (30_encoding.md R111). -/
theorem code_eq_0x33_iff : ∀ row ∈ opcodeMap, row.code = 0x33#8 ↔ row.op = .ringWrc := by
  decide

/-! ### The three answers of the decoder -/

/-- A word is a command where it meets the checks of some row (30_encoding.md R111), in the model's own terms. -/
theorem decode_eq_command_iff {w : BitVec 64} {i : Instr} :
    decode w = .command i ↔
      ∃ row ∈ opcodeMap, row.code = w.extractLsb' 56 8 ∧ w &&& zeroMask row.format = 0#64 ∧
        (row.op = .ringWrc → w.extractLsb' 48 2 ≠ 3#2) ∧ i = assemble row.op w := by
  refine ⟨decode_command, ?_⟩
  rintro ⟨row, hrow, hcode, hmask, hch, rfl⟩
  exact decode_of_row (hcode ▸ opcodeRow_of_mem row hrow) hmask hch

/-- A word of a known opcode that a check of its row rejects. -/
theorem decode_eq_badFormat {w : BitVec 64} {row : OpcodeRow} (hrow : row ∈ opcodeMap)
    (hcode : row.code = w.extractLsb' 56 8)
    (hbad : w &&& zeroMask row.format ≠ 0#64 ∨ (row.op = .ringWrc ∧ w.extractLsb' 48 2 = 3#2)) :
    decode w = .badFormat := by
  unfold decode
  rw [← hcode, opcodeRow_of_mem row hrow]
  obtain hmask | hch := hbad
  · exact if_pos hmask
  · simp only [if_pos hch, ite_self]

/-- A word whose opcode no row has. -/
theorem decode_eq_badOpcode {w : BitVec 64} (h : ∀ row ∈ opcodeMap, row.code ≠ w.extractLsb' 56 8) :
    decode w = .badOpcode := by
  have hnone : opcodeRow (w.extractLsb' 56 8) = none := by
    simpa [opcodeRow] using h
  unfold decode
  rw [hnone]

/-- Settles O3: `decode_eq_command_iff`, read in the spec's table. -/
theorem wordIsCommandExactlyWhen : Obligations.WordIsCommandExactlyWhen := by
  intro w i
  rw [decode_eq_command_iff, exists_mem_specTable]
  refine exists_congr fun row => and_congr_right fun hrow => ?_
  simp only [specRow, code_eq_0x33_iff row hrow, eq_comm (a := row.code), BitVec.ofNat_eq_ofNat]

/-! ### Words that fail -/

/-- The reserved opcodes (30_encoding.md R113). -/
def ReservedOpcode (n : Nat) : Prop :=
  (0x05 ≤ n ∧ n ≤ 0x0F) ∨ (0x12 ≤ n ∧ n ≤ 0x1F) ∨ (0x23 ≤ n ∧ n ≤ 0x2F) ∨ 0x35 ≤ n

theorem not_reservedOpcode_of_mem : ∀ row ∈ opcodeMap, ¬ ReservedOpcode row.code.toNat := by
  unfold ReservedOpcode
  decide

section
variable {s : State} {w : BitVec 64} {rest : List HostInput} (hin : s.inputs = .command w :: rest)
include hin

/-- A word of an unknown opcode fails with code 8. -/
theorem step_of_badOpcode (hw : decode w = .badOpcode) : step s = .next (failedWith { s with inputs := rest } 8) := by
  simp only [step, fetch, hin, hw]
  rfl

/-- A word that its row's checks reject fails with code 9. -/
theorem step_of_badFormat (hw : decode w = .badFormat) : step s = .next (failedWith { s with inputs := rest } 9) := by
  simp only [step, fetch, hin, hw]
  rfl

end

/-- Settles O4: the decoder's answer on each kind of word, and the step that follows it. -/
theorem reservedEncodingsFail : Obligations.ReservedEncodingsFail := by
  intro s w rest hin
  refine ⟨fun hres => ?_, ?_, fun i hi => ?_⟩
  · refine step_of_badOpcode hin (decode_eq_badOpcode fun row hrow hcode => ?_)
    exact not_reservedOpcode_of_mem row hrow (hcode ▸ hres)
  · rw [specTable_eq_map, List.forall_mem_map]
    intro row hrow hcode hbad
    refine step_of_badFormat hin (decode_eq_badFormat hrow hcode.symm ?_)
    exact hbad.imp_right (And.imp_left (code_eq_0x33_iff row hrow).mp)
  · obtain ⟨row, hrow, hcode, -, -, happly⟩ := (wordIsCommandExactlyWhen w i).mp hi
    exact ⟨row, hrow, hcode, happly⟩

end Sys2Proof.Machine
end

section
/-!
The accumulator's operations as vectors (41_accumulator.md R141-R147, R150), from the facts about one channel: each is
its exact integer counterpart in every channel, and the terms of one error lose less than 1 each.
-/

namespace Sys2Proof.Machine

/-! ### The primitives in exact integers -/

/-- ACC_FROM keeps every channel's value (41_accumulator.md R141). -/
theorem accFrom_map_toInt (c : Color) : (accFrom c).map BitVec.toInt = c.map fun x => (x.toNat : Int) :=
  congrArg (Rgb.map · c) (funext toInt_setWidth_channel)

theorem accAdd_map_toInt (a b : Acc) :
    (accAdd a b).map BitVec.toInt = a.zipWith (fun x y => min 32767 (max (-32768) (x.toInt + y.toInt))) b :=
  congrArg (Rgb.zipWith · a b) (funext₂ fun x y => toInt_sat16 (x.toInt + y.toInt))

theorem accSub_map_toInt (a b : Acc) :
    (accSub a b).map BitVec.toInt = a.zipWith (fun x y => min 32767 (max (-32768) (x.toInt - y.toInt))) b :=
  congrArg (Rgb.zipWith · a b) (funext₂ fun x y => toInt_sat16 (x.toInt - y.toInt))

/-- ACC_SHR is the rounded-down division by `2 ^ s`, then saturation (41_accumulator.md R145). -/
theorem accShr_map_toInt (v : Wide) (s : Nat) :
    (accShr v s).map BitVec.toInt = v.map fun x => min 32767 (max (-32768) (Int.fdiv x (2 ^ s))) := by
  have hchannel (x : Int) : (sat16 (sra x s)).toInt = min 32767 (max (-32768) (Int.fdiv x (2 ^ s))) := by
    rw [toInt_sat16, sra, Nat.cast_pow, Nat.cast_ofNat, Int.fdiv_eq_ediv_of_nonneg x (by positivity)]
  exact congrArg (Rgb.map · v) (funext hchannel)

/-- Settles O27: one lemma per primitive; ACC_SCALE is the exact product by definition. -/
theorem accumulatorPrimitives : Obligations.AccumulatorPrimitives :=
  ⟨accFrom_map_toInt, accAdd_map_toInt, accSub_map_toInt, fun _ _ => rfl, accShr_map_toInt⟩

/-- Settles O29. -/
theorem narrowClampsEachChannel : Obligations.NarrowClampsEachChannel :=
  fun a => congrArg (Rgb.map · a) (funext toNat_narrow_channel)

/-! ### TERM -/

theorem floorTerm_eq (e : Int) (num : BitVec 8) : floorTerm e num = e * num.toNat / 16 :=
  Int.fdiv_eq_ediv_of_nonneg _ (by decide)

/-- TERM is the rounded-down sixteenth of the product in each channel (41_accumulator.md R146). -/
theorem term_map_toInt (e : Err) (num : BitVec 8) :
    (term e num).map BitVec.toInt = e.map fun x => floorTerm x.toInt num :=
  congrArg (Rgb.map · e) (funext fun x => (toInt_term_channel x num).trans (floorTerm_eq x.toInt num).symm)

/-- Settles O28. -/
theorem termIsFloorOfSixteenth : Obligations.TermIsFloorOfSixteenth :=
  fun e num => ⟨term_map_toInt e num, fun ⟨hr, hg, hb⟩ =>
    ⟨term_channel_bounds hr num, term_channel_bounds hg num, term_channel_bounds hb num⟩⟩

/-! ### Truncation loss -/

/-- One term loses less than 1, toward minus infinity. -/
theorem floorTerm_bounds (e : Int) (num : BitVec 8) :
    16 * floorTerm e num ≤ e * num.toNat ∧ e * num.toNat < 16 * floorTerm e num + 16 := by
  rw [floorTerm_eq]
  omega

/-- Several terms of one error lose, in sixteenths, at most 15 each. -/
theorem sum_floorTerm_bounds (e : Int) (nums : List (BitVec 8)) :
    16 * (nums.map (floorTerm e)).sum ≤ e * (nums.map BitVec.toNat).sum ∧
      e * (nums.map BitVec.toNat).sum ≤ 16 * (nums.map (floorTerm e)).sum + 15 * nums.length := by
  induction nums with
  | nil => simp
  | cons num nums ih =>
    have hone := floorTerm_bounds e num
    simp only [List.map_cons, List.sum_cons, List.length_cons, Nat.cast_add, mul_add]
    omega

theorem truncatesChannel_of_eq_floorTerm {e : Int} {share : BitVec 8 → Int} (h : ∀ num, share num = floorTerm e num) :
    TruncatesChannel e share := by
  rw [funext h]
  refine ⟨floorTerm_bounds e, fun nums hsum => ?_⟩
  have hbounds := sum_floorTerm_bounds e nums
  have hlen : nums.length ≠ 0 := by
    intro h
    rw [List.length_eq_zero_iff.mp h] at hsum
    exact absurd hsum (by decide)
  rw [hsum] at hbounds
  omega

/-- Settles O30: what `term` adds to a channel is `floorTerm`, which truncates. -/
theorem truncationLoss : Obligations.TruncationLoss :=
  fun e => ⟨truncatesChannel_of_eq_floorTerm fun num => congrArg Rgb.r (term_map_toInt e num),
    truncatesChannel_of_eq_floorTerm fun num => congrArg Rgb.g (term_map_toInt e num),
    truncatesChannel_of_eq_floorTerm fun num => congrArg Rgb.b (term_map_toInt e num)⟩

end Sys2Proof.Machine
end

section
/-!
The engine's STEP on a wholly written ring. First the state follows `ringStep`, one view after another; then a view whose
waiting pixels lie within what their terms can reach keeps that bound, and its sums are those of exact integers
(41_accumulator.md R149).
-/

namespace Sys2Proof.Machine

/-! ### A state's ring as a view -/

/-- The ring of `s`, wholly written, with CURSOR and the colours emitted so far, is the view `v`. -/
structure State.Shows (s : State) (v : RingView) : Prop where
  ring : s.RingIs v.content
  cursor : s.cursor.toNat = v.cursor
  cursorLt : v.cursor < s.ringLen
  out : s.out = v.emitted

/-- `ringStep` reads what no STEP changes: the quantiser, the active kernel and the ring's size. -/
theorem ringStep_stepPixel (x : Color) (s : State) : ringStep (stepPixel x s) = ringStep s := by
  obtain ⟨p, hp⟩ := stepPixel_frame x s
  rw [hp]
  rfl

/-- STEP takes the ring to the next view (44_engine.md R246). -/
theorem State.Shows.stepPixel {s : State} {v : RingView} (h : s.Shows v) (x : Color) :
    (stepPixel x s).Shows (ringStep s x v) := by
  obtain ⟨hring, hcursor, hlt, hout⟩ := h
  obtain ⟨content, cursor, emitted⟩ := v
  cases hcursor
  cases hout
  obtain ⟨hstep, hcontent⟩ := stepPixel_of_ringIs hring (Nat.le_of_lt_succ hlt) x
  have hnext : (s.cursor.toNat + 1) % s.ringLen < s.ringLen := Nat.mod_lt _ (Nat.succ_pos _)
  refine ⟨hcontent, ?_, ?_, ?_⟩
  · rw [hstep]
    exact Nat.mod_eq_of_lt (hnext.trans_le s.ringN.isLt)
  · rw [State.ringLen, stepPixel_ringN]
    exact hnext
  · rw [hstep]
    rfl

/-- The drain's STEPs take the ring through as many views (44_engine.md R248). -/
theorem State.Shows.stepTimes {s : State} {v : RingView} (h : s.Shows v) (x : Color) (n : Nat) :
    (stepTimes x n s).Shows ((ringStep s x)^[n] v) := by
  induction n generalizing s v with
  | zero => exact h
  | succ n ih =>
    have hnext := ih (h.stepPixel x)
    rwa [ringStep_stepPixel] at hnext

/-- END leaves the ring that its STEPs with DEFAULT lead to. -/
theorem State.Shows.drain {s : State} {v : RingView} (h : s.Shows v) (n : Nat) :
    (drain n s).Shows ((ringStep s s.defaultColor)^[n] v) := by
  have hsteps := State.Shows.stepTimes (s := { s with mode := .draining }) { h with } s.defaultColor n
  exact { hsteps with }

/-! ### The slots a kernel term reaches -/

/-- Logical offsets 1..N+1 name different slots. -/
theorem phys_succ_inj {len c k d : Nat} (hk : k < len) (hd : d < len)
    (h : (c + (k + 1)) % len = (c + (d + 1)) % len) : k = d := by
  have hmod : k + 1 ≡ d + 1 [MOD len] := Nat.ModEq.add_left_cancel' c h
  exact (Nat.ModEq.add_right_cancel' 1 hmod).eq_of_lt_of_lt hk hd

/-- Every slot has a logical offset in 1..N+1. -/
theorem exists_phys_succ {len c j : Nat} (hc : c < len) (hj : j < len) : ∃ d < len, (c + (d + 1)) % len = j := by
  by_cases h : c < j
  · exact ⟨j - c - 1, by omega, by rw [show c + (j - c - 1 + 1) = j by omega, Nat.mod_eq_of_lt hj]⟩
  · refine ⟨j + len - c - 1, by omega, ?_⟩
    rw [show c + (j + len - c - 1 + 1) = j + len by omega, Nat.add_mod_right, Nat.mod_eq_of_lt hj]

/-- In the window 0..N+1 the terms with a share for the slot at offset `d + 1` are those of that offset. -/
theorem reaching_eq {terms : List KernelTerm} {len c d : Nat} (hw : ∀ t ∈ terms, t.off ≤ len) (hd : d < len) :
    (terms.filter fun t => decide (t.off ≠ 0 ∧ (c + t.off) % len = (c + (d + 1)) % len)) =
      terms.filter fun t => decide (t.off = d + 1) := by
  refine List.filter_congr fun t ht => decide_eq_decide.mpr ⟨fun ⟨h0, hmod⟩ => ?_, fun h => ?_⟩
  · obtain ⟨k, hk⟩ := Nat.exists_eq_succ_of_ne_zero h0
    have hle := hw t ht
    rw [hk] at hmod hle
    rw [hk, phys_succ_inj (by omega) hd hmod]
  · exact ⟨by omega, by rw [h]⟩

/-- The slot at offset `d + 1` after a STEP: the pushed ring's, and the terms of that offset. -/
theorem ringStep_content {s : State} (hw : ∀ t ∈ s.activeTerms, t.off ≤ s.ringLen) (x : Color) (v : RingView) {d : Nat}
    (hd : d < s.ringLen) :
    (ringStep s x v).content ((v.cursor + (d + 1)) % s.ringLen) =
      (s.activeTerms.filter fun t => decide (t.off = d + 1)).foldl
        (fun a t => accAdd a (term (s.withError (narrow (v.content v.cursor))).2 t.num))
        (putSlot v.content v.cursor (accFrom x) ((v.cursor + (d + 1)) % s.ringLen)) := by
  rw [← reaching_eq hw hd]
  exact diffused_apply _ _ _ _ _ _

/-- What the kernel's terms add to one slot in exact integers: the counterpart of `diffused_apply`. -/
theorem exactDiffused_apply (len h : Nat) (e : Err) (terms : List KernelTerm) (g : Nat → Rgb Int) (i : Nat) :
    exactDiffused len h e terms g i =
      (terms.filter fun t => decide (t.off ≠ 0 ∧ (h + t.off) % len = i)).foldl
        (fun a t => a.zipWith (· + ·) (e.map fun x => floorTerm x.toInt t.num)) (g i) := by
  induction terms generalizing g with
  | nil => rfl
  | cons t terms ih =>
    refine (ih _).trans ?_
    by_cases h0 : t.off = 0
    · simp [h0]
    · by_cases hi : (h + t.off) % len = i
      · simp [h0, hi, Rgb.zipWith, Rgb.map]
      · simp [h0, hi, Ne.symm hi]

/-- The same of a STEP on exact integers. -/
theorem exactStep_content {s : State} (hw : ∀ t ∈ s.activeTerms, t.off ≤ s.ringLen) (x : Color) (w : ExactView) {d : Nat}
    (hd : d < s.ringLen) :
    (exactStep s x w).content ((w.cursor + (d + 1)) % s.ringLen) =
      (s.activeTerms.filter fun t => decide (t.off = d + 1)).foldl
        (fun a t => a.zipWith (· + ·)
          ((term (s.withError (narrowExact (w.content w.cursor))).2 t.num).map BitVec.toInt))
        (if (w.cursor + (d + 1)) % s.ringLen = w.cursor then x.map fun c => (c.toNat : Int)
          else w.content ((w.cursor + (d + 1)) % s.ringLen)) := by
  rw [← reaching_eq (c := w.cursor) hw hd]
  simp only [term_map_toInt]
  exact exactDiffused_apply _ _ _ _ _ _

/-! ### The bound on the waiting pixels -/

theorem WithinTerms.mono {m n : Nat} (h : m ≤ n) {x : BitVec 16} (hx : WithinTerms m x) : WithinTerms n x := by
  unfold WithinTerms at *
  omega

/-- A fresh pixel is within every bound. -/
theorem accFrom_withinTerms (c : Color) (m : Nat) : (accFrom c).Each (WithinTerms m) := by
  obtain ⟨hr, hg, hb⟩ := accFrom_within c
  exact ⟨hr.mono m.zero_le, hg.mono m.zero_le, hb.mono m.zero_le⟩

/-- A term that reaches beyond `d` has offset `d + 1` or reaches beyond `d + 1`. -/
theorem termsBeyond_eq_add (s : State) (d : Nat) :
    s.termsBeyond d = s.termsBeyond (d + 1) + (s.activeTerms.filter fun t => decide (t.off = d + 1)).length := by
  unfold State.termsBeyond
  rw [← List.countP_eq_length_filter]
  induction s.activeTerms with
  | nil => rfl
  | cons t terms ih =>
    simp only [List.countP_cons, ih, decide_eq_true_eq]
    split <;> split <;> split <;> omega

/-- No more than 8 terms are active, so no more reach a pixel in all. -/
theorem termsBeyond_add_le (s : State) (d : Nat) :
    s.termsBeyond (d + 1) + (s.activeTerms.filter fun t => decide (t.off = d + 1)).length ≤ 8 := by
  rw [← termsBeyond_eq_add]
  refine List.countP_le_length.trans ?_
  rw [State.activeTerms, List.length_take]
  exact (Nat.min_le_right _ _).trans_eq s.kact.size_toArray

/-- The pixel at every logical offset of the view lies within what the terms that reach beyond it add up to. -/
def RingView.Within (s : State) (v : RingView) : Prop :=
  ∀ d < s.ringLen, (v.content ((v.cursor + d) % s.ringLen)).Each (WithinTerms (s.termsBeyond d))

/-- The invariant of a running image says this of its ring. -/
theorem accInv_iff_within {s : State} {v : RingView} (h : s.Shows v) (hrun : s.Running) : s.AccInv ↔ v.Within s := by
  have hphys (d : Nat) : (v.cursor + d) % s.ringLen = s.phys d := by rw [← h.cursor]; rfl
  refine ⟨fun hacc d hd => ?_, fun hv _ d hd a ha => ?_⟩
  · rw [hphys]
    exact hacc hrun d (Nat.le_of_lt_succ hd) _ (h.ring _ (phys_le s d))
  · rw [holds_unique ha (h.ring _ (phys_le s d)), ← hphys]
    exact hv d (Nat.lt_succ_of_le hd)

/-! ### One STEP in exact integers -/

section
variable {s : State} {v : RingView} (hv : v.Within s) (hc : v.cursor < s.ringLen)
include hv hc

/-- Right after the push (44_engine.md R246) the new pixel in the head slot counts as offset N + 1. -/
theorem RingView.Within.push (x : Color) {d : Nat} (hd : d < s.ringLen) :
    (putSlot v.content v.cursor (accFrom x) ((v.cursor + (d + 1)) % s.ringLen)).Each
      (WithinTerms (s.termsBeyond (d + 1))) := by
  unfold putSlot
  split
  case isTrue => exact accFrom_withinTerms x _
  case isFalse hne =>
    have hlt : d + 1 < s.ringLen := by
      refine lt_of_le_of_ne hd fun heq => hne ?_
      rw [heq, Nat.add_mod_right, Nat.mod_eq_of_lt hc]
    exact hv (d + 1) hlt

variable (hw : ∀ t ∈ s.activeTerms, t.off ≤ s.ringLen)
include hw

/-- STEP keeps every waiting pixel within what its terms can add up to: offset `d + 1` becomes offset `d`. -/
theorem RingView.Within.ringStep (x : Color) : (ringStep s x v).Within s := by
  intro d hd
  have hslot : ((Machine.ringStep s x v).cursor + d) % s.ringLen = (v.cursor + (d + 1)) % s.ringLen := by
    rw [Machine.ringStep, Nat.mod_add_mod, Nat.add_assoc, Nat.add_comm 1]
  rw [hslot, ringStep_content hw x v hd, termsBeyond_eq_add]
  exact (foldl_accAdd_within (withError_bounds s _) _ (termsBeyond_add_le s d) (hv.push hc x hd)).2

end

/-- The view `w` on exact integers has the channels, the head and the colours of the view `v`. -/
structure RingView.Exact (s : State) (v : RingView) (w : ExactView) : Prop where
  content : ∀ j < s.ringLen, (v.content j).map BitVec.toInt = w.content j
  cursor : w.cursor = v.cursor
  emitted : w.emitted = v.emitted

section
variable {s : State} {v : RingView} {w : ExactView} (h : v.Exact s w) (hv : v.Within s) (hc : v.cursor < s.ringLen)
  (hw : ∀ t ∈ s.activeTerms, t.off ≤ s.ringLen)
include h hv hc hw

/-- STEP gives what exact integer addition gives (41_accumulator.md R149). -/
theorem RingView.Exact.step (x : Color) : (ringStep s x v).Exact s (exactStep s x w) := by
  obtain ⟨content, cursor, emitted⟩ := w
  obtain ⟨hcontent, hcursor, hemitted⟩ := h
  dsimp only at hcontent hcursor hemitted
  subst hcursor hemitted
  have hnarrow : narrowExact (content v.cursor) = narrow (v.content v.cursor) := by
    rw [← hcontent _ hc]
    rfl
  refine ⟨fun j hj => ?_, rfl, ?_⟩
  · obtain ⟨d, hd, rfl⟩ := exists_phys_succ hc hj
    rw [ringStep_content hw x v hd,
      (foldl_accAdd_within (withError_bounds s _) _ (termsBeyond_add_le s d) (hv.push hc x hd)).1,
      exactStep_content hw x ⟨content, v.cursor, v.emitted⟩ hd, hnarrow, putSlot, apply_ite (Rgb.map BitVec.toInt),
      accFrom_map_toInt, hcontent _ hj]
  · rw [exactStep, hnarrow]
    rfl

/-- Any number of STEPs gives what exact integer addition gives. -/
theorem RingView.Exact.iterate (x : Color) (n : Nat) : ((ringStep s x)^[n] v).Exact s ((exactStep s x)^[n] w) := by
  induction n generalizing v w with
  | zero => exact h
  | succ n ih => exact ih (h.step hv hc hw x) (hv.ringStep hc hw x) (Nat.mod_lt _ (Nat.succ_pos _))

end

/-! ### The invariant -/

/-- A running image shows its ring as a view. -/
theorem State.RunInv.shows {s : State} (h : s.RunInv) (hr : s.Running) {f : Nat → Acc} (hf : s.RingIs f) :
    s.Shows ⟨f, s.cursor.toNat, s.out⟩ :=
  ⟨hf, rfl, Nat.lt_succ_of_le (h.cursorLe hr), rfl⟩

/-- Between images the accumulators are not constrained. -/
theorem State.AccInv.of_resting {s : State} (hr : s.Resting) : s.AccInv :=
  fun hrun => absurd hr (not_resting_of_running hrun)

/-- START leaves only fresh pixels. -/
theorem Done.start_accInv {s u : State} (h : Done .start s u) : u.AccInv := by
  obtain ⟨-, -, -, -, -, rfl⟩ := h
  intro _ d _ a ha
  rw [holds_unique ha (sizeRing_ringIs s _ (phys_le s.sizeRing d))]
  exact accFrom_withinTerms _ _

/-- PIXEL in FILLING replaces one slot by a fresh pixel. -/
theorem State.AccInv.primePixel {s : State} (h : s.AccInv) (hm : s.mode = .filling) (x : Color) :
    (primePixel x s).AccInv := by
  intro _ d hd a ha
  have hslot := (holds_ringWrite s (s.phys d) s.fill.toNat (accFrom x) a).mp ha
  split at hslot
  · rw [← hslot]
    exact accFrom_withinTerms x _
  · exact h (.inl hm) d hd a hslot

/-- PIXEL in STREAMING is one STEP. -/
theorem State.AccInv.streamPixel {s : State} (h : s.AccInv) (hrun : s.RunInv) (hm : s.mode = .streaming) (x : Color) :
    (stepPixel x { s with inCount := s.inCount + 1 }).AccInv := by
  have hr : s.Running := .inr (.inl hm)
  obtain ⟨f, hf⟩ := hrun.written hr
  have hshows := hrun.shows hr hf
  have hwithin := ((accInv_iff_within hshows hr).mp h).ringStep hshows.cursorLt (hrun.window hr) x
  have hnext := State.Shows.stepPixel (s := { s with inCount := s.inCount + 1 }) { hshows with } x
  obtain ⟨p, hp⟩ := stepPixel_frame x { s with inCount := s.inCount + 1 }
  refine (accInv_iff_within hnext ?_).mpr ?_
  · rw [hp]
    exact hr
  · rw [hp]
    exact hwithin

/-- Every command that succeeds keeps the waiting pixels within their bounds. -/
theorem Done.keepsAccInv {i : Instr} {s u : State} (hd : Done i s u) (hrun : s.RunInv) (h : s.AccInv) : u.AccInv := by
  cases i with
  | nop => cases hd; exact h
  | rdReg | query | errClear =>
    have row : u = _ := hd.writesOnlyItsRow
    rw [row]
    exact h
  | abort => cases hd; exact .of_resting (.inl rfl)
  | start => exact hd.start_accInv
  | pixel x =>
    obtain ⟨hm, rfl⟩ | ⟨hm, rfl⟩ := hd
    · exact h.primePixel hm x
    · exact h.streamPixel hrun hm x
  | endImage =>
    obtain ⟨-, rfl⟩ | ⟨-, rfl⟩ := hd
    · exact .of_resting (.inr rfl)
    · exact .of_resting (.inr rfl)
  | build | ringRd =>
    have row : u = _ := hd.writesOnlyItsRow
    obtain ⟨hr, -⟩ := hd
    rw [row]
    exact .of_resting hr
  | wrReg | ringReset | ringLd | ringPush =>
    obtain ⟨row, -⟩ := hd.writesOnlyItsRow
    obtain ⟨hr, -⟩ := hd
    rw [row]
    exact .of_resting hr
  | ringWrc off ch v => obtain ⟨-, hr, rfl⟩ := hd; exact .of_resting hr

/-- Settles O54, by `step_keeps` for both invariants of a running image: only the engine's commands touch its ring. -/
theorem stepKeepsAccInv : Obligations.StepKeepsAccInv := by
  intro s t hrun hacc hstep
  refine (step_keeps (P := fun s => s.RunInv ∧ s.AccInv) (fun s rest ⟨hr, ha⟩ => ⟨{ hr with }, ha⟩)
    (fun s ⟨hr, _⟩ => ?_) (fun s code ⟨hr, ha⟩ => ⟨{ hr with }, ha⟩) (fun s d ⟨hr, ha⟩ => ⟨{ hr with }, ha⟩)
    (fun s u code ⟨hr, _⟩ hb => ?_) (fun i s u ⟨hr, ha⟩ hd => ⟨hd.keepsRunInv hr, hd.keepsAccInv hr ha⟩)
    ⟨hrun, hacc⟩ hstep).2
  · exact ⟨.of_resting hr.legal (.inl rfl) nofun, .of_resting (.inl rfl)⟩
  · obtain ⟨hrest, -, vs, -, rfl⟩ := hb
    exact ⟨.of_resting hr.legal hrest hr.done, .of_resting hrest⟩

/-! ### The engine against exact integers -/

/-- PIXEL in STREAMING and END take a running image's ring through their STEPs (44_engine.md R244, R246, R248). -/
theorem exec_shows {s : State} {v : RingView} (h : s.Shows v) {i : Instr} {x : Color} {n : Nat}
    (hi : (i = .pixel x ∧ s.mode = .streaming ∧ n = 1) ∨
      (i = .endImage ∧ s.mode = .filling ∧ x = s.defaultColor ∧ n = s.fill.toNat) ∨
      (i = .endImage ∧ s.mode = .streaming ∧ x = s.defaultColor ∧ n = s.ringN.toNat + 1)) :
    ∃ t, exec i s = .next t ∧ t.Shows ((ringStep s x)^[n] v) := by
  obtain ⟨rfl, hm, rfl⟩ | ⟨rfl, hm, rfl, rfl⟩ | ⟨rfl, hm, rfl, rfl⟩ := hi
  · have hstep := State.Shows.stepPixel (s := { s with inCount := s.inCount + 1 }) { h with } x
    exact ⟨_, exec_pixel_of_streaming hm x, { hstep with }⟩
  · have hdrain := State.Shows.drain (s := { s with shortPrime := true }) { h with } s.fill.toNat
    exact ⟨_, exec_endImage_of_filling hm, { hdrain with }⟩
  · have hdrain := h.drain s.ringLen
    exact ⟨_, exec_endImage_of_streaming hm, { hdrain with }⟩

/-- Settles O55: the command takes the ring through its STEPs, and within the invariant these are exact. -/
theorem engineAddsExactly : Obligations.EngineAddsExactly := by
  intro s i x n f hrun hacc hf hi
  have hr : s.Running := by
    obtain ⟨-, hm, -⟩ | ⟨-, hm, -⟩ | ⟨-, hm, -⟩ := hi
    · exact .inr (.inl hm)
    · exact .inl hm
    · exact .inr (.inl hm)
  have hshows := hrun.shows hr hf
  have hexact : RingView.Exact s ⟨f, s.cursor.toNat, s.out⟩ ⟨fun j => (f j).map BitVec.toInt, s.cursor.toNat, s.out⟩ :=
    ⟨fun _ _ => rfl, rfl, rfl⟩
  obtain ⟨hcontent, -, hemitted⟩ :=
    hexact.iterate ((accInv_iff_within hshows hr).mp hacc) hshows.cursorLt (hrun.window hr) x n
  obtain ⟨t, hexec, ht⟩ := exec_shows hshows hi
  exact ⟨t, _, hexec, ht.ring, ht.out.trans hemitted.symm, fun j hj => hcontent j (Nat.lt_succ_of_le hj)⟩

end Sys2Proof.Machine
end

section
/-!
The host's ring commands: between images each is one operation on the ring, while an image runs none of them has an
effect (42_ring_fifo.md R173, R175 to R181).
-/

namespace Sys2Proof.Machine

/-! ### Outside IDLE and DONE -/

/-- The check of MODE comes before every other one (42_ring_fifo.md R176). -/
theorem exec_ring_of_not_resting {i : Instr} {s : State} (hr : ¬ s.Resting) (hi : i.wellFormed = true)
    (hring : i = .ringReset ∨ (∃ off, i = .ringRd off) ∨ (∃ off c, i = .ringLd off c) ∨
      (∃ off ch v, i = .ringWrc off ch v) ∨ ∃ c, i = .ringPush c) : exec i s = .next (failedWith s 7) := by
  obtain rfl | ⟨off, rfl⟩ | ⟨off, c, rfl⟩ | ⟨off, ch, v, rfl⟩ | ⟨c, rfl⟩ := hring
  · exact if_pos hr
  · exact if_pos hr
  · exact if_pos hr
  · have hch : ch ≠ 3 := bne_iff_ne.mp hi
    exact (if_neg hch).trans (if_pos hr)
  · exact if_pos hr

/-- Settles O37: while an image runs MODE is neither IDLE nor DONE. -/
theorem engineOwnsTheRing : Obligations.EngineOwnsTheRing :=
  fun _ _ hrun => exec_ring_of_not_resting (not_resting_of_running hrun)

/-! ### RING_RESET -/

theorem sizeRing_filledWith (s : State) :
    FilledWith s.sizeRing.ringRam s.ringRam s.width.toNat s.defaultColor :=
  read?_ringFill _ _ _

/-- Settles O31: the two checks in their order, then the ring of `sizeRing`. -/
theorem ringResetSizesAndFills : Obligations.RingResetSizesAndFills := by
  refine fun s => ⟨fun hr => ⟨fun hlo hhi => ?_, fun hw => ?_⟩, fun hidle hdone => ?_⟩
  · have hexec : exec .ringReset s = .next (s.sizeRing.respond 0) :=
      (if_neg (not_not.mpr hr)).trans (if_neg (not_not.mpr ⟨hlo, hhi⟩))
    exact ⟨_, hexec, sizeRing_filledWith s⟩
  · have hillegal : ¬ s.WidthLegal := by omega
    exact (if_neg (not_not.mpr hr)).trans (if_pos hillegal)
  · exact exec_ring_of_not_resting (not_or.mpr ⟨hidle, hdone⟩) rfl (.inl rfl)

/-! ### RING_RD -/

/-- What a read answers: in each channel what was last written, or the read's draw where nothing was. -/
theorem ringRead_fst (s : State) (j : Nat) :
    (s.ringRead j).1 =
      ⟨(s.ringRam.read? (ringKey j 0)).getD (Config.freeAcc s.draws).r,
        (s.ringRam.read? (ringKey j 1)).getD (Config.freeAcc s.draws).g,
        (s.ringRam.read? (ringKey j 2)).getD (Config.freeAcc s.draws).b⟩ := by
  unfold State.ringRead
  split
  case h_1 hr hg hb => rw [hr, hg, hb]; rfl
  case h_2 => rfl

theorem exec_ringRd_of_resting {s : State} (hr : s.Resting) (off : BitVec 16) :
    exec (.ringRd off) s = .next (((s.ringIndex off).2.ringRead (s.phys off.toNat)).2.respond
      (packAcc ((s.ringIndex off).2.ringRead (s.phys off.toNat)).1)) :=
  if_neg (not_not.mpr hr)

/-- Settles O32: a read changes nothing but the count of drawn values, and a written channel answers what it holds. -/
theorem ringRdReadsTheSlot : Obligations.RingRdReadsTheSlot := by
  refine fun s off => ⟨fun hr => ?_, fun hidle hdone => ?_⟩
  · have hexec := exec_ringRd_of_resting hr off
    rw [ringRead_snd, ringRead_fst] at hexec
    exact ⟨_, _, hexec, fun _ => congrArg (Option.getD · _), fun _ => congrArg (Option.getD · _),
      fun _ => congrArg (Option.getD · _)⟩
  · exact exec_ring_of_not_resting (not_or.mpr ⟨hidle, hdone⟩) rfl (.inr (.inl ⟨off, rfl⟩))

/-! ### RING_LD and RING_WRC -/

theorem ringWrite_loadedWith (s : State) (j : Nat) (c : Color) :
    LoadedWith (s.ringWrite j (accFrom c)).ringRam s.ringRam j c :=
  read?_ringWrite s j (accFrom c)

/-- Settles O33: RING_LD is one slot write, at the slot RING_INDEX names. -/
theorem ringLdLoadsTheSlot : Obligations.RingLdLoadsTheSlot := by
  refine fun s off c => ⟨fun hr => ?_, fun hidle hdone => ?_⟩
  · have hexec : exec (.ringLd off c) s =
        .next (((s.ringIndex off).2.ringWrite (s.phys off.toNat) (accFrom c)).respond 0) := if_neg (not_not.mpr hr)
    exact ⟨_, hexec, ringWrite_loadedWith _ _ c⟩
  · exact exec_ring_of_not_resting (not_or.mpr ⟨hidle, hdone⟩) rfl (.inr (.inr (.inl ⟨off, c, rfl⟩)))

/-- Settles O34: RING_WRC is one channel write, at the slot RING_INDEX names; the reserved channel is refused first. -/
theorem ringWrcWritesOneChannel : Obligations.RingWrcWritesOneChannel := by
  refine fun s off ch v => ⟨fun hch hr => ?_, fun hch hidle hdone => ?_, fun hch => if_pos hch⟩
  · have hexec : exec (.ringWrc off ch v) s =
        .next (((s.ringIndex off).2.ringWriteChannel (s.phys off.toNat) ch.toNat v).respond 0) :=
      (if_neg hch).trans (if_neg (not_not.mpr hr))
    exact ⟨_, hexec, read?_ringWriteChannel _ _ _ v⟩
  · exact exec_ring_of_not_resting (not_or.mpr ⟨hidle, hdone⟩) (bne_iff_ne.mpr hch)
      (.inr (.inr (.inr (.inl ⟨off, ch, v, rfl⟩))))

/-! ### RING_PUSH -/

theorem exec_ringPush_of_resting {s : State} (hr : s.Resting) (c : Color) :
    exec (.ringPush c) s = .next ((s.ringPush (accFrom c)).respond 0) :=
  if_neg (not_not.mpr hr)

/-- Settles O35: RING_PUSH is one slot write at the head, then the head advances. -/
theorem ringPushEvictsTheHead : Obligations.RingPushEvictsTheHead := by
  refine fun s c => ⟨fun hr => ?_, fun hidle hdone => ?_⟩
  · exact ⟨_, exec_ringPush_of_resting hr c, ringWrite_loadedWith s s.cursor.toNat c⟩
  · exact exec_ring_of_not_resting (not_or.mpr ⟨hidle, hdone⟩) rfl (.inr (.inr (.inr (.inr ⟨c, rfl⟩))))

/-- A push makes every logical offset one lower. -/
theorem phys_ringPush (s : State) (a : Acc) (off : Nat) : (s.ringPush a).phys off = s.phys (off + 1) := by
  have hlt : (s.cursor.toNat + 1) % s.ringLen < s.ringLen := Nat.mod_lt _ (Nat.succ_pos _)
  have hcursor : (s.ringPush a).cursor.toNat = (s.cursor.toNat + 1) % s.ringLen :=
    Nat.mod_eq_of_lt (hlt.trans_le s.ringN.isLt)
  change ((s.ringPush a).cursor.toNat + off) % s.ringLen = (s.cursor.toNat + (off + 1)) % s.ringLen
  rw [hcursor, Nat.mod_add_mod, Nat.add_assoc, Nat.add_comm 1]

/-- Logical offset N + 1 is the head slot again. -/
theorem phys_ringLen {s : State} (hc : s.cursor.toNat ≤ s.ringN.toNat) : s.phys (s.ringN.toNat + 1) = s.cursor.toNat :=
  (Nat.add_mod_right _ _).trans (Nat.mod_eq_of_lt (Nat.lt_succ_of_le hc))

/-- Offsets 1..N name other slots than the head. -/
theorem phys_succ_ne_cursor {s : State} (hc : s.cursor.toNat ≤ s.ringN.toNat) {k : Nat} (hk : k < s.ringN.toNat) :
    s.phys (k + 1) ≠ s.cursor.toNat := by
  intro h
  have heq : k = s.ringN.toNat :=
    phys_succ_inj (hk.trans (Nat.lt_succ_self _)) (Nat.lt_succ_self _) (h.trans (phys_ringLen hc).symm)
  omega

/-- The slot at each logical offset after a push: the new item's, or the slot of the next offset before it. -/
theorem holds_phys_ringPush (s : State) (off : Nat) (a b : Acc) :
    (s.ringPush a).SlotHolds ((s.ringPush a).phys off) b ↔
      if s.phys (off + 1) = s.cursor.toNat then a = b else s.SlotHolds (s.phys (off + 1)) b := by
  rw [phys_ringPush]
  exact holds_ringWrite s _ _ a b

/-- Settles O36: the slots stay where they are, but for the head's, which becomes offset N. -/
theorem pushShiftsTheWindow : Obligations.PushShiftsTheWindow := by
  intro s t c hc hr h
  cases (exec_ringPush_of_resting hr c).symm.trans h
  refine ⟨fun j a hlo hhi ha => ?_, ?_⟩
  · obtain ⟨k, rfl⟩ := Nat.exists_eq_add_of_le' hlo
    exact (holds_phys_ringPush s k _ a).mpr (by rwa [if_neg (phys_succ_ne_cursor hc hhi)])
  · exact (holds_phys_ringPush s _ _ _).mpr (by rw [if_pos (phys_ringLen hc)])

end Sys2Proof.Machine
end

section
/-!
The quantiser (43_quantizer.md R201 to R212): the sample levels, the slot of a colour's cell and what QUERY and
WITH_ERROR make of it, and BUILD's map, lattice and failures.
-/

namespace Sys2Proof.Machine

/-! ### The sample levels -/

/-- R201's level fits 8 bits, since no index exceeds R - 1. -/
theorem sampleLevel_toNat {k i : Nat} (hi : i < 2 ^ k) : (sampleLevel k i).toNat = i * 255 / (2 ^ k - 1) := by
  have hle : i * 255 / (2 ^ k - 1) ≤ 255 := Nat.div_le_of_le_mul (Nat.mul_le_mul_right 255 (by omega))
  exact Nat.mod_eq_of_lt (Nat.lt_succ_of_le hle)

/-- The level of index `i` of `m + 1` lies in cell `i`, where the `m + 1` cells are `n + 1` levels wide and fill
0..255. -/
theorem level_div_width {m n i : Nat} (hm : 0 < m) (hfill : (m + 1) * (n + 1) = 256) (hi : i ≤ m) :
    i * 255 / m / (n + 1) = i := by
  have h255 : 255 = m * (n + 1) + n := by linarith
  have hlow : i * n ≤ m * n := Nat.mul_le_mul_right n hi
  rw [Nat.div_div_eq_div_mul, h255]
  apply Nat.div_eq_of_lt_le
  · exact Nat.mul_le_mul_left i (Nat.le_add_right _ _)
  · linarith

/-- Settles O20: with R = 2^k the cells are 2^(8-k) levels wide, and the two powers make 256. -/
theorem samplesLieInTheirCells : Obligations.SamplesLieInTheirCells := by
  intro k i hlo hhi hi
  obtain ⟨m, hm⟩ := Nat.exists_eq_add_one_of_ne_zero (Nat.two_pow_pos k).ne'
  obtain ⟨n, hn⟩ := Nat.exists_eq_add_one_of_ne_zero (Nat.two_pow_pos (8 - k)).ne'
  have hfill : (m + 1) * (n + 1) = 256 := by
    rw [← hm, ← hn, ← Nat.pow_add, Nat.add_sub_cancel' hhi]
  have hpos : 2 ^ 1 ≤ 2 ^ k := Nat.pow_le_pow_right (by decide) hlo
  refine ⟨sampleLevel_toNat hi, ?_⟩
  rw [sampleLevel_toNat hi, Nat.shiftRight_eq_div_pow, hn, hm]
  exact level_div_width (by omega) hfill (by omega)

/-! ### The slot of a colour's cell -/

/-- The sample that stands at a colour's cell in the sweep is the cell's sample point (43_quantizer.md R202, R205). -/
theorem getElem?_samples_cellOf {k : Nat} (hk : k ≤ 8) (c : Color) :
    (samples k)[cellOf k c]? = some (samplePoint k c) := by
  obtain ⟨hcell, hr, hg, hb⟩ := cellOf_eq hk c
  rw [hcell]
  exact getElem?_samples hr hg hb

theorem cellOf_lt {k : Nat} (hk : k ≤ 8) (c : Color) : cellOf k c < 2 ^ (3 * k) := by
  rw [← samples_length]
  exact (List.getElem?_eq_some_iff.mp (getElem?_samples_cellOf hk c)).1

theorem slotFor_of_read? {s : State} {c : Color} {v : BitVec 4} (h : s.cube.read? (cellOf s.latLog2.toNat c) = some v) :
    s.slotFor c = s.slots[v.toNat] := by
  simp [State.slotFor, State.cubeRead, h]

/-- While BUILT = 1 every colour's slot is in use (43_quantizer.md R213). -/
theorem State.MapInv.slotFor_used {s : State} (h : s.MapInv) (hb : s.built = true) (c : Color) :
    ∃ i : Fin 16, i.val < s.used.toNat ∧ s.slotFor c = s.slots[i] := by
  obtain ⟨-, -, -, -, -, -, -, hmax⟩ := h.legal
  obtain ⟨-, hk⟩ := h.builtLattice hb
  obtain ⟨v, hv, hlt⟩ := h.builtCells hb _ (cellOf_lt (hk.trans hmax) c)
  exact ⟨v.toFin, hlt, slotFor_of_read? hv⟩

/-- WITH_ERROR's difference is exact in every channel (43_quantizer.md R210). -/
theorem withError_toInt (s : State) (c : Color) : (s.withError c).2.map BitVec.toInt =
    c.zipWith (fun x y => (x.toNat : Int) - y.toNat) (s.slotFor c).cent :=
  congrArg (Rgb.zipWith · c (s.slotFor c).cent) (funext₂ toInt_error_channel)

/-- Settles O25: the invariant puts the cell's slot among the used ones, whose keys are distinct. -/
theorem withErrorRoundTrip : Obligations.WithErrorRoundTrip := by
  intro s h hb c
  obtain ⟨i, hi, hslot⟩ := h.slotFor_used hb c
  have hkey : s.slots[i].key = s.lookup c := congrArg MapSlot.key hslot.symm
  obtain ⟨her, heg, heb⟩ := Rgb.mk.inj (withError_toInt s c)
  rw [hslot] at her heg heb
  exact ⟨rfl, i, hi, hkey, (h.validIff i).mpr hi, h.countPos i hi,
    fun j hj hj' => h.keysDistinct j i hj hi (hj'.trans hkey.symm), her, heg, heb⟩

/-- Settles O26: QUERY's fields are the error's channels, sign-extended, and those are exact differences. -/
theorem queryAnswersOrFails : Obligations.QueryAnswersOrFails := by
  intro s c
  refine ⟨fun hb => ?_, fun hb => if_pos hb⟩
  obtain ⟨her, heg, heb⟩ := Rgb.mk.inj (withError_toInt s c)
  have hexec : exec (.query c) s = finish s (packQuery (s.withError c).1 (s.withError c).2) :=
    if_neg (ne_false_of_eq_true hb)
  rw [hexec, packQuery, BitVec.signExtend, BitVec.signExtend, BitVec.signExtend, her, heg, heb]
  rfl

/-! ### BUILD -/

/-- The cell of a sample holds the slot of the sample's colour (43_quantizer.md R205). -/
theorem read?_sweep_cell {ask : Color → Color} {cs : List Color} {w : Sweep} (hw : SweepOf ask cs w) (m : Memory 4)
    {idx : Nat} {c : Color} (hc : cs[idx]? = some c) :
    ∃ v, Memory.read? (m.writeRun 0 w.cells.reverse) idx = some v ∧
      (firstSeen (cs.map ask))[v.toNat]? = some (ask c) := by
  obtain ⟨hidx, rfl⟩ := List.getElem?_eq_some_iff.mp hc
  have hmem : ask cs[idx] ∈ firstSeen (cs.map ask) :=
    mem_firstSeen.mpr (List.mem_map_of_mem (List.getElem_mem hidx))
  have hslot := List.idxOf_lt_length_of_mem hmem
  have hsmall : (firstSeen (cs.map ask)).idxOf (ask cs[idx]) < 16 :=
    (hw.usedEq ▸ hslot).trans_le hw.usedLe
  refine ⟨BitVec.ofNat 4 ((firstSeen (cs.map ask)).idxOf (ask cs[idx])), ?_, ?_⟩
  · rw [read?_writeRun, hw.cellsEq, if_pos (by simpa using hidx)]
    simp [hidx]
  · rw [BitVec.toNat_ofNat, Nat.mod_eq_of_lt hsmall, List.getElem?_eq_getElem hslot, List.getElem_idxOf]

/-- BUILD succeeds where the configuration is legal, the port's colours fit the map and every palette colour is among
them (43_quantizer.md R204 to R207). -/
theorem exists_done_build {s : State} (hp : s.params.Legal) (hr : s.Resting) (hk1 : 1 ≤ s.latLog2.toNat)
    (hk2 : s.latLog2.toNat ≤ s.params.latLog2Max) (hcount : s.palcnt.toNat ≤ s.params.palCap)
    (hfit : (buildKeys s.ask s.latLog2.toNat).length ≤ s.params.palCap)
    (hpal : ∀ j : Fin 16, j.val < s.palcnt.toNat → s.pal[j] ∈ buildKeys s.ask s.latLog2.toNat) :
    ∃ u, Done .build s u := by
  obtain ⟨-, -, -, -, -, hcap, -⟩ := hp
  have hw := (sweep_spec s.ask s.params.palCap s.latLog2.toNat).1 (le_min hfit (hfit.trans hcap))
  exact ⟨_, hr, hk1, hk2, hcount, hw.noOverflow, (palettePresent_iff hw s).mpr hpal, rfl⟩

/-- The map and the lattice of a BUILD that succeeded, by the keys it found (43_quantizer.md R203, R205, R206). -/
theorem Done.build_map {s u : State} (hp : s.params.Legal) (h : Done .build s u) :
    u.used.toNat = (buildKeys s.ask s.latLog2.toNat).length ∧
      (∀ i : Fin 16, u.slots[i] = match (buildKeys s.ask s.latLog2.toNat)[i.val]? with
        | some q => paletteEntry s.ask (samples s.latLog2.toNat) q
        | none => MapSlot.empty) ∧
      ∀ idx c, (samples s.latLog2.toNat)[idx]? = some c →
        ∃ v, u.cube.read? idx = some v ∧ (buildKeys s.ask s.latLog2.toNat)[v.toNat]? = some (s.ask c) := by
  obtain ⟨-, -, hk, -, hover, -, rfl⟩ := h
  obtain ⟨-, -, -, -, -, -, -, hmax⟩ := hp
  obtain ⟨-, hw⟩ := sweepOf_of_noOverflow hover
  refine ⟨?_, centroids_spec hw (samples_length_lt (hk.trans hmax)), fun idx c hc => read?_sweep_cell hw s.cube hc⟩
  have hle := hw.usedLe
  exact (Nat.mod_eq_of_lt (by omega)).trans hw.usedEq

/-- Settles O21: BUILD's success with the map and the lattice of `Done.build_map`. -/
theorem buildComputesEntriesAndLattice : Obligations.BuildComputesEntriesAndLattice := by
  intro s hp hr hk1 hk2 hcount hfit hpal
  obtain ⟨u, hu⟩ := exists_done_build hp hr hk1 hk2 hcount hfit hpal
  have hrow : u = { s with built := true, used := u.used, slots := u.slots, cube := u.cube } := by
    obtain ⟨-, -, -, -, -, -, rfl⟩ := hu
    rfl
  exact ⟨u, hu.exec_build, hrow, hu.build_map hp⟩

/-- Settles O24: the cell of the colour holds the slot of its sample point's colour, and the slot has that key. -/
theorem lookupGivesTheSamplesColour : Obligations.LookupGivesTheSamplesColour := by
  intro s t hp h ht c
  obtain ⟨u, hu, rfl⟩ := done_of_exec_build h ht
  obtain ⟨-, hslots, hcells⟩ := hu.build_map hp
  obtain ⟨-, -, hk, -, -, -, hrow⟩ := hu
  obtain ⟨-, -, -, -, -, -, -, hmax⟩ := hp
  obtain ⟨v, hv, hq⟩ := hcells _ _ (getElem?_samples_cellOf (hk.trans hmax) c)
  have hlat : u.latLog2 = s.latLog2 := by rw [hrow]
  have hslot : (u.respond 0).slotFor c = u.slots[v.toFin] := slotFor_of_read? (by rwa [respond_latLog2, hlat])
  have hentry := hslots v.toFin
  simp only [BitVec.val_toFin, hq] at hentry
  rw [State.lookup, hslot, hentry]
  rfl

/-! ### BUILD's failures -/

/-- Settles O22: each failure is one check of BUILD after those before it passed. -/
theorem buildFailsInOrder : Obligations.BuildFailsInOrder := by
  intro s hp
  obtain ⟨-, -, -, -, -, hcap, -⟩ := hp
  refine ⟨fun hidle hdone => if_pos (not_or.mpr ⟨hidle, hdone⟩), fun hr => ?_⟩
  have hrest : ¬ ¬ s.Resting := not_not.mpr hr
  refine ⟨fun hk => (if_neg hrest).trans (if_pos hk), fun hk1 hk2 => ?_⟩
  have hk : ¬ (s.latLog2.toNat < 1 ∨ s.params.latLog2Max < s.latLog2.toNat) := by omega
  refine ⟨fun hcount => ((if_neg hrest).trans (if_neg hk)).trans (if_pos hcount), fun hcount => ?_⟩
  obtain ⟨hfit, hfull⟩ := sweep_spec s.ask s.params.palCap s.latLog2.toNat
  refine ⟨fun hover => ⟨_, (((if_neg hrest).trans (if_neg hk)).trans (if_neg (Nat.not_lt.mpr hcount))).trans
    (if_pos (hfull ((min_le_left _ _).trans_lt hover)))⟩, fun hlen ⟨j, hj, hmiss⟩ => ?_⟩
  have hw := hfit (le_min hlen (hlen.trans hcap))
  have habsent : palettePresent s (sweep s.ask s.params.palCap s.latLog2.toNat) = false :=
    Bool.eq_false_iff.mpr fun h => hmiss ((palettePresent_iff hw s).mp h j hj)
  exact ⟨_, ((((if_neg hrest).trans (if_neg hk)).trans (if_neg (Nat.not_lt.mpr hcount))).trans
    (if_neg (ne_true_of_eq_false hw.noOverflow))).trans (if_pos habsent)⟩

end Sys2Proof.Machine
end

section
/-!
START (44_engine.md R241 to R243): its five checks in their order, the ring it sizes and the kernel it latches.
-/

namespace Sys2Proof.Machine

/-! ### The effective kernel -/

theorem effectiveKernel_of_default {s : State} (hm : s.kmode = false) :
    s.effectiveKernel = [(1, 7), ((s.width.toNat : Int) - 1, 3), ((s.width.toNat : Int), 5),
      ((s.width.toNat : Int) + 1, 1)] :=
  if_pos hm

theorem effectiveKernel_of_custom {s : State} (hm : s.kmode = true) :
    s.effectiveKernel = (s.kernel.toList.take s.kcount.toNat).map fun t => (t.offset.toInt, t.num) :=
  if_neg (ne_false_of_eq_true hm)

/-- The term at a place of the custom kernel is the KERNEL register of that place (44_engine.md R241). -/
theorem getElem?_effectiveKernel_of_custom {s : State} (hm : s.kmode = true) (i : Fin 8) :
    s.effectiveKernel[i.val]? =
      if i.val < s.kcount.toNat then some (s.kernel[i].offset.toInt, s.kernel[i].num) else none := by
  rw [effectiveKernel_of_custom hm, List.getElem?_map, List.getElem?_take]
  split <;> simp

/-- No offset of the Floyd-Steinberg kernel lies outside the window, and of the custom one each that KCOUNT names is
checked (44_engine.md R242). -/
theorem kernelInWindow_iff {s : State} (hw : 1 ≤ s.width.toNat) : s.KernelInWindow ↔ ¬ KernelOutsideWindow s := by
  unfold State.KernelInWindow KernelOutsideWindow
  cases hm : s.kmode with
  | false =>
    rw [effectiveKernel_of_default hm]
    simp
    omega
  | true =>
    refine ⟨fun h ⟨_, i, hi, hne⟩ => hne ?_, fun h t ht => ?_⟩
    · exact h _ (List.mem_of_getElem? ((getElem?_effectiveKernel_of_custom hm i).trans (if_pos hi)))
    · rw [effectiveKernel_of_custom hm, List.mem_map] at ht
      obtain ⟨r, hr, rfl⟩ := ht
      obtain ⟨i, hi, rfl⟩ := List.mem_take_iff_getElem.mp hr
      obtain ⟨hlt, hlen⟩ := lt_min_iff.mp hi
      by_contra hne
      exact h ⟨rfl, ⟨i, by simpa using hlen⟩, hlt, hne⟩

/-! ### The latch -/

theorem getElem_latchKernel (old : Vector KernelTerm 8) (terms : List (Int × BitVec 8)) {i : Nat} (hi : i < 8) :
    (latchKernel old terms)[i] =
      (terms[i]?.map fun t => { off := t.1.toNat, num := t.2 : KernelTerm }).getD old[i] := by
  simp only [latchKernel, Vector.getElem_ofFn]
  cases terms[i]? <;> rfl

theorem latchKernel_default {s : State} (hm : s.kmode = false) :
    LatchedFloydSteinberg (latchKernel s.kact s.effectiveKernel) s.kact s.width.toNat := by
  rw [effectiveKernel_of_default hm]
  refine ⟨getElem_latchKernel _ _ _, (getElem_latchKernel _ _ _).trans ?_, getElem_latchKernel _ _ _,
    getElem_latchKernel _ _ _, fun i hi => ?_⟩
  · simp
  · refine (getElem_latchKernel _ _ i.isLt).trans ?_
    rw [List.getElem?_eq_none hi]
    rfl

theorem latchKernel_custom {s : State} (hm : s.kmode = true) :
    LatchedCustom (latchKernel s.kact s.effectiveKernel) s.kact s.kernel s.kcount.toNat := by
  intro i
  refine (getElem_latchKernel _ _ i.isLt).trans ?_
  rw [getElem?_effectiveKernel_of_custom hm]
  split <;> rfl

/-- A custom kernel that fits the bank is as long as KCOUNT says. -/
theorem ofNat_effectiveKernel_length {s : State} (hm : s.kmode = true) (hk : s.kcount.toNat ≤ 8) :
    BitVec.ofNat 4 s.effectiveKernel.length = s.kcount := by
  rw [effectiveKernel_of_custom hm, List.length_map, List.length_take_of_le (by simpa using hk), BitVec.ofNat_toNat,
    BitVec.setWidth_eq]

/-! ### The checks in their order -/

/-- Where START's five checks pass it sizes the ring and latches the kernel (44_engine.md R243). -/
theorem exec_start_of_checks {s : State} (hr : s.Resting) (hw : s.WidthLegal) (hlong : ¬ KernelTooLong s)
    (hout : ¬ KernelOutsideWindow s) (hb : s.built = true) :
    exec .start s = .next (answered (started s s.sizeRing.ringRam (BitVec.ofNat 4 s.effectiveKernel.length)
      (latchKernel s.kact s.effectiveKernel)) 0) :=
  ((((if_neg (not_not.mpr hr)).trans (if_neg (not_not.mpr hw))).trans (if_neg hlong)).trans
    (if_neg (not_not.mpr ((kernelInWindow_iff hw.1).mpr hout)))).trans (if_neg (ne_false_of_eq_true hb))

/-- Settles O38: each failure is one check of START after those before it passed. -/
theorem startConstructsOrFails : Obligations.StartConstructsOrFails := by
  intro s hp
  obtain ⟨-, -, -, hkmax, -⟩ := hp
  refine ⟨fun hidle hdone => if_pos (not_or.mpr ⟨hidle, hdone⟩), fun hr => ?_⟩
  have hrest : ¬ ¬ s.Resting := not_not.mpr hr
  refine ⟨fun hw => (if_neg hrest).trans (if_pos (show ¬ s.WidthLegal by omega)), fun hlo hhi => ?_⟩
  have hwidth : ¬ ¬ s.WidthLegal := not_not.mpr ⟨hlo, hhi⟩
  have hwindow := kernelInWindow_iff hlo
  refine ⟨fun hlong => ?_, fun hlong hout => ?_, fun hlong hout hb => ?_, fun hb hm => ?_, fun hb hm hlong hout => ?_⟩
  · exact ((if_neg hrest).trans (if_neg hwidth)).trans (if_pos hlong)
  · exact (((if_neg hrest).trans (if_neg hwidth)).trans (if_neg hlong)).trans
      (if_pos fun h => hwindow.mp h hout)
  · exact ((((if_neg hrest).trans (if_neg hwidth)).trans (if_neg hlong)).trans
      (if_neg (not_not.mpr (hwindow.mpr hout)))).trans (if_pos hb)
  · have hlong : ¬ KernelTooLong s := fun h => ne_true_of_eq_false hm h.1
    have hout : ¬ KernelOutsideWindow s := fun h => ne_true_of_eq_false hm h.1
    have hexec := exec_start_of_checks hr ⟨hlo, hhi⟩ hlong hout hb
    have hlen : s.effectiveKernel.length = 4 := by rw [effectiveKernel_of_default hm]; rfl
    rw [hlen] at hexec
    exact ⟨_, _, hexec, sizeRing_filledWith s, latchKernel_default hm⟩
  · have hexec := exec_start_of_checks hr ⟨hlo, hhi⟩ hlong hout hb
    have hcount : s.kcount.toNat ≤ s.params.kmax := Nat.not_lt.mp fun h => hlong ⟨hm, h⟩
    rw [ofNat_effectiveKernel_length hm (hcount.trans hkmax)] at hexec
    exact ⟨_, _, hexec, sizeRing_filledWith s, latchKernel_custom hm⟩

end Sys2Proof.Machine
end

section
/-!
PIXEL (44_engine.md R244 to R247): one slot write in FILLING, one STEP in STREAMING, and what a STEP with the
Floyd-Steinberg kernel leaves at each logical offset.
-/

namespace Sys2Proof.Machine

/-! ### PIXEL -/

/-- Outside a running image PIXEL and END fail with ILLEGAL_STATE (44_engine.md R240). -/
theorem exec_engine_of_resting {i : Instr} {s : State} (hi : (∃ x, i = .pixel x) ∨ i = .endImage)
    (hr : s.mode = .idle ∨ s.mode = .done) : exec i s = .next (failedWith s 7) := by
  obtain ⟨x, rfl⟩ | rfl := hi <;> obtain hm | hm := hr
  · simp only [exec, execPixel, hm]; rfl
  · simp only [exec, execPixel, hm]; rfl
  · simp only [exec, execEndImage, hm]; rfl
  · simp only [exec, execEndImage, hm]; rfl

/-- Settles O39: PIXEL in FILLING is one slot write and the count of it. -/
theorem pixelPrimesTheRing : Obligations.PixelPrimesTheRing :=
  fun s x => ⟨fun hm => ⟨_, exec_pixel_of_filling hm x, ringWrite_loadedWith s s.fill.toNat x⟩,
    exec_engine_of_resting (.inl ⟨x, rfl⟩)⟩

/-- Settles O40: PIXEL in STREAMING is one STEP, and STEP on a wholly written ring is `ringStep`. -/
theorem pixelStepsTheEngine : Obligations.PixelStepsTheEngine := by
  intro s x f hm hf hc
  obtain ⟨hstep, hring⟩ := stepPixel_of_ringIs (s := { s with inCount := s.inCount + 1 }) hf hc x
  have hexec := exec_pixel_of_streaming hm x
  rw [hstep] at hexec
  exact ⟨_, hexec, fun j hj => hring j (by rwa [stepPixel_ringN])⟩

/-! ### The Floyd-Steinberg neighbours -/

section
variable {s t : State} {x : Color} {f : Nat → Acc} (hm : s.mode = .streaming) (hf : s.RingIs f)
  (hc : s.cursor.toNat ≤ s.ringN.toNat) (hw : ∀ t ∈ s.activeTerms, t.off ≤ s.ringLen)
  (h : exec (.pixel x) s = .next t)
include hm hf hc hw h

/-- After a PIXEL in STREAMING with every term in the window, the slot at logical offset `d` from 1 to N + 1 holds the
pixel that the push left there with the terms `ts` of that offset added (44_engine.md R246, R247). -/
theorem exec_pixel_holds_phys {d : Nat} (hlo : 1 ≤ d) (hhi : d ≤ s.ringLen) {ts : List KernelTerm}
    (hts : (s.activeTerms.filter fun t => decide (t.off = d)) = ts) :
    t.SlotHolds (s.phys d) (ts.foldl
      (fun a t => accAdd a (term (s.withError (narrow (f s.cursor.toNat))).2 t.num))
      (putSlot f s.cursor.toNat (accFrom x) (s.phys d))) := by
  obtain ⟨m, hexec, hram⟩ := pixelStepsTheEngine s x f hm hf hc
  cases hexec.symm.trans h
  obtain ⟨k, rfl⟩ := Nat.exists_eq_add_of_le' hlo
  have hslot := hram _ (phys_le s (k + 1))
  rwa [State.phys, ringStep_content hw x _ hhi, hts] at hslot

/-- A waiting pixel gains the terms of its offset and stays where it is. -/
theorem exec_pixel_holds_waiting {d : Nat} (hlo : 1 ≤ d) (hhi : d ≤ s.ringN.toNat) {ts : List KernelTerm}
    (hts : (s.activeTerms.filter fun t => decide (t.off = d)) = ts) :
    t.SlotHolds (s.phys d) (ts.foldl
      (fun a t => accAdd a (term (s.withError (narrow (f s.cursor.toNat))).2 t.num)) (f (s.phys d))) := by
  have hslot := exec_pixel_holds_phys hm hf hc hw h hlo (hhi.trans (Nat.le_succ _)) hts
  obtain ⟨k, rfl⟩ := Nat.exists_eq_add_of_le' hlo
  rwa [putSlot, if_neg (phys_succ_ne_cursor hc hhi)] at hslot

/-- The pixel just pushed stands in the old head's slot, where the terms of offset N + 1 reach it. -/
theorem exec_pixel_holds_pushed {ts : List KernelTerm}
    (hts : (s.activeTerms.filter fun t => decide (t.off = s.ringN.toNat + 1)) = ts) :
    t.SlotHolds s.cursor.toNat (ts.foldl
      (fun a t => accAdd a (term (s.withError (narrow (f s.cursor.toNat))).2 t.num)) (accFrom x)) := by
  have hslot := exec_pixel_holds_phys hm hf hc hw h (Nat.succ_pos _) le_rfl hts
  rwa [phys_ringLen hc, putSlot, if_pos rfl] at hslot

end

/-- The Floyd-Steinberg terms of one offset, where no two of the four offsets are equal (44_engine.md R241). -/
theorem filter_floydSteinberg {n : Nat} (hn : 3 ≤ n) (d : Nat) :
    (([⟨1, 7⟩, ⟨n - 1, 3⟩, ⟨n, 5⟩, ⟨n + 1, 1⟩] : List KernelTerm).filter fun t => decide (t.off = d)) =
      if d = 1 then [⟨1, 7⟩] else if d = n - 1 then [⟨n - 1, 3⟩] else if d = n then [⟨n, 5⟩]
      else if d = n + 1 then [⟨n + 1, 1⟩] else [] := by
  simp only [List.filter_cons, List.filter_nil, decide_eq_true_eq]
  grind

/-- Settles O41: where N is at least 3 no two of the four offsets are equal, so each neighbour gains one term. -/
theorem floydSteinbergNeighbours : Obligations.FloydSteinbergNeighbours := by
  intro s x f hm hf hc hN hterms
  have hw : ∀ t ∈ s.activeTerms, t.off ≤ s.ringLen := by
    rw [hterms]
    simp [State.ringLen]
    omega
  have hts := filter_floydSteinberg hN
  rw [← hterms] at hts
  have hexec := exec_pixel_of_streaming hm x
  have waiting := @exec_pixel_holds_waiting _ _ _ _ hm hf hc hw hexec
  refine ⟨_, hexec, ?_, ?_, ?_, ?_, fun d hlo hhi => ?_⟩
  · refine waiting (d := 1) (ts := [⟨1, 7⟩]) le_rfl (by omega) ?_
    rw [hts, if_pos rfl]
  · refine waiting (d := s.ringN.toNat - 1) (ts := [⟨s.ringN.toNat - 1, 3⟩]) (by omega) (Nat.sub_le _ _) ?_
    rw [hts, if_neg (by omega), if_pos rfl]
  · refine waiting (d := s.ringN.toNat) (ts := [⟨s.ringN.toNat, 5⟩]) (by omega) le_rfl ?_
    rw [hts, if_neg (by omega), if_neg (by omega), if_pos rfl]
  · refine exec_pixel_holds_pushed (ts := [⟨s.ringN.toNat + 1, 1⟩]) hm hf hc hw hexec ?_
    rw [hts, if_neg (by omega), if_neg (by omega), if_neg (by omega), if_pos rfl]
  · refine waiting (d := d) (ts := []) (by omega) (by omega) ?_
    rw [hts, if_neg (by omega), if_neg (by omega), if_neg (by omega), if_neg (by omega)]

end Sys2Proof.Machine
end

section
/-!
END (44_engine.md R248, R249): one drain of the pixels held, from either mode of a running image; and that neither PIXEL
nor END can fail while an image runs (R252).
-/

namespace Sys2Proof.Machine

/-! ### END -/

/-- How many pixels a running image holds: FILL of them in FILLING, N + 1 in STREAMING (44_engine.md R248). -/
def State.held (s : State) : Nat :=
  if s.mode = .filling then s.fill.toNat else s.ringLen

/-- SHORT_PRIME set where the image ends in FILLING (44_engine.md R248). -/
def State.markShort (s : State) : State :=
  { s with shortPrime := if s.mode = .filling then true else s.shortPrime }

/-- END of a running image succeeds and drains the pixels held: as an equation and as a `Done`. -/
theorem exec_endImage_of_running {s : State} (hm : s.mode = .filling ∨ s.mode = .streaming) :
    exec .endImage s = .next ((drain s.held s.markShort).respond 0) ∧ Done .endImage s (drain s.held s.markShort) := by
  obtain hm | hm := hm
  · have hheld : s.held = s.fill.toNat := if_pos hm
    have hmark : s.markShort = { s with shortPrime := true } := by rw [State.markShort, if_pos hm]
    rw [hheld, hmark]
    exact ⟨exec_endImage_of_filling hm, .inl ⟨hm, rfl⟩⟩
  · have hne : s.mode ≠ .filling := by rw [hm]; nofun
    have hheld : s.held = s.ringLen := if_neg hne
    have hmark : s.markShort = s := by rw [State.markShort, if_neg hne]
    rw [hheld, hmark]
    exact ⟨exec_endImage_of_streaming hm, .inr ⟨hm, rfl⟩⟩

theorem State.Shows.markShort {s : State} {v : RingView} (h : s.Shows v) : s.markShort.Shows v :=
  { h with }

@[simp] theorem drain_ringN (n : Nat) (s : State) : (drain n s).ringN = s.ringN := by
  obtain ⟨ps, -, hps⟩ := drain_frame n s
  rw [hps]

/-- Steps on a wholly written ring read only what was written. -/
theorem stepTimes_draws {s : State} {v : RingView} (h : s.Shows v) (x : Color) (n : Nat) :
    (stepTimes x n s).draws = s.draws := by
  induction n generalizing s v with
  | zero => rfl
  | succ n ih =>
    have hc : s.cursor.toNat ≤ s.ringN.toNat := h.cursor ▸ Nat.le_of_lt_succ h.cursorLt
    obtain ⟨hstep, -⟩ := stepPixel_of_ringIs h.ring hc x
    rw [stepTimes, ih (h.stepPixel x), hstep]

/-- END's drain on a wholly written ring in full, the ring RAM apart: CURSOR and OUT of as many `ringStep`s. -/
theorem drain_of_shows {s : State} {v : RingView} (h : s.Shows v) (n : Nat) :
    drain n s =
      { s with
        mode := .done
        ringRam := (drain n s).ringRam
        cursor := BitVec.ofNat 16 ((ringStep s s.defaultColor)^[n] v).cursor
        out := ((ringStep s s.defaultColor)^[n] v).emitted
        outCount := s.outCount + BitVec.ofNat 32 n } := by
  have hshows := h.drain n
  have hcursor : (drain n s).cursor = BitVec.ofNat 16 ((ringStep s s.defaultColor)^[n] v).cursor := by
    rw [← hshows.cursor, BitVec.ofNat_toNat, BitVec.setWidth_eq]
  have hdraws : (drain n s).draws = s.draws :=
    stepTimes_draws (s := { s with mode := .draining }) { h with } s.defaultColor n
  obtain ⟨ps, -, hps⟩ := drain_frame n s
  rw [← hcursor, ← hshows.out, ← hdraws]
  rw [hps]

/-- Settles O42: END is one drain, and on a wholly written ring the drain is `ringStep`s with DEFAULT. -/
theorem endDrainsTheRing : Obligations.EndDrainsTheRing := by
  refine fun s => ⟨fun f n hf hc hn => ?_, exec_engine_of_resting (.inr rfl)⟩
  have hheld : n = s.held := by
    obtain ⟨hm, rfl⟩ | ⟨hm, rfl⟩ := hn
    · exact (if_pos hm).symm
    · exact (if_neg (by rw [hm]; nofun)).symm
  subst hheld
  have hshows : s.Shows ⟨f, s.cursor.toNat, s.out⟩ := ⟨hf, rfl, Nat.lt_succ_of_le hc, rfl⟩
  obtain ⟨hexec, -⟩ := exec_endImage_of_running (hn.imp And.left And.left)
  rw [drain_of_shows hshows.markShort] at hexec
  exact ⟨_, hexec, fun j hj => (hshows.markShort.drain s.held).ring j (by rwa [drain_ringN])⟩

/-- Settles O43: END keeps the running image's invariant, which balances the counters in DONE. -/
theorem endBalancesTheCounters : Obligations.EndBalancesTheCounters := by
  intro s hrun hm
  obtain ⟨hexec, hdone⟩ := exec_endImage_of_running hm
  obtain ⟨ps, hlen, hps⟩ := drain_frame s.held s.markShort
  have hbalanced := (hdone.keepsRunInv hrun).done rfl
  have hin : (drain s.held s.markShort).inCount = s.inCount := by rw [hps]; rfl
  have hout : (drain s.held s.markShort).out = s.out ++ ps := by rw [hps]; rfl
  exact ⟨_, ps, hexec, rfl, hbalanced.symm, hin, hout, hlen⟩

/-! ### No failure while an image runs -/

/-- PIXEL and END have no check but that of MODE. -/
theorem exec_engine_of_running {i : Instr} {s : State} (hi : (∃ x, i = .pixel x) ∨ i = .endImage)
    (hm : s.mode = .filling ∨ s.mode = .streaming) : ∃ u, Done i s u ∧ exec i s = .next (u.respond 0) := by
  obtain ⟨x, rfl⟩ | rfl := hi
  · obtain hm | hm := hm
    · exact ⟨_, .inl ⟨hm, rfl⟩, exec_pixel_of_filling hm x⟩
    · exact ⟨_, .inr ⟨hm, rfl⟩, exec_pixel_of_streaming hm x⟩
  · obtain ⟨hexec, hdone⟩ := exec_endImage_of_running hm
    exact ⟨_, hdone, hexec⟩

/-- Settles O44: PIXEL and END succeed and keep ERR; that no command writes BUILT is part of O49. -/
theorem runningImageNeverFails : Obligations.RunningImageNeverFails := by
  intro s x hm
  obtain ⟨u, hpixel, hu⟩ := exec_engine_of_running (.inl ⟨x, rfl⟩) hm
  obtain ⟨v, hend, hv⟩ := exec_engine_of_running (.inr rfl) hm
  refine ⟨⟨_, hu, rfl, hpixel.err_eq nofun⟩, ⟨_, hv, rfl, hend.err_eq nofun⟩, fun i t h => ?_⟩
  obtain ⟨-, -, -, -, -, -, -, -, -, -, -, hbuilt, -⟩ := configurationFrozenWhileRunning i s t hm h
  exact hbuilt

end Sys2Proof.Machine
end

section
/-!
MODE (44_engine.md R240): the listed transitions, and no others.
-/

namespace Sys2Proof.Machine

/-! ### MODE -/

@[simp] theorem stepPixel_mode (x : Color) (s : State) : (stepPixel x s).mode = s.mode := by
  obtain ⟨p, hp⟩ := stepPixel_frame x s
  rw [hp]

theorem primePixel_mode (x : Color) (s : State) :
    (primePixel x s).mode = if s.fill.toNat + 1 = s.ringN.toNat + 1 then .streaming else .filling := rfl

/-- START, PIXEL, END and ABORT apart, no command's row of 10_state.md R44 has MODE. -/
theorem WritesOnlyItsRow.mode_eq {i : Instr} {s t : State} (h : WritesOnlyItsRow i s t) (hs : i ≠ .start)
    (hp : ∀ x, i ≠ .pixel x) (he : i ≠ .endImage) (ha : i ≠ .abort) : t.mode = s.mode := by
  cases i with
  | start => exact absurd rfl hs
  | pixel x => exact absurd rfl (hp x)
  | endImage => exact absurd rfl he
  | abort => exact absurd rfl ha
  | nop | rdReg | errClear | build | query | ringRd =>
    have row : t = _ := h
    rw [row]
  | wrReg | ringReset | ringLd | ringWrc | ringPush =>
    obtain ⟨row, -⟩ := h
    rw [row]

/-- A success that changes MODE is one of the transitions of 44_engine.md R240. -/
theorem Done.mode_change {i : Instr} {s u : State} (h : Done i s u) (hne : u.mode ≠ s.mode) :
    (i = .start ∧ (s.mode = .idle ∨ s.mode = .done) ∧ u.mode = .filling) ∨
      ((∃ x, i = .pixel x) ∧ s.mode = .filling ∧ u.mode = .streaming ∧ s.fill.toNat + 1 = s.ringN.toNat + 1) ∨
      (i = .endImage ∧ (s.mode = .filling ∨ s.mode = .streaming) ∧ u.mode = .done) ∨
      (i = .abort ∧ u.mode = .idle) := by
  cases i with
  | start =>
    obtain ⟨hr, -, -, -, -, rfl⟩ := h
    exact .inl ⟨rfl, hr, rfl⟩
  | pixel x =>
    obtain ⟨hm, rfl⟩ | ⟨-, rfl⟩ := h
    · by_cases hfull : s.fill.toNat + 1 = s.ringN.toNat + 1
      · exact .inr (.inl ⟨⟨x, rfl⟩, hm, if_pos hfull, hfull⟩)
      · exact absurd ((if_neg hfull).trans hm.symm) hne
    · exact absurd (stepPixel_mode x _) hne
  | endImage =>
    obtain ⟨hm, rfl⟩ | ⟨hm, rfl⟩ := h
    · exact .inr (.inr (.inl ⟨rfl, .inl hm, rfl⟩))
    · exact .inr (.inr (.inl ⟨rfl, .inr hm, rfl⟩))
  | abort =>
    cases h
    exact .inr (.inr (.inr ⟨rfl, rfl⟩))
  | nop | wrReg | rdReg | errClear | build | query | ringReset | ringRd | ringLd | ringWrc | ringPush =>
    exact absurd (h.writesOnlyItsRow.mode_eq nofun nofun nofun nofun) hne

/-- Settles O46: a failure keeps MODE and a success changes it as `Done.mode_change` lists; each transition where it
succeeds, and each failure of MODE's check, from the command's own equation. -/
theorem modeChangesOnlyAsListed : Obligations.ModeChangesOnlyAsListed := by
  intro i s t h
  refine ⟨fun hne => ?_, ?_, ?_, ?_, ?_, ?_, fun hi hm => ?_, fun rest => ⟨_, rfl, rfl⟩⟩
  · obtain ⟨code, -, -, he⟩ | ⟨code, u, -, ⟨-, -, vs, -, rfl⟩, he⟩ | ⟨u, d, hd, he⟩ := exec_cases i s <;>
      cases he.symm.trans h
    · exact absurd rfl hne
    · exact absurd rfl hne
    · exact hd.mode_change hne
  · rintro rfl
    cases h
    rfl
  · rintro rfl hm
    obtain ⟨hexec, -⟩ := exec_endImage_of_running hm
    cases hexec.symm.trans h
    rfl
  · rintro ⟨x, rfl⟩ hm hfull
    cases (exec_pixel_of_filling hm x).symm.trans h
    exact if_pos hfull
  · rintro rfl - hok
    obtain ⟨code, -, -, he⟩ | ⟨code, u, hi, -, -⟩ | ⟨u, d, ⟨-, -, -, -, -, rfl⟩, he⟩ := exec_cases .start s
    · cases he.symm.trans h
      exact absurd hok (raise_response_ne _ _ _)
    · cases hi
    · cases he.symm.trans h
      rfl
  · rintro rfl hm
    have hfail : exec .start s = .next (failedWith s 7) := if_pos (not_resting_of_running (hm.imp_right .inl))
    cases hfail.symm.trans h
    rfl
  · cases (exec_engine_of_resting hi hm).symm.trans h
    rfl

end Sys2Proof.Machine
end

section
/-!
What the emitted colours depend on (44_engine.md R253): two states that show one view, each after its own colours, are
taken to one view by the same PIXEL or END.
-/

namespace Sys2Proof.Machine

/-! ### A command of a running image on a view -/

/-- The view with the colours `out` emitted before it. -/
def RingView.after (out : List Color) (v : RingView) : RingView :=
  { v with emitted := out ++ v.emitted }

/-- What was emitted before does not matter to a STEP. -/
theorem ringStep_after (s : State) (x : Color) (out : List Color) (v : RingView) :
    ringStep s x (v.after out) = (ringStep s x v).after out :=
  congrArg (RingView.mk _ _) (List.append_assoc _ _ _)

theorem iterate_ringStep_after (s : State) (x : Color) (n : Nat) (out : List Color) (v : RingView) :
    (ringStep s x)^[n] (v.after out) = ((ringStep s x)^[n] v).after out :=
  (Function.Semiconj.iterate_right (f := RingView.after out) (fun w => (ringStep_after s x out w).symm) n v).symm

theorem State.Shows.respond {s : State} {v : RingView} (h : s.Shows v) (d : BitVec 64) : (s.respond d).Shows v :=
  ⟨h.ring, h.cursor, h.cursorLt, h.out⟩

theorem State.Shows.primePixel {s : State} {v : RingView} (h : s.Shows v) (x : Color) :
    (primePixel x s).Shows { v with content := putSlot v.content s.fill.toNat (accFrom x) } :=
  ⟨ringIs_ringWrite h.ring _ _, h.cursor, h.cursorLt, h.out⟩

theorem State.Shows.streamPixel {s : State} {v : RingView} (h : s.Shows v) (x : Color) :
    (Machine.stepPixel x { s with inCount := s.inCount + 1 }).Shows (ringStep s x v) :=
  State.Shows.stepPixel (s := { s with inCount := s.inCount + 1 }) { h with } x

theorem State.Shows.endImage {s : State} {v : RingView} (h : s.Shows v) :
    (Machine.drain s.held s.markShort).Shows ((ringStep s s.defaultColor)^[s.held] v) :=
  h.markShort.drain s.held

@[simp] theorem stepPixel_fill (x : Color) (s : State) : (stepPixel x s).fill = s.fill := by
  obtain ⟨p, hp⟩ := stepPixel_frame x s
  rw [hp]

@[simp] theorem drain_fill (n : Nat) (s : State) : (drain n s).fill = s.fill := by
  obtain ⟨ps, -, hps⟩ := drain_frame n s
  rw [hps]

/-- What the engine reads of the configuration. -/
theorem SameConfiguration.engine {s t : State} (h : SameConfiguration s t) :
    t.ringN = s.ringN ∧ t.activeTerms = s.activeTerms ∧ t.defaultColor = s.defaultColor ∧
      ∀ c, t.withError c = s.withError c := by
  obtain ⟨-, hlat, hdefault, -, -, -, -, -, hN, hlen, hkact, -, -, hslots, hcube⟩ := h
  refine ⟨hN, ?_, hdefault, fun c => ?_⟩
  · simp only [State.activeTerms, hlen, hkact]
  · simp only [State.withError, State.slotFor, State.cubeRead, hlat, hslots, hcube]

/-! ### Two states that agree -/

section
variable {s u : State} {f : Nat → Acc}

/-- Two states that agree show one view, each after its own colours. -/
theorem SameEngine.shows (h : SameEngine s u f) :
    s.Shows (RingView.after s.out ⟨f, s.cursor.toNat, []⟩) ∧ u.Shows (RingView.after u.out ⟨f, s.cursor.toNat, []⟩) := by
  obtain ⟨-, hs, hu, hN, hcursor, -, hc, -⟩ := h
  have hlt : s.cursor.toNat < s.ringLen := Nat.lt_succ_of_le hc
  have hlt' : s.cursor.toNat < u.ringLen := by rwa [State.ringLen, ← hN]
  exact ⟨⟨hs, rfl, hlt, (List.append_nil _).symm⟩,
    ⟨hu, congrArg BitVec.toNat hcursor.symm, hlt', (List.append_nil _).symm⟩⟩

theorem SameEngine.ringStep_eq (h : SameEngine s u f) : ringStep s = ringStep u := by
  obtain ⟨-, -, -, hN, -, -, -, hterms, -, hq⟩ := h
  funext x v
  simp only [ringStep, State.ringLen, hN, hterms, hq]

theorem SameEngine.held_eq (h : SameEngine s u f) : s.held = u.held := by
  obtain ⟨hm, -, -, hN, -, hfill, -⟩ := h
  simp only [State.held, State.ringLen, hm, hN, hfill]

/-- Two states that agree, after a command that took both to the view `w`: while an image runs no command changes the
quantiser, the kernel or DEFAULT (20_memory.md R94), so they agree again. -/
theorem SameEngine.again (h : SameEngine s u f) {i : Instr} {t v : State}
    (hm : s.mode = .filling ∨ s.mode = .streaming) (hs : exec i s = .next t) (hu : exec i u = .next v)
    (hmode : t.mode = v.mode) (hfill : t.fill = v.fill) {w : RingView} (ht : t.Shows (w.after s.out))
    (hv : v.Shows (w.after u.out)) :
    ∃ (t v : State) (f' : Nat → Acc) (ps : List Color), exec i s = .next t ∧ exec i u = .next v ∧
      t.out = s.out ++ ps ∧ v.out = u.out ++ ps ∧ SameEngine t v f' := by
  obtain ⟨hmode₀, -, -, hN₀, -, -, -, hterms₀, hdefault₀, hq₀⟩ := h
  obtain ⟨hN, hterms, hdefault, hq⟩ := SameConfiguration.engine (configurationFrozenWhileRunning i s t hm hs)
  obtain ⟨hN', hterms', hdefault', hq'⟩ :=
    SameConfiguration.engine (configurationFrozenWhileRunning i u v (hmode₀ ▸ hm) hu)
  have hcursor : t.cursor = v.cursor := BitVec.eq_of_toNat_eq (ht.cursor.trans hv.cursor.symm)
  have hle : t.cursor.toNat ≤ t.ringN.toNat := ht.cursor ▸ Nat.le_of_lt_succ ht.cursorLt
  exact ⟨t, v, w.content, w.emitted, hs, hu, ht.out, hv.out, hmode, ht.ring, hv.ring, hN.trans (hN₀.trans hN'.symm),
    hcursor, hfill, hle, hterms.trans (hterms₀.trans hterms'.symm), hdefault.trans (hdefault₀.trans hdefault'.symm),
    fun c => (hq c).trans ((hq₀ c).trans (hq' c).symm)⟩

end

/-- Settles O45: each command takes both states to one view, since they run the same STEPs on the same ring. -/
theorem emissionDependsOnlyOnTheEngine : Obligations.EmissionDependsOnlyOnTheEngine := by
  intro i s u f h hm hi
  obtain ⟨hmode, -, -, hN, -, hfill, -, -, hdefault, -⟩ := id h
  obtain ⟨hs, hu⟩ := h.shows
  obtain ⟨x, rfl⟩ | rfl := hi
  · obtain hf | hf := hm
    · have hnext := hu.primePixel x
      rw [← hfill] at hnext
      refine h.again (.inl hf) (exec_pixel_of_filling hf x) (exec_pixel_of_filling (hmode ▸ hf) x) ?_
        (congrArg (· + 1) hfill) (w := ⟨putSlot f s.fill.toNat (accFrom x), s.cursor.toNat, []⟩)
        ((hs.primePixel x).respond 0) (hnext.respond 0)
      simp only [respond_mode, primePixel_mode, hfill, hN]
    · refine h.again (.inr hf) (exec_pixel_of_streaming hf x) (exec_pixel_of_streaming (hmode ▸ hf) x)
        (by simpa using hmode) (by simpa using hfill) (w := ringStep s x ⟨f, s.cursor.toNat, []⟩) ?_ ?_
      · rw [← ringStep_after]
        exact (hs.streamPixel x).respond 0
      · rw [← ringStep_after, h.ringStep_eq]
        exact (hu.streamPixel x).respond 0
  · obtain ⟨hexec, -⟩ := exec_endImage_of_running hm
    obtain ⟨hexec', -⟩ := exec_endImage_of_running (s := u) (hmode ▸ hm)
    refine h.again hm hexec hexec' rfl (by simpa [State.markShort] using hfill)
      (w := (ringStep s s.defaultColor)^[s.held] ⟨f, s.cursor.toNat, []⟩) ?_ ?_
    · rw [← iterate_ringStep_after]
      exact hs.endImage.respond 0
    · rw [← iterate_ringStep_after, h.ringStep_eq, h.held_eq, hdefault]
      exact hu.endImage.respond 0

end Sys2Proof.Machine
end

section
/-!
The control commands (45_control.md R280 to R284): NOP, ERR_CLEAR and ABORT, which never fail, then WR_REG and RD_REG by
the register at their address.
-/

namespace Sys2Proof.Machine

/-! ### NOP, ERR_CLEAR and ABORT -/

/-- Settles O16: none of the three has a check, so each answer is its definition's. -/
theorem nopErrClearAbort : Obligations.NopErrClearAbort :=
  fun _ => ⟨rfl, rfl, rfl⟩

/-! ### The addresses of the register map -/

/-- The registers of 10_state.md R50, as the cases of a statement about some register. -/
theorem exists_reg {P : Reg → Prop} :
    (∃ r, P r) ↔
      P .caps ∨ P .status ∨ P .width ∨ P .lat ∨ P .defaultColor ∨ P .kctrl ∨ P .palcnt ∨ P .inCount ∨ P .outCount ∨
        P .ringInfo ∨ P .mapUsed ∨ (∃ i, P (.kernel i)) ∨ (∃ i, P (.pal i)) ∨ (∃ i, P (.key i)) ∨ (∃ i, P (.cent i)) ∨
        ∃ i, P (.count i) := by
  constructor
  · rintro ⟨r, h⟩
    cases r <;> grind
  · grind

/-- `regAt_eq_some`, with the address as a word. -/
theorem regAt_eq_some_iff {p : Params} {a : BitVec 16} {r : Reg} :
    regAt p a = some r ↔ r.present p ∧ a = BitVec.ofNat 16 r.address := by
  have hlt : r.address < 2 ^ 16 := by
    cases r <;> simp only [Reg.address] <;> omega
  rw [regAt_eq_some, and_comm, BitVec.toNat_eq, BitVec.toNat_ofNat, Nat.mod_eq_of_lt hlt]

/-- A bank of `limit` registers takes up `limit` addresses from `base`. -/
theorem exists_bank_iff {base size limit n : Nat} (h : limit ≤ size) :
    (∃ i : Fin size, n = base + i.val ∧ i.val < limit) ↔ base ≤ n ∧ n < base + limit := by
  constructor
  · rintro ⟨i, rfl, hi⟩
    omega
  · rintro ⟨hlo, hhi⟩
    exact ⟨⟨n - base, by omega⟩, (Nat.add_sub_cancel' hlo).symm, Nat.sub_lt_left_of_lt_add hlo hhi⟩

/-- The addresses that name a register are the read-write and the read-only ones (10_state.md R50). -/
theorem exists_regAt_iff {p : Params} (hp : p.Legal) {a : BitVec 16} :
    (∃ r, regAt p a = some r) ↔ IsReadWrite p a.toNat ∨ IsReadOnly p a.toNat := by
  obtain ⟨-, -, -, hkmax, -, hcap, -⟩ := hp
  simp only [regAt_eq_some, exists_reg, Reg.address, Reg.present, and_true, exists_bank_iff hkmax, exists_bank_iff hcap]
  unfold IsReadWrite IsReadOnly
  omega

/-! ### WR_REG -/

/-- A data word's colour field as its three bytes (10_state.md R55, R63). -/
theorem colorOf_extract_low (d : BitVec 32) :
    colorOf (d.extractLsb' 0 24) = ⟨d.extractLsb' 16 8, d.extractLsb' 8 8, d.extractLsb' 0 8⟩ := by
  simp [colorOf]

/-- R281's table, row by row, is the model's store, with R67's INVALIDATE_BUILD for the registers that have it. -/
theorem StoredAs.eq_storeReg {s t : State} {a : BitVec 16} {d : BitVec 32} (h : StoredAs s a d t) :
    ∃ r, regAt s.params a = some r ∧ r.writable = true ∧
      t = if r.invalidates then (storeReg s r d).invalidateBuild else storeReg s r d := by
  unfold StoredAs at h
  rw [← colorOf_extract_low] at h
  simp only [regAt_eq_some_iff]
  obtain ⟨ha, rfl⟩ | ⟨ha, rfl⟩ | ⟨ha, rfl⟩ | ⟨ha, rfl⟩ | ⟨ha, rfl⟩ | ⟨i, hi, ha, rfl⟩ | ⟨i, hi, ha, rfl⟩ := h
  · exact ⟨.width, ⟨trivial, ha⟩, rfl, rfl⟩
  · exact ⟨.lat, ⟨trivial, ha⟩, rfl, rfl⟩
  · exact ⟨.defaultColor, ⟨trivial, ha⟩, rfl, rfl⟩
  · exact ⟨.kctrl, ⟨trivial, ha⟩, rfl, rfl⟩
  · exact ⟨.palcnt, ⟨trivial, ha⟩, rfl, rfl⟩
  · exact ⟨.kernel i, ⟨hi, ha⟩, rfl, rfl⟩
  · exact ⟨.pal i, ⟨hi, ha⟩, rfl, rfl⟩

/-- The address is checked first, in every MODE (60_exceptions.md R314). -/
theorem exec_wrReg_of_not_writable {s : State} {a : BitVec 16}
    (h : ∀ r, regAt s.params a = some r → r.writable = false) (d : BitVec 32) :
    exec (.wrReg a d) s = .next (failedWith s 10) := by
  simp only [exec, execWrReg]
  split
  case h_1 => rfl
  case h_2 r hr => exact if_pos (h r hr)

theorem exec_wrReg_of_not_resting {s : State} {a : BitVec 16} {r : Reg} (hr : regAt s.params a = some r)
    (hw : r.writable = true) (hs : ¬ s.Resting) (d : BitVec 32) :
    exec (.wrReg a d) s = .next (failedWith s 7) := by
  simp only [exec, execWrReg, hr]
  exact (if_neg (by simp [hw])).trans (if_pos hs)

/-- Settles O17: the register at the address decides, and an address that names a register without being read-write is
read-only. -/
theorem wrRegStoresOrFails : Obligations.WrRegStoresOrFails := by
  refine fun s hp => ⟨fun a d t hs h => ?_, fun a d h => ?_, fun a d h hidle hdone => ?_⟩
  · obtain ⟨r, hr, hw, rfl⟩ := h.eq_storeReg
    exact exec_wrReg_of_writable hr hw hs d
  · refine exec_wrReg_of_not_writable (fun r hr => ?_) d
    have hro : IsReadOnly s.params a.toNat := ((exists_regAt_iff hp).mp ⟨r, hr⟩).resolve_left h
    exact not_writable_of_isReadOnly hro hr
  · obtain ⟨r, hr, hw⟩ := regAt_of_isReadWrite hp h
    exact exec_wrReg_of_not_resting hr hw (not_or.mpr ⟨hidle, hdone⟩) d

/-! ### RD_REG -/

/-- A packed colour below a byte, as the register map writes it (10_state.md R55, R63 to R65). -/
theorem append_packColor (x : BitVec 8) (c : Color) : x ++ packColor c = x ++ c.r ++ c.g ++ c.b :=
  (BitVec.append_assoc' (x₁ := x) (x₂ := c.r ++ c.g)).trans (congrArg (· ++ c.b) BitVec.append_assoc')

/-- The clauses of R51 to R66, register by register, are what the model reads. -/
theorem shownAt_iff {s : State} {a : BitVec 16} {v : BitVec 32} :
    ShownAt s a v ↔ ∃ r, regAt s.params a = some r ∧ v = readReg s r := by
  simp only [regAt_eq_some_iff, exists_reg, Reg.present, Reg.address, true_and, and_assoc, readReg, append_packColor,
    append_packColor (1#1 ++ 0#7)]
  exact Iff.rfl

theorem exec_rdReg_of_regAt {s : State} {a : BitVec 16} {r : Reg} (hr : regAt s.params a = some r) :
    exec (.rdReg a) s = .next (answered s (0#32 ++ readReg s r)) := by
  simp only [exec, execRdReg, hr]
  rfl

theorem exec_rdReg_of_reserved {s : State} {a : BitVec 16} (hr : regAt s.params a = none) :
    exec (.rdReg a) s = .next (failedWith s 10) := by
  simp only [exec, execRdReg, hr]
  rfl

/-- Settles O18: what RD_REG shows, and whether it fails, is a matter of the register at the address. -/
theorem rdRegShowsOrFails : Obligations.RdRegShowsOrFails := by
  refine fun s hp => ⟨fun a v h => ?_, fun a h => ?_, fun a hrw hro => ?_⟩
  · obtain ⟨r, hr, rfl⟩ := shownAt_iff.mp h
    exact exec_rdReg_of_regAt hr
  · obtain ⟨r, hr⟩ := (exists_regAt_iff hp).mpr h
    exact ⟨readReg s r, shownAt_iff.mpr ⟨r, hr, rfl⟩⟩
  · refine exec_rdReg_of_reserved (Option.eq_none_iff_forall_ne_some.mpr fun r hr => ?_)
    exact not_or.mpr ⟨hrw, hro⟩ ((exists_regAt_iff hp).mp ⟨r, hr⟩)

end Sys2Proof.Machine
end

section
/-!
Exceptions (60_exceptions.md R310 to R316): every step has a next state and every command word an answer, a failure has
no effect but ERR, and ERR does not block.
-/

namespace Sys2Proof.Machine

/-! ### Every step answers -/

/-- No command stops the block (60_exceptions.md R310). -/
theorem exists_exec_eq_next (i : Instr) (s : State) : ∃ t, exec i s = .next t := by
  obtain ⟨code, -, -, he⟩ | ⟨code, u, -, -, he⟩ | ⟨u, d, -, he⟩ := exec_cases i s <;> exact ⟨_, he⟩

/-- No state stops the block (70_reset_and_hazards.md R348). -/
theorem exists_step_eq_next (s : State) : ∃ t, step s = .next t := by
  unfold step
  split
  case h_1 | h_2 => exact ⟨_, rfl⟩
  case h_3 w u _ =>
    split
    case h_1 | h_2 => exact ⟨_, rfl⟩
    case h_3 i _ => exact exists_exec_eq_next i u

/-- Settles O8: the step has a next state, and what a word does to ERR (`firstErrorSticks`) bounds the answered code. -/
theorem everyStepAnswers : Obligations.EveryStepAnswers := by
  intro s
  obtain ⟨t, h⟩ := exists_step_eq_next s
  refine ⟨t, h, fun w rest hin => ?_⟩
  obtain ⟨-, hword, -⟩ := firstErrorSticks
  obtain ⟨r, hr, ⟨-, hle, -⟩ | ⟨hzero, -⟩⟩ := hword s t w rest hin h
  · exact ⟨r, hr, hle⟩
  · exact ⟨r, hr, by simp [hzero]⟩

/-! ### A failure's effect -/

/-- RAISE's response names the code, and its whole effect is that of R312. -/
theorem raise_eq_failedWith {s : State} {code : ErrorCode} {r : Response} (h : (s.raise code).response = some r) :
    s.raise code = failedWith s r.code ∧ r.code = errorNumber code := by
  cases h
  exact ⟨rfl, rfl⟩

/-- BUILD's failures after its first check (43_quantizer.md R208): none of them is ILLEGAL_STATE, and the state before
RAISE is the one without a build, some cells apart. -/
theorem BuildFailed.eq_unbuilt {s u : State} {code : ErrorCode} (h : BuildFailed s u code) :
    errorNumber code ≠ 7 ∧ u = { unbuilt s with cube := u.cube } := by
  obtain ⟨-, hcode, vs, -, rfl⟩ := h
  refine ⟨?_, rfl⟩
  obtain rfl | rfl | rfl := hcode <;> decide

/-- Settles O10: a word that does not decode and a failing command are one RAISE, and BUILD's after its first check are
a RAISE on the state without a build. -/
theorem failureHasNoOtherEffect : Obligations.FailureHasNoOtherEffect := by
  intro s t w rest r hin h hr hne
  obtain ⟨hq, -⟩ | ⟨_, hq, -⟩ | ⟨v, _, hq, hv, rfl⟩ | ⟨v, _, hq, hv, rfl⟩ | ⟨v, _, i, hq, hv, he⟩ := step_cases h <;>
    cases hin.symm.trans hq
  · rw [if_neg (by simp [hv])]
    exact (raise_eq_failedWith hr).1
  · rw [if_neg (by simp [hv])]
    exact (raise_eq_failedWith hr).1
  · obtain ⟨code, -, hb, hx⟩ | ⟨code, u, rfl, hb, hx⟩ | ⟨u, d, -, hx⟩ := exec_cases i { s with inputs := rest } <;>
      cases hx.symm.trans he
    · obtain ⟨ht, hcode⟩ := raise_eq_failedWith hr
      rw [if_neg, ht]
      rintro ⟨hw, h7⟩
      cases hv.symm.trans hw
      exact h7 (by rw [hcode, hb rfl]; rfl)
    · obtain ⟨ht, hcode⟩ := raise_eq_failedWith hr
      obtain ⟨h7, hu⟩ := hb.eq_unbuilt
      rw [if_pos ⟨hv, hcode ▸ h7⟩, raise_cube, ← hu, ht]
    · cases hr
      exact absurd rfl hne

/-! ### The operations with another ERR -/

/-- `s` with ERR = `e`. -/
def State.withErr (s : State) (e : BitVec 8) : State :=
  { s with err := e }

section
variable (s : State) (e : BitVec 8)

theorem withErr_mode : (s.withErr e).mode = s.mode := rfl

theorem withErr_params : (s.withErr e).params = s.params := rfl

/-- STATUS is the one register that shows ERR (10_state.md R52). -/
theorem readReg_withErr {r : Reg} (h : r ≠ .status) : readReg (s.withErr e) r = readReg s r := by
  cases r with
  | status => exact absurd rfl h
  | _ => rfl

theorem storeReg_withErr (r : Reg) (d : BitVec 32) : storeReg (s.withErr e) r d = (storeReg s r d).withErr e := by
  cases r <;> rfl

theorem ringRead_withErr (j : Nat) : (s.withErr e).ringRead j = ((s.ringRead j).1, (s.ringRead j).2.withErr e) := by
  unfold State.ringRead
  simp only [State.withErr]
  split <;> rfl

theorem ringIndex_withErr (off : BitVec 16) :
    (s.withErr e).ringIndex off = ((s.ringIndex off).1, (s.ringIndex off).2.withErr e) := rfl

theorem ringWrite_withErr (j : Nat) (a : Acc) : (s.withErr e).ringWrite j a = (s.ringWrite j a).withErr e := rfl

theorem withError_withErr (c : Color) : (s.withErr e).withError c = s.withError c := rfl

theorem activeTerms_withErr : (s.withErr e).activeTerms = s.activeTerms := rfl

theorem diffuseTerm_withErr (h : Nat) (v : Err) (t : KernelTerm) :
    diffuseTerm h v (s.withErr e) t = (diffuseTerm h v s t).withErr e := by
  unfold diffuseTerm State.ringAddTo
  rw [ringRead_withErr]
  split <;> rfl

theorem diffuse_withErr (h : Nat) (v : Err) (terms : List KernelTerm) :
    terms.foldl (diffuseTerm h v) (s.withErr e) = (terms.foldl (diffuseTerm h v) s).withErr e :=
  List.foldl_hom (State.withErr · e) fun u t => diffuseTerm_withErr u e h v t

theorem stepPixel_withErr (x : Color) : stepPixel x (s.withErr e) = (stepPixel x s).withErr e := by
  unfold stepPixel
  simp only [ringRead_withErr, withError_withErr, ringWrite_withErr, activeTerms_withErr, diffuse_withErr]
  rfl

theorem stepTimes_withErr (x : Color) (n : Nat) : stepTimes x n (s.withErr e) = (stepTimes x n s).withErr e := by
  induction n generalizing s with
  | zero => rfl
  | succ n ih => rw [stepTimes, stepPixel_withErr, ih, stepTimes]

theorem drain_withErr (n : Nat) : drain n (s.withErr e) = (drain n s).withErr e :=
  congrArg (fun u : State => { u with mode := .done })
    (stepTimes_withErr { s with mode := .draining } e s.defaultColor n)

end

/-! ### The commands with another ERR -/

/-- R313 for two outcomes of the command `i`, the second with ERR = `e` before it: the same next state and answer, ERR
apart and the data of RD_REG of STATUS, and a failure that leaves a non-zero ERR. -/
def AnswersAlike (i : Instr) (e : BitVec 8) (o o' : Host.Outcome State Fault Refusal) : Prop :=
  ∃ t u r q, o = .next t ∧ o' = .next u ∧ { u with err := t.err, response := t.response } = t ∧
    t.response = some r ∧ u.response = some q ∧ q.code = r.code ∧ (i ≠ .rdReg 0x001 → q = r) ∧
    (e ≠ 0 → q.code ≠ 0 → u.err = e)

section
variable {i : Instr} {e : BitVec 8} {s : State}

theorem AnswersAlike.fail (code : ErrorCode) : AnswersAlike i e (fail s code) (fail (s.withErr e) code) :=
  ⟨s.raise code, (s.withErr e).raise code, _, _, rfl, rfl, rfl, rfl, rfl, rfl, fun _ => rfl, fun he _ => if_neg he⟩

/-- Two successes whose states before the response agree, ERR apart. -/
theorem AnswersAlike.finish_of_withErr_eq {u : State} {d d' : BitVec 64} (h : u.withErr s.err = s)
    (hd : i ≠ .rdReg 0x001 → d' = d) : AnswersAlike i e (finish s d) (finish u d') :=
  ⟨s.respond d, u.respond d', _, _, rfl, rfl, congrArg (State.respond · d) h, rfl, rfl, rfl,
    fun hi => by rw [hd hi], fun _ hq => absurd rfl hq⟩

theorem AnswersAlike.finish {u : State} (h : u = s.withErr e) (d : BitVec 64) :
    AnswersAlike i e (finish s d) (finish u d) :=
  .finish_of_withErr_eq (by rw [h]; rfl) fun _ => rfl

theorem AnswersAlike.ite {c : Prop} [Decidable c] {a a' b b' : Host.Outcome State Fault Refusal}
    (ha : AnswersAlike i e a a') (hb : AnswersAlike i e b b') :
    AnswersAlike i e (if c then a else b) (if c then a' else b') := by
  split
  · exact ha
  · exact hb

end

/-- No command checks ERR, and none but RD_REG of STATUS reads it: with another value it makes the same checks and ends
alike. -/
theorem exec_withErr (i : Instr) (s : State) (e : BitVec 8) : AnswersAlike i e (exec i s) (exec i (s.withErr e)) := by
  cases i with
  | nop | abort => exact .finish rfl _
  | errClear => exact .finish_of_withErr_eq rfl fun _ => rfl
  | wrReg addr d =>
    simp only [exec, execWrReg, withErr_params, storeReg_withErr]
    cases regAt s.params addr with
    | none => exact .fail _
    | some r => exact .ite (.fail _) (.ite (.fail _) (.ite (.finish rfl _) (.finish rfl _)))
  | rdReg addr =>
    simp only [exec, execRdReg, withErr_params]
    cases hr : regAt s.params addr with
    | none => exact .fail _
    | some r =>
      refine .finish_of_withErr_eq rfl fun hi => ?_
      have hstatus : r ≠ .status := by
        rintro rfl
        exact hi (congrArg Instr.rdReg (regAt_eq_some_iff.mp hr).2)
      exact congrArg (0#32 ++ ·) (readReg_withErr s e hstatus)
  | build => exact .ite (.fail _) (.ite (.fail _) (.ite (.fail _) (.ite (.fail _) (.ite (.fail _) (.finish rfl _)))))
  | query c => exact .ite (.fail _) (.finish rfl _)
  | start => exact .ite (.fail _) (.ite (.fail _) (.ite (.fail _) (.ite (.fail _) (.ite (.fail _) (.finish rfl _)))))
  | pixel x =>
    cases hm : s.mode with
    | filling =>
      rw [exec_pixel_of_filling hm, exec_pixel_of_filling (s := s.withErr e) hm]
      exact .finish rfl _
    | streaming =>
      rw [exec_pixel_of_streaming hm, exec_pixel_of_streaming (s := s.withErr e) hm]
      exact .finish (stepPixel_withErr { s with inCount := s.inCount + 1 } e x) _
    | idle | draining | done =>
      simp only [exec, execPixel, withErr_mode, hm]
      exact .fail _
  | endImage =>
    cases hm : s.mode with
    | filling =>
      rw [exec_endImage_of_filling hm, exec_endImage_of_filling (s := s.withErr e) hm]
      exact .finish (drain_withErr { s with shortPrime := true } e s.fill.toNat) _
    | streaming =>
      rw [exec_endImage_of_streaming hm, exec_endImage_of_streaming (s := s.withErr e) hm]
      exact .finish (drain_withErr s e s.ringLen) _
    | idle | draining | done =>
      simp only [exec, execEndImage, withErr_mode, hm]
      exact .fail _
  | ringReset => exact .ite (.fail _) (.ite (.fail _) (.finish rfl _))
  | ringRd off =>
    simp only [exec, execRingRd, ringIndex_withErr, ringRead_withErr]
    exact .ite (.fail _) (.finish rfl _)
  | ringLd off c => exact .ite (.fail _) (.finish rfl _)
  | ringWrc off ch v => exact .ite (.fail _) (.ite (.fail _) (.finish rfl _))
  | ringPush c => exact .ite (.fail _) (.finish rfl _)

/-- Settles O11: `exec_withErr`. -/
theorem errDoesNotBlock : Obligations.ErrDoesNotBlock :=
  exec_withErr

end Sys2Proof.Machine
end

section
/-!
Reset (70_reset_and_hazards.md R340, R342): every state item takes its reset value from any state, and the invariants
of Safety.lean hold there.
-/

namespace Sys2Proof.Machine

/-! ### The reset values -/

/-- A reset on the port is RESET of the whole block, whatever the state. -/
theorem step_of_reset {s : State} {rest : List HostInput} (hin : s.inputs = .reset :: rest) :
    step s = .next (resetBlock { s with inputs := rest }) := by
  simp only [step, fetch, hin]

/-- RESET reads nothing of the state before it: the banks are replicated reset values and the memories are empty. -/
theorem atReset_resetBlock (s : State) : AtReset (resetBlock s) := by
  have kernel : ∀ i : Fin 8, (resetBlock s).kernel[i] = { offset := 0, num := 0 } := fun i =>
    Vector.getElem_replicate i.isLt
  have pal : ∀ i : Fin 16, (resetBlock s).pal[i] = ⟨0, 0, 0⟩ := fun i => Vector.getElem_replicate i.isLt
  have kact : ∀ i : Fin 8, (resetBlock s).kact[i] = { off := 0, num := 0 } := fun i => Vector.getElem_replicate i.isLt
  have slots : ∀ i : Fin 16, (resetBlock s).slots[i] = MapSlot.empty := fun i => Vector.getElem_replicate i.isLt
  have ring : ∀ a, (resetBlock s).ringRam.read? a = none := fun _ => rfl
  have cube : ∀ a, (resetBlock s).cube.read? a = none := fun _ => rfl
  exact ⟨rfl, rfl, rfl, rfl, rfl, rfl, rfl, rfl, rfl, rfl, rfl, kernel, pal, ring, rfl, rfl, rfl, rfl, kact, rfl, slots,
    cube, rfl, rfl, rfl⟩

/-- The state after power-up is a fixed point of RESET. -/
theorem resetBlock_reset : resetBlock State.reset = State.reset := rfl

/-- Settles O7: a reset step is RESET of the state behind the port, which gives the same values to every state. -/
theorem resetRestoresEveryItem : Obligations.ResetRestoresEveryItem :=
  ⟨resetBlock_reset ▸ atReset_resetBlock State.reset,
    fun _ _ hin => ⟨_, step_of_reset hin, atReset_resetBlock _, rfl⟩⟩

/-! ### The invariants at reset -/

/-- The reference configuration is a legal one (00_scope.md R9). -/
theorem legal_reference : Params.reference.Legal := by decide

/-- Empty memories, pointers at 0 and no error. -/
theorem storeInv_reset : State.reset.StoreInv where
  legal := legal_reference
  ringWf := List.Pairwise.nil
  ringBelow := nofun
  cubeWf := List.Pairwise.nil
  cubeBelow := nofun
  capacity := Nat.zero_le _
  cursorLe := Nat.le_refl _
  fillLe := nofun
  errLe := Nat.zero_le _
  kactLe := Nat.zero_le _
  notDraining := nofun

/-- Settles O50: the map is clear and no image runs. -/
theorem invariantsHoldAtReset : Obligations.InvariantsHoldAtReset := by
  have hrest : State.reset.Resting := .inl rfl
  exact ⟨storeInv_reset, .of_clear legal_reference rfl rfl rfl, .of_resting legal_reference hrest nofun,
    .of_resting hrest⟩

end Sys2Proof.Machine
end
